-- ==== Sys2Proof/Word.lean ====
section
/-! DEFINITION. The word types of PWMSEQ-1 (spec/00_scope.md R6, R7). -/

namespace Sys2Proof

/-- A value of width `W = 32` (R6, D1): the four data registers and the queue slot. -/
abbrev Word := BitVec 32

/-- A micro-instruction word, format M, `IW = 8` bits (R80). -/
abbrev Byte := BitVec 8

/-- A host command word, format H, `CW = W + 2 = 34` bits (R80). -/
abbrev CommandWord := BitVec 34

end Sys2Proof
end

