-- ==== Sys2Proof/Config.lean ====
section
/-! DEFINITION. The implementation parameters of spec/00_scope.md R6. -/

namespace Sys2Proof.Config

/-- `W`, the register width: the spec's decision D1. -/
abbrev wordBits : Nat := 32

/-- `ROM_LEN`, the length of the fixed program (R51, D6). -/
abbrev romLen : Nat := 6

/-- How many sequencer units there are beyond the first. OPEN in the spec (D2): no value is known of it.
Assumption log 7. -/
opaque moreSequencers : Nat

/-- How many pins there are beyond the first. OPEN in the spec (D3): no value is known of it.
Assumption log 7. -/
opaque morePins : Nat

/-- `N_SEQ`, at least 1, otherwise open (D2). -/
def nSeq : Nat := moreSequencers + 1

/-- `N_PIN`, at least 1, otherwise open (D3). -/
def nPin : Nat := morePins + 1

/-- The largest `max_count` that fits the Period Register: `2^W - 1` (R203). -/
abbrev maxCountLimit : Nat := 2 ^ wordBits - 1

end Sys2Proof.Config
end

