-- ==== Sys2Proof/Syntax.lean ====
section
/-! DEFINITION. The instructions of PWMSEQ-1: one constructor for each row of spec/opcode_table.json. -/

namespace Sys2Proof

/-- The side-set clause of a micro-instruction (R83): `none` is no clause (`ss_en = 0`), `some b` sets the pin to the
level `b` (`ss_en = 1`, `ss_val = b`; `true` is HIGH). The reserved combination `ss_en = 0, ss_val = 1` has no value. -/
abbrev SideSet := Option Bool

/-- The seven micro-operations (R82) and the three host commands (R91). -/
inductive Instr where
  /-- `FETCH` (R112): non-blocking fetch from the Transfer Queue. -/
  | fetch (ss : SideSet)
  /-- `LATCH` (R113): move `SCR` to `X`. -/
  | latch (ss : SideSet)
  /-- `RELOAD` (R114): move `PERIOD` to `Y`. -/
  | reload (ss : SideSet)
  /-- `COMPARE tgt` (R115): jump when `X` and `Y` differ. -/
  | compare (tgt : BitVec 3) (ss : SideSet)
  /-- `NOP` (R116): carries a side-set, nothing else. -/
  | nop (ss : SideSet)
  /-- `DECREMENT tgt` (R117): count `Y` down, jump when the new `Y` is not zero. -/
  | decrement (tgt : BitVec 3) (ss : SideSet)
  /-- `LDPER` (R120): move `SCR` to `PERIOD`. -/
  | ldper (ss : SideSet)
  /-- `ENQUEUE v` (R140): put `v` in the Transfer Queue. -/
  | enqueue (v : Word)
  /-- `EXEC i` (R142): the sequencer executes the format-M word `i` once. -/
  | exec (i : Byte)
  /-- `ACTIVATE` (R146): the sequencer begins to run. -/
  | activate
  deriving DecidableEq, Repr

/-- An encoded instruction: a word of one of the two formats (R80). -/
inductive Code where
  /-- format M, 8 bits -/
  | micro (w : Byte)
  /-- format H, 34 bits -/
  | command (c : CommandWord)
  deriving DecidableEq, Repr

/-- Is the instruction a micro-operation (format M)? -/
def Instr.isMicro : Instr → Bool
  | .fetch _ => true
  | .latch _ => true
  | .reload _ => true
  | .compare _ _ => true
  | .nop _ => true
  | .decrement _ _ => true
  | .ldper _ => true
  | .enqueue _ => false
  | .exec _ => false
  | .activate => false

end Sys2Proof
end

