-- ==== Sys2Proof/WellFormed.lean ====
section
/-! DEFINITION. Which instructions are well formed, and which format-M words are (spec/30_encoding.md R85), written
without the decoder. -/

namespace Sys2Proof

/-- A jump target lies in the program: `tgt <= 5` (R84, R85). -/
def targetOk (tgt : BitVec 3) : Bool := tgt.toNat < Config.romLen

/-- The four conditions of R85 on a format-M word: `op` is not `0b111`; `ss_val` is 0 when `ss_en` is 0; `tgt` is 0 when
the operation has no target; `tgt <= 5` for `COMPARE` (`0b011`) and `DECREMENT` (`0b101`). -/
def microWordOk (w : Byte) : Bool :=
  let op := w.extractLsb' 5 3
  let tgt := w.extractLsb' 0 3
  let jumps := op == 3 || op == 5
  op != 7 && (w.getLsbD 4 || !w.getLsbD 3) && (jumps || tgt == 0) && (!jumps || targetOk tgt)

/-- An instruction is well formed when its target lies in the program, or, for `EXEC`, when the word it carries is a
well-formed format-M word (R93). The other constructors hold nothing that could be ill formed. -/
def Instr.wellFormed : Instr → Bool
  | .fetch _ => true
  | .latch _ => true
  | .reload _ => true
  | .compare tgt _ => targetOk tgt
  | .nop _ => true
  | .decrement tgt _ => targetOk tgt
  | .ldper _ => true
  | .enqueue _ => true
  | .exec i => microWordOk i
  | .activate => true

end Sys2Proof
end

