-- ==== Sys2Proof/Decode.lean ====
section
/-! DEFINITION. Decoding and encoding of both formats (spec/30_encoding.md R81 to R95), and the host's numbering of a
word's bits (`decodeTableWord`). -/

namespace Sys2Proof

/-- Why a word is reserved (R94, R95). -/
inductive DecodeError where
  /-- `op = 0b111` (R94) -/
  | reservedOperation
  /-- `ss_en = 0` with `ss_val = 1` (R94) -/
  | sideValueWithoutEnable
  /-- `tgt` is not 0 on an operation that has no target (R94) -/
  | targetWithoutJump
  /-- a jump's `tgt` is 6 or 7 (R94) -/
  | targetOutsideProgram
  /-- `cmd = 0b11` (R95) -/
  | reservedCommandCode
  /-- `EXEC` with `data[31:8]` not 0 (R95) -/
  | execUpperBits
  /-- `EXEC` whose instruction word is reserved (R95) -/
  | execReservedWord
  /-- `ACTIVATE` with `data` not 0 (R95) -/
  | activateData
  deriving DecidableEq, Repr

/-! ### Format M -/

/-- `I[7:5]` (R81). -/
def opField (w : Byte) : BitVec 3 := w.extractLsb' 5 3

/-- `I[2:0]` (R81). -/
def tgtField (w : Byte) : BitVec 3 := w.extractLsb' 0 3

/-- The side-set of `I[4]` and `I[3]` (R83). -/
def decodeSideSet (ssEn ssVal : Bool) : Except DecodeError SideSet :=
  match ssEn, ssVal with
  | true, level => .ok (some level)
  | false, false => .ok none
  | false, true => .error .sideValueWithoutEnable

/-- An operation that takes no target: `tgt` must be 0 (R85). -/
def withoutTarget (tgt : BitVec 3) (i : Instr) : Except DecodeError Instr :=
  if tgt = 0 then .ok i else .error .targetWithoutJump

/-- A jump: `tgt` must lie in the program (R84, R85). -/
def withTarget (tgt : BitVec 3) (i : Instr) : Except DecodeError Instr :=
  if targetOk tgt then .ok i else .error .targetOutsideProgram

/-- The operation codes of R82. -/
def decodeOperation (op tgt : BitVec 3) (ss : SideSet) : Except DecodeError Instr :=
  match op.toNat with
  | 0 => withoutTarget tgt (.fetch ss)
  | 1 => withoutTarget tgt (.latch ss)
  | 2 => withoutTarget tgt (.reload ss)
  | 3 => withTarget tgt (.compare tgt ss)
  | 4 => withoutTarget tgt (.nop ss)
  | 5 => withTarget tgt (.decrement tgt ss)
  | 6 => withoutTarget tgt (.ldper ss)
  | _ => .error .reservedOperation

/-- Decoding format M (R86). -/
def decodeMicro (w : Byte) : Except DecodeError Instr :=
  match decodeSideSet (w.getLsbD 4) (w.getLsbD 3) with
  | .error e => .error e
  | .ok ss => decodeOperation (opField w) (tgtField w) ss

/-! ### Format H -/

/-- `C[33:32]` (R90). -/
def cmdField (c : CommandWord) : BitVec 2 := c.extractLsb' 32 2

/-- `C[31:0]` (R90). -/
def dataField (c : CommandWord) : Word := c.extractLsb' 0 32

/-- `EXEC`: `data[31:8]` must be 0 and `data[7:0]` a word that is not reserved (R93). -/
def decodeExec (data : Word) : Except DecodeError Instr :=
  if data.extractLsb' 8 24 = 0 then
    match decodeMicro (data.extractLsb' 0 8) with
    | .ok _ => .ok (.exec (data.extractLsb' 0 8))
    | .error _ => .error .execReservedWord
  else .error .execUpperBits

/-- Decoding format H (R93). -/
def decodeCommand (c : CommandWord) : Except DecodeError Instr :=
  match (cmdField c).toNat with
  | 0 => .ok (.enqueue (dataField c))
  | 1 => decodeExec (dataField c)
  | 2 => if dataField c = 0 then .ok .activate else .error .activateData
  | _ => .error .reservedCommandCode

/-- Decoding a word of either format. -/
def decode : Code → Except DecodeError Instr
  | .micro w => decodeMicro w
  | .command c => decodeCommand c

/-- The instruction of `nbits` bits whose value is `w`, bit 0 the least significant: up to 8 bits it is a word of format M,
above that a host command, whose 34 bits stand in the low bits of the whole bytes; the bits above them must be 0
(assumption log 15). -/
def decodeTableWord (nbits w : Nat) : Option Instr :=
  if nbits ≤ 8 then
    if w < 2 ^ 8 then (decodeMicro (BitVec.ofNat 8 w)).toOption else none
  else
    if w < 2 ^ 34 then (decodeCommand (BitVec.ofNat 34 w)).toOption else none

/-! ### Encoding -/

/-- `ss_en` and `ss_val` of a side-set (R83). -/
def encodeSideSet : SideSet → BitVec 2
  | none => 0b00
  | some false => 0b10
  | some true => 0b11

/-- A format-M word from its fields (R81): `op << 5 | ss_en << 4 | ss_val << 3 | tgt`. -/
def packMicro (op : BitVec 3) (ss : SideSet) (tgt : BitVec 3) : Byte :=
  op.setWidth 8 <<< 5 ||| (encodeSideSet ss).setWidth 8 <<< 3 ||| tgt.setWidth 8

/-- A format-H word from its fields (R90): `cmd << 32 | data`. -/
def packCommand (cmd : BitVec 2) (data : Word) : CommandWord := cmd.setWidth 34 <<< 32 ||| data.setWidth 34

/-- Encoding, from the tables of R82 and R91. -/
def encode : Instr → Code
  | .fetch ss => .micro (packMicro 0b000 ss 0)
  | .latch ss => .micro (packMicro 0b001 ss 0)
  | .reload ss => .micro (packMicro 0b010 ss 0)
  | .compare tgt ss => .micro (packMicro 0b011 ss tgt)
  | .nop ss => .micro (packMicro 0b100 ss 0)
  | .decrement tgt ss => .micro (packMicro 0b101 ss tgt)
  | .ldper ss => .micro (packMicro 0b110 ss 0)
  | .enqueue v => .command (packCommand 0b00 v)
  | .exec i => .command (packCommand 0b01 (i.setWidth 32))
  | .activate => .command (packCommand 0b10 0)

/-- The number an encoded instruction stands for, bit 0 the least significant. -/
def Code.toNat : Code → Nat
  | .micro w => w.toNat
  | .command c => c.toNat

end Sys2Proof
end

