-- ==== Sys2Proof/Machine/State.lean ====
section
/-! DEFINITION. The state of a PWMSEQ-1 system as plain data (spec/10_state.md), and the state after reset. -/

namespace Sys2Proof.Machine

/-- Why the machine stops with a fault. The block itself has no trap and no error path (R12, R209). -/
inductive Fault where
  /-- A read of program space at an address above 5, which R51 says does not exist. Raised by `Memory.read`; no step reaches it,
  because `pc` is below 6. Safe: assumption log 16. -/
  | noSuchProgramWord (addr : Nat)
  deriving DecidableEq, Repr

/-- Why the machine gives an input no meaning ("refuse", R12). -/
inductive Refusal where
  /-- Raised by `exec` for an instruction that has no meaning yet. Safe. No arm answers it now. -/
  | notModelled (mnemonic : String)
  /-- A reserved word of format M, met in program space or carried by `EXEC`, or an instruction term whose target lies outside
  the program (R94). Raised by the sequencer's turn and by the meanings of `EXEC`, `COMPARE` and `DECREMENT`. Safe. -/
  | reservedMicroWord
  /-- A reserved word of format H written to a command port (R95). Raised by the host's turn. Safe. -/
  | reservedCommand
  /-- `EXEC` while `run = 1` (R144, U9). Raised by the meaning of `EXEC`. Safe. -/
  | execWhileRunning
  /-- `EXEC` of an operation other than `FETCH` and `LDPER` (R144, U9). Raised by the meaning of `EXEC`. Safe. -/
  | execNotAdmitted
  /-- `initialize` with a pin outside `[0, N_PIN - 1]`, a violated precondition (U5, D26). Raised by the host's turn. Safe. -/
  | pinOutOfRange
  /-- `initialize` with a frequency that is not positive, a violated precondition (U6, D26). Raised by the host's turn. Safe. -/
  | frequencyNotPositive
  /-- `initialize` on an instance that is not freshly reset (R165, U10, D27). Raised by the host's turn. Safe. -/
  | notFreshlyReset
  /-- `set_duty` for an instance that has no controller: the operation belongs to a controller (R158). Raised by the host's
  turn. Safe: assumption log 13. -/
  | noController
  /-- A turn or a command for an instance outside `[0, N_SEQ - 1]` (R216). Raised by both agents' turns. Safe: assumption
  log 13. -/
  | noSuchSequencer
  deriving DecidableEq, Repr

/-- One instance of the block (R37). -/
structure Block where
  /-- The Period Register (R21). -/
  period : Word
  /-- The Duty Threshold (R22). -/
  x : Word
  /-- The Countdown Counter (R24). -/
  y : Word
  /-- The intermediate or scratch register (R25). -/
  scr : Word
  /-- The program counter; the values 6 and 7 are not representable, as R26 asks. -/
  pc : Fin 6
  /-- 0 from reset until `ACTIVATE` (R29). -/
  run : Bool
  /-- The level of the output pin, `true` is HIGH (R30). -/
  pin : Bool
  /-- The Transfer Queue holds a pending value (R28). -/
  tqValid : Bool
  /-- The pending value while `tqValid` (R36). -/
  tqData : Word
  /-- The physical pin that carries `pin` (R31). -/
  cfgPin : Nat
  /-- The sequencer clock rate in Hz (R31). A whole number because `InitArgs.countFrequency` is one: DESIGN CHOICE, assumption log 19. -/
  cfgClk : Nat
  /-- The model's own field: a host command has reached this instance since reset (R165). Assumption log 9. -/
  touched : Bool
  deriving DecidableEq, Repr

/-- The controller triple (R32). -/
structure Controller where
  /-- The `sequencer_id` of the instance it owns. -/
  sequencerHandle : Nat
  /-- The `M` given to `initialize`. -/
  maxCount : Nat
  /-- The pin given to `initialize`. -/
  pinBinding : Nat
  deriving DecidableEq, Repr

/-- The inputs of `initialize` (R160). An integer outside the range an input must lie in can be given too: the checks refuse it. -/
structure InitArgs where
  /-- which sequencer unit -/
  sequencerId : Int
  /-- which physical pin -/
  pin : Int
  /-- the period length in counter ticks -/
  maxCount : Int
  /-- the base tick rate in Hz. The spec says only that it is positive (R6, U6), not that it is a whole number of Hz: that is the
  model's, DESIGN CHOICE, assumption log 19. -/
  countFrequency : Int
  deriving DecidableEq, Repr

/-- What `initialize` returns to its caller (R200 to R204). -/
inductive InitResult where
  /-- code 0 -/
  | success
  /-- code 1, `ERR_SEQ_ID` -/
  | errSeqId
  /-- code 2, `ERR_PIN_BOUND` -/
  | errPinBound
  /-- code 3, `ERR_MAX_COUNT` -/
  | errMaxCount
  deriving DecidableEq, Repr

/-- The step of R160's listing that a call of `initialize` takes next: steps 5 to 9. -/
inductive InitStage where
  /-- step 5: `ENQUEUE enc_W(max_count)` -/
  | enqueue
  /-- step 6: `EXEC FETCH` -/
  | fetch
  /-- step 7: `EXEC LDPER` -/
  | ldper
  /-- step 8: `ACTIVATE` -/
  | activate
  /-- step 9: create the controller and return -/
  | finish
  deriving DecidableEq, Repr

/-- A call of `initialize` whose checks have passed and whose pin is bound. -/
structure InitCall where
  /-- the instance being initialised -/
  sequencerId : Nat
  /-- the pin bound in step 4 -/
  pin : Nat
  /-- the `max_count` of the call -/
  maxCount : Nat
  /-- the step that comes next -/
  stage : InitStage
  deriving DecidableEq, Repr

/-- One thing the host does (R147, R99). -/
inductive HostOp where
  /-- write the word `w` to the command port of instance `id` (R53) -/
  | command (id : Nat) (w : CommandWord)
  /-- call `set_duty(value)` on the controller of instance `id` (R159) -/
  | setDuty (id : Nat) (value : Int)
  /-- call `initialize` (R160) -/
  | initChannel (args : InitArgs)
  deriving DecidableEq, Repr

/-- One context of execution on the host: its thread, or a handler that interrupts it (R61, R206). The spec sets no bound on what the host
does (R13, R68, R147, R252), and a list is finite: DESIGN CHOICE, assumption log 3. `State.asked` gives a context more to do at any
moment, so that an infinite `Execution` may hold commands for ever; a run of `step` alone holds finitely many. -/
structure HostContext where
  /-- What the context has decided to do next, in program order (R61, R98). Finite: assumption log 3. -/
  ops : List HostOp
  /-- The `initialize` call the context is in. Assumption log 10. -/
  call : Option InitCall
  /-- What the last finished `initialize` of the context returned to it (R204). Assumption log 12. -/
  result : Option InitResult
  deriving DecidableEq, Repr

/-- A context that has nothing to do and has called nothing. -/
def HostContext.idle : HostContext := { ops := [], call := none, result := none }

/-- Who takes a step (R13). -/
inductive Agent where
  /-- the host, in the context `context`: 0 is its thread, the others are its handlers -/
  | host (context : Nat)
  /-- the sequencer of instance `id` -/
  | seq (id : Nat)
  deriving DecidableEq, Repr

/-- Program space as address and byte pairs; an address that is not listed reads as the fixed image of R88. Canonical form:
`Memory.wf`. Assumption log 5. -/
abbrev Memory := List Host.Cell

/-- The whole system (R37). -/
structure State where
  /-- The instances, by `sequencer_id`, addresses rising; an id that is not listed reads as `Block.reset`. -/
  blocks : List (Nat × Block)
  /-- Program space (R51). -/
  prog : Memory
  /-- `pin_bound` (R33), pins rising; a pin that is not listed is not bound. -/
  pinBound : List (Nat × Bool)
  /-- The controllers that exist, by the instance they own (R32, R158); an id that is not listed has none. -/
  controllers : List (Nat × Option Controller)
  /-- The model's own: the contexts of the host, numbers rising; one that is not listed is `HostContext.idle`. Finitely
  many, with finitely many operations each: `State.asked` adds more. Assumption log 3. -/
  contexts : List (Nat × HostContext)
  /-- The model's own: who takes the next steps; after them the sequencers take turns in rota. Assumption log 3. -/
  schedule : List Agent
  /-- The model's own: the instance the current step acts on. Assumption log 3. -/
  sel : Nat
  deriving DecidableEq, Repr

/-- An instance after reset (R38): `run`, `pc`, `tq_valid` and `pin` are 0. The registers R39 to R41 leave unspecified hold 0:
DESIGN CHOICE, unsafe, assumption logs 1 and 2. `State.AtReset` (Sys2Proof/Safety.lean) leaves them free. -/
def Block.reset : Block :=
  { period := 0, x := 0, y := 0, scr := 0, pc := 0, run := false, pin := false, tqValid := false, tqData := 0,
    cfgPin := 0, cfgClk := 0, touched := false }

/-- The system after reset (R38, R230): every instance reset, no pin bound, no controller, the fixed program in program space,
nothing asked of the host yet. -/
def State.reset : State :=
  { blocks := [], prog := [], pinBound := [], controllers := [], contexts := [], schedule := [], sel := 0 }

end Sys2Proof.Machine
end

