-- ==== Sys2Proof/Machine/Operands.lean ====
section
/-! DEFINITION. The operands of PWMSEQ-1: jump targets (R84), the four data registers by name and by index (R10, R20), and the
passage from a signed request to a stored value (R9, R155, R157). -/

namespace Sys2Proof.Machine

/-- A jump target as a program address: `zext_3(I[2:0])`, legal from 0 to 5 (R84). -/
def target (tgt : BitVec 3) : Option (Fin 6) :=
  if h : tgt.toNat < 6 then some ⟨tgt.toNat, h⟩ else none

/-- The data registers (R20). -/
inductive Reg where
  /-- `x[0]` -/
  | period
  /-- `x[1]` -/
  | x
  /-- `x[2]` -/
  | y
  /-- `x[3]` -/
  | scr
  deriving DecidableEq, Repr

/-- The index synonyms `x[0]` to `x[3]` (R10, R20). -/
def Reg.ofIndex (n : Fin 4) : Reg :=
  match n.val with
  | 0 => .period
  | 1 => .x
  | 2 => .y
  | _ => .scr

/-- Read a data register. -/
def Block.get (u : Block) : Reg → Word
  | .period => u.period
  | .x => u.x
  | .y => u.y
  | .scr => u.scr

/-- Write a data register. -/
def Block.put (u : Block) (r : Reg) (v : Word) : Block :=
  match r with
  | .period => { u with period := v }
  | .x => { u with x := v }
  | .y => { u with y := v }
  | .scr => { u with scr := v }

/-- Move one data register to another, all `W` bits (R54). -/
def Block.move (u : Block) (dst src : Reg) : Block := u.put dst (u.get src)

/-- `clamp(v, M) = max(-1, min(v, M))`, on mathematical integers (R155). -/
def clamp (v M : Int) : Int := max (-1) (min v M)

/-- `enc_W(c) = c mod 2^W` (R9). -/
def encW (c : Int) : Word := BitVec.ofInt 32 c

end Sys2Proof.Machine
end

