-- ==== Sys2Proof/Machine/Flags.lean ====
section
/-! DEFINITION. The flags of the block: the output pin and its side-set (R30, R83, R110), and the two conditions that the jumps
test in the step that computes them (R30, R115, R117). There are no condition codes. -/

namespace Sys2Proof.Machine

/-- The side-set: `pin <- ss_val` when there is a clause, unconditionally (R83, R110). -/
def Block.sideSet (ss : SideSet) (u : Block) : Block :=
  match ss with
  | none => u
  | some level => { u with pin := level }

/-- `X != Y`, all `W` bits (R115). -/
def Block.thresholdMissed (u : Block) : Bool := u.x != u.y

/-- `Y - 1` with wrap-around at `2^W` (R9, R117). -/
def Block.countedDown (u : Block) : Word := u.y - 1

/-- The counter after the decrement is not zero (R117). -/
def Block.stillCounting (u : Block) : Bool := u.countedDown != 0

end Sys2Proof.Machine
end

