-- ==== Sys2Proof/Machine/Sparse.lean ====
section
/-! DEFINITION. Finite maps from numbers as lists of pairs in one canonical form: keys strictly rising, no entry equal to what
an unlisted key reads as. Program space, the instances, `pin_bound` and the controllers are all kept this way. -/

namespace Sys2Proof.Machine.Sparse

variable {α : Type}

/-- The value at a key; `dflt` is what an unlisted key reads as. -/
def get (dflt : Nat → α) : List (Nat × α) → Nat → α
  | [], k => dflt k
  | (a, v) :: l, k => if a = k then v else get dflt l k

/-- Take every entry of a key out. -/
def erase : List (Nat × α) → Nat → List (Nat × α)
  | [], _ => []
  | (a, v) :: l, k => if a = k then erase l k else (a, v) :: erase l k

/-- Put an entry before the first larger key. -/
def insert : List (Nat × α) → Nat → α → List (Nat × α)
  | [], k, v => [(k, v)]
  | (a, w) :: l, k, v => if k < a then (k, v) :: (a, w) :: l else (a, w) :: insert l k v

/-- Write a key; writing what an unlisted key reads as takes the entry out. -/
def set [DecidableEq α] (dflt : Nat → α) (l : List (Nat × α)) (k : Nat) (v : α) : List (Nat × α) :=
  if v = dflt k then erase l k else insert (erase l k) k v

/-- The keys are strictly rising and all above `lo`, when there is a `lo`. -/
def rising : Option Nat → List (Nat × α) → Bool
  | _, [] => true
  | lo, (a, _) :: l => (match lo with | none => true | some b => decide (b < a)) && rising (some a) l

/-- The canonical form. -/
def wf [DecidableEq α] (dflt : Nat → α) (l : List (Nat × α)) : Bool :=
  rising none l && l.all (fun e => e.2 ≠ dflt e.1)

end Sys2Proof.Machine.Sparse
end

