-- ==== Sys2Proof/Machine/Ops.lean ====
section
/-! DEFINITION. The named operations over the state: program space (R51), the Transfer Queue's two primitives (R11, R56, R57), the
program counter (R27), the instances (R37), the binding table (R33), the controllers (R32), and raising a configuration error (R12,
R208). -/

namespace Sys2Proof.Machine

/-! ### Program space -/

/-- The fixed program (R88): what program space holds at every moment in the spec, so what an unlisted address reads as. -/
def romImage (addr : Nat) : Byte :=
  match addr with
  | 0 => 0x10
  | 1 => 0x20
  | 2 => 0x40
  | 3 => 0x65
  | 4 => 0x98
  | 5 => 0xA3
  | _ => 0

/-- Read a word of program space; an address above 5 does not exist (R51). -/
def Memory.read (m : Memory) (addr : Nat) : Except Fault Byte :=
  if addr < Config.romLen then .ok (Sparse.get romImage m addr) else .error (.noSuchProgramWord addr)

/-- Place a word in program space from outside the machine. No step does this (R51, R67): only `State.withFetchWord` does. -/
def Memory.write (m : Memory) (addr : Nat) (w : Byte) : Memory :=
  if addr < Config.romLen then Sparse.set romImage m addr w else m

/-- The canonical form of program space: addresses strictly rising, no entry equal to the fixed image, none above 5. -/
def Memory.wf (m : Memory) : Bool := Sparse.wf romImage m && m.all (fun c => decide (c.1 < Config.romLen))

/-- `RomRead(a)` (R11). -/
def State.romRead (s : State) (addr : Nat) : Except Fault Byte := Memory.read s.prog addr

/-! ### The Transfer Queue -/

/-- `MemWrite(TQ, W, v)` (R56): `tq_data <- v; tq_valid <- 1`, whatever `tq_valid` was. -/
def Block.memWrite (v : Word) (u : Block) : Block := { u with tqData := v, tqValid := true }

/-- What `MemRead(TQ, W)` returns (R57): `(ok, d)`, as one optional value. -/
def Block.pending (u : Block) : Option Word := if u.tqValid then some u.tqData else none

/-- What `MemRead(TQ, W)` leaves (R57): `tq_valid <- 0`. -/
def Block.consumed (u : Block) : Block := { u with tqValid := false }

/-! ### The program counter -/

/-- `pc <- (pc + 1) mod 6` (R27, R118). -/
def Block.advance (u : Block) : Block := { u with pc := u.pc + 1 }

/-- `if taken then pc <- a else pc <- (pc + 1) mod 6` (R27). -/
def Block.branch (u : Block) (taken : Bool) (a : Fin 6) : Block :=
  if taken then { u with pc := a } else u.advance

/-! ### The operations of the two one-shot instructions, without the program counter -/

/-- `FETCH` less its `pc` (R112): `SCR` gets the pending value, or `X` when the queue is empty; the queue is cleared. -/
def Block.fetchQueue (u : Block) : Block := (u.put .scr (u.pending.getD (u.get .x))).consumed

/-- `LDPER` (R120): `PERIOD <- SCR`. -/
def Block.loadPeriod (u : Block) : Block := u.move .period .scr

/-- What the sequencer does with a one-shot instruction (R111): the instruction's side-set and operation, `pc` neither read nor
written. Only `FETCH` and `LDPER` can be executed this way (R144). -/
def oneShot : Instr → Option (Block → Block)
  | .fetch ss => some fun u => u.fetchQueue.sideSet ss
  | .ldper ss => some fun u => u.loadPeriod.sideSet ss
  | .latch _ => none
  | .reload _ => none
  | .compare _ _ => none
  | .nop _ => none
  | .decrement _ _ => none
  | .enqueue _ => none
  | .exec _ => none
  | .activate => none

/-! ### The instances -/

/-- The instance `id`. -/
def State.blockAt (s : State) (id : Nat) : Block := Sparse.get (fun _ => Block.reset) s.blocks id

/-- The instance the current step acts on. -/
def State.block (s : State) : Block := s.blockAt s.sel

/-- Replace the instance `id`. -/
def State.setBlock (s : State) (id : Nat) (u : Block) : State :=
  { s with blocks := Sparse.set (fun _ => Block.reset) s.blocks id u }

/-- Change the instance the current step acts on, and nothing else. -/
def State.onBlock (s : State) (f : Block → Block) : State := s.setBlock s.sel (f s.block)

/-- The instance `id` takes the step. -/
def State.select (s : State) (id : Nat) : State := { s with sel := id }

/-- A host command is addressed to the instance `id` (R53): the instance takes the step, and is no longer freshly reset (R165). -/
def State.addressed (s : State) (id : Nat) : State := (s.select id).onBlock fun u => { u with touched := true }

/-! ### Host state -/

/-- Is the pin bound (R33)? -/
def State.pinBoundAt (s : State) (p : Nat) : Bool := Sparse.get (fun _ => false) s.pinBound p

/-- `pin_bound[p] <- 1` (R33). -/
def State.bindPin (s : State) (p : Nat) : State := { s with pinBound := Sparse.set (fun _ => false) s.pinBound p true }

/-- The controller of the instance `id` (R32). -/
def State.controllerAt (s : State) (id : Nat) : Option Controller := Sparse.get (fun _ => none) s.controllers id

/-- A controller comes into existence (R160, step 9). -/
def State.addController (s : State) (c : Controller) : State :=
  { s with controllers := Sparse.set (fun _ => none) s.controllers c.sequencerHandle (some c) }

/-- The context `j` of the host. -/
def State.contextAt (s : State) (j : Nat) : HostContext := Sparse.get (fun _ => HostContext.idle) s.contexts j

/-- Replace the context `j`. -/
def State.setContext (s : State) (j : Nat) (h : HostContext) : State :=
  { s with contexts := Sparse.set (fun _ => HostContext.idle) s.contexts j h }

/-- Change the context `j`, and nothing else. -/
def State.onContext (s : State) (j : Nat) (f : HostContext → HostContext) : State := s.setContext j (f (s.contextAt j))

/-- The host decides on the further operations `asks`, each at the end of what its context has to do (R61, R98). No step does this: it is
how an infinite execution goes on to hold host commands, of which the spec sets no number (R13, R68, R147, R252). The model's own:
DESIGN CHOICE, assumption log 3. -/
def State.asked (s : State) (asks : List (Nat × HostOp)) : State :=
  asks.foldl (fun t a => t.onContext a.1 fun h => { h with ops := h.ops ++ [a.2] }) s

/-- The call of context `j` has come to the stage `stage`. -/
def State.reachStage (s : State) (j : Nat) (c : InitCall) (stage : InitStage) : State :=
  s.onContext j fun h => { h with call := some { c with stage := stage } }

/-- The turn at the head of the schedule, if there is one, is used up. -/
def State.turnUsed (s : State) : State := { s with schedule := s.schedule.tail }

/-- The code of a result (R204). -/
def InitResult.code : InitResult → Nat
  | .success => 0
  | .errSeqId => 1
  | .errPinBound => 2
  | .errMaxCount => 3

/-- `raise ConfigError(code)` (R12, R204, R208): the call ends, nothing of the system changes, the caller, context `j`, gets the code.
There is no handler, no saved state and no return (R209, R210). -/
def State.raiseConfigError (s : State) (j : Nat) (r : InitResult) : State := s.onContext j fun h => { h with result := some r }

/-- The canonical form of the whole state. -/
def State.wf (s : State) : Bool :=
  Memory.wf s.prog && Sparse.wf (fun _ => Block.reset) s.blocks && Sparse.wf (fun _ => false) s.pinBound
    && Sparse.wf (fun _ => none) s.controllers && Sparse.wf (fun _ => HostContext.idle) s.contexts

end Sys2Proof.Machine
end

