-- ==== Sys2Proof/Machine/HostCommands.lean ====
section
/-! DEFINITION. The meanings of the three host commands (spec/41_host_commands.md R140 to R146). -/

namespace Sys2Proof.Machine

/-- `ENQUEUE v` (R140): it never waits and never fails, in both modes. -/
def execEnqueue (v : Word) (s : State) : Host.Outcome State Fault Refusal :=
  .next (s.onBlock (Block.memWrite v))

/-- `EXEC i` (R142 to R145): admitted exactly when `run = 0` and the operation is `FETCH` or `LDPER` (R144); then the sequencer performs
it once, `pc` and `run` unchanged (R111). -/
def execExec (i : Byte) (s : State) : Host.Outcome State Fault Refusal :=
  match decodeMicro i with
  | .error _ => .refused .reservedMicroWord
  | .ok op =>
    match oneShot op with
    | none => .refused .execNotAdmitted
    | some act => if s.block.run then .refused .execWhileRunning else .next (s.onBlock act)

/-- `ACTIVATE` (R146): `run <- 1`; no effect when it is 1 already (D22). -/
def execActivate (s : State) : Host.Outcome State Fault Refusal :=
  .next (s.onBlock fun u => { u with run := true })

end Sys2Proof.Machine
end

