-- ==== Sys2Proof/Machine/Sequencer.lean ====
section
/-! DEFINITION. The meanings of the seven micro-operations (spec/40_sequencer_program.md R112 to R120) as the sequencer executes them
at its `pc` (R110). The side-set and the operation happen in one step (R110). Every one is defined on every state (R122). -/

namespace Sys2Proof.Machine

/-- `FETCH` (R112). -/
def execFetch (ss : SideSet) (s : State) : Host.Outcome State Fault Refusal :=
  .next (s.onBlock fun u => (u.fetchQueue.sideSet ss).advance)

/-- `LATCH` (R113): `X <- SCR`. -/
def execLatch (ss : SideSet) (s : State) : Host.Outcome State Fault Refusal :=
  .next (s.onBlock fun u => ((u.move .x .scr).sideSet ss).advance)

/-- `RELOAD` (R114): `Y <- PERIOD`. -/
def execReload (ss : SideSet) (s : State) : Host.Outcome State Fault Refusal :=
  .next (s.onBlock fun u => ((u.move .y .period).sideSet ss).advance)

/-- `COMPARE tgt` (R115): jump when `X != Y`. A target outside the program is a reserved word (R94). -/
def execCompare (tgt : BitVec 3) (ss : SideSet) (s : State) : Host.Outcome State Fault Refusal :=
  match target tgt with
  | some a => .next (s.onBlock fun u => (u.sideSet ss).branch u.thresholdMissed a)
  | none => .refused .reservedMicroWord

/-- `NOP` (R116). -/
def execNop (ss : SideSet) (s : State) : Host.Outcome State Fault Refusal :=
  .next (s.onBlock fun u => (u.sideSet ss).advance)

/-- `DECREMENT tgt` (R117): `Y <- Y - 1` with wrap, jump when the new `Y` is not 0. A target outside the program is a reserved word
(R94). -/
def execDecrement (tgt : BitVec 3) (ss : SideSet) (s : State) : Host.Outcome State Fault Refusal :=
  match target tgt with
  | some a => .next (s.onBlock fun u => ((u.put .y u.countedDown).sideSet ss).branch u.stillCounting a)
  | none => .refused .reservedMicroWord

/-- `LDPER` (R120): `PERIOD <- SCR`; `pc` is not touched. Assumption log 6. -/
def execLdper (ss : SideSet) (s : State) : Host.Outcome State Fault Refusal :=
  .next (s.onBlock fun u => u.loadPeriod.sideSet ss)

end Sys2Proof.Machine
end

