-- ==== Sys2Proof/Machine/Dispatch.lean ====
section
/-! DEFINITION. One arm per instruction. -/

namespace Sys2Proof.Machine

def exec (i : Instr) (s : State) : Host.Outcome State Fault Refusal :=
  match i with
  | .fetch ss => Sys2Proof.Machine.execFetch ss s
  | .latch ss => Sys2Proof.Machine.execLatch ss s
  | .reload ss => Sys2Proof.Machine.execReload ss s
  | .compare tgt ss => Sys2Proof.Machine.execCompare tgt ss s
  | .nop ss => Sys2Proof.Machine.execNop ss s
  | .decrement tgt ss => Sys2Proof.Machine.execDecrement tgt ss s
  | .ldper ss => Sys2Proof.Machine.execLdper ss s
  | .enqueue v => Sys2Proof.Machine.execEnqueue v s
  | .exec w => Sys2Proof.Machine.execExec w s
  | .activate => Sys2Proof.Machine.execActivate s

end Sys2Proof.Machine
end

