-- ==== Sys2Proof/Machine/Turns.lean ====
section
/-! DEFINITION. The two agents' turns (R13): the sequencer's step (R110), and the host's: a command (R53, R147), `set_duty` (R159) and
`initialize` (R160). -/

namespace Sys2Proof.Machine

/-- The sequencer of instance `id` has its turn (R110): while `run = 1` it reads the word at `pc`, decodes it and executes it; while
`run = 0` it takes no step of its own and the turn passes. -/
def seqTurn (id : Nat) (s : State) : Host.Outcome State Fault Refusal :=
  if id < Config.nSeq then
    if (s.blockAt id).run then
      match s.romRead (s.blockAt id).pc.val with
      | .error f => .fault f
      | .ok w =>
        match decodeMicro w with
        | .error _ => .refused .reservedMicroWord
        | .ok i => exec i (s.select id)
    else .next (s.select id)
  else .refused .noSuchSequencer

/-- The host writes the word `w` to the command port of instance `id` (R53, R93). -/
def commandTurn (id : Nat) (w : CommandWord) (s : State) : Host.Outcome State Fault Refusal :=
  if id < Config.nSeq then
    match decodeCommand w with
    | .error _ => .refused .reservedCommand
    | .ok i => exec i (s.addressed id)
  else .refused .noSuchSequencer

/-- `set_duty(value)` (R159): one `ENQUEUE` of the clamped request on the controller's instance. -/
def setDutyTurn (id : Nat) (value : Int) (s : State) : Host.Outcome State Fault Refusal :=
  match s.controllerAt id with
  | none => .refused .noController
  | some c => exec (.enqueue (encW (clamp value c.maxCount))) (s.addressed c.sequencerHandle)

/-- An instance in its reset state: not running and nothing sent to it (R165). -/
def Block.fresh (u : Block) : Bool := !u.run && !u.touched

/-- Steps 1 to 4 of `initialize` (R160), called by context `j`, in a system of `nSeq` sequencers and `nPin` pins. The violated
preconditions are refused (U5, U6, U10); the checks come in the order 1, 2, 3 (R207); a failed check changes nothing (R208); otherwise
the pin and the clock are bound (step 4) and the call goes on. Assumption log 11. -/
def initBegin (nSeq nPin j : Nat) (a : InitArgs) (s : State) : Host.Outcome State Fault Refusal :=
  if ¬(0 ≤ a.pin ∧ a.pin.toNat < nPin) then .refused .pinOutOfRange
  else if ¬(0 < a.countFrequency) then .refused .frequencyNotPositive
  else if ¬(0 ≤ a.sequencerId ∧ a.sequencerId.toNat < nSeq) then .next (s.raiseConfigError j .errSeqId)
  else if ¬(s.blockAt a.sequencerId.toNat).fresh then .refused .notFreshlyReset
  else if s.pinBoundAt a.pin.toNat then .next (s.raiseConfigError j .errPinBound)
  else if ¬(0 ≤ a.maxCount ∧ a.maxCount.toNat ≤ Config.maxCountLimit) then .next (s.raiseConfigError j .errMaxCount)
  else
    let calling := s.onContext j fun h => { h with call := some ⟨a.sequencerId.toNat, a.pin.toNat, a.maxCount.toNat, .enqueue⟩ }
    .next (((calling.bindPin a.pin.toNat).addressed a.sequencerId.toNat).onBlock fun u =>
      { u with cfgPin := a.pin.toNat, cfgClk := 2 * a.countFrequency.toNat })

/-- Steps 5 to 9 of `initialize` (R160), one a turn of the context `j` that called it: the four host commands, then the controller and
the result. -/
def initContinue (j : Nat) (c : InitCall) (s : State) : Host.Outcome State Fault Refusal :=
  match c.stage with
  | .enqueue => exec (.enqueue (encW c.maxCount)) ((s.reachStage j c .fetch).addressed c.sequencerId)
  | .fetch => exec (.exec 0x00) ((s.reachStage j c .ldper).addressed c.sequencerId)
  | .ldper => exec (.exec 0xC0) ((s.reachStage j c .activate).addressed c.sequencerId)
  | .activate => exec .activate ((s.reachStage j c .finish).addressed c.sequencerId)
  | .finish =>
    .next ((s.onContext j fun h => { h with call := none, result := some .success }).addController
      ⟨c.sequencerId, c.maxCount, c.pin⟩)

/-- The host begins an operation, in context `j`. -/
def hostOp (j : Nat) (op : HostOp) (s : State) : Host.Outcome State Fault Refusal :=
  match op with
  | .command id w => commandTurn id w s
  | .setDuty id value => setDutyTurn id value s
  | .initChannel a => initBegin Config.nSeq Config.nPin j a s

/-- The host has its turn in context `j` (R147): the context goes on with the call of `initialize` it is in, or begins its next operation,
or has nothing to do. What another context is in the middle of is no hindrance. -/
def hostTurn (j : Nat) (s : State) : Host.Outcome State Fault Refusal :=
  match (s.contextAt j).call with
  | some c => initContinue j c s
  | none =>
    match (s.contextAt j).ops with
    | [] => .next s
    | op :: rest => hostOp j op (s.onContext j fun h => { h with ops := rest })

/-- An agent has its turn (R13). -/
def turn (who : Agent) (s : State) : Host.Outcome State Fault Refusal :=
  match who with
  | .host j => hostTurn j s
  | .seq id => seqTurn id s

/-- The sequencer that comes after sequencer `id` in the rota. -/
def rotaNext (id : Nat) : Nat := if id + 1 < Config.nSeq then id + 1 else 0

/-- Whose turn it is: the head of the schedule; when the schedule has run out the sequencers take turns for ever, so that every one that
runs keeps stepping (R68, D28). Assumption log 3. -/
def State.turnOf (s : State) : Agent :=
  match s.schedule with
  | [] => .seq (rotaNext s.sel)
  | who :: _ => who

/-- One step of the system: the agent whose turn it is has it. -/
def systemStep (s : State) : Host.Outcome State Fault Refusal := turn s.turnOf s.turnUsed

/-- Where a micro-instruction is placed so that the next step runs it: in program space at the selected sequencer's `pc`, with that
sequencer running and next to move. Assumption log 14. -/
def State.placeMicro (s : State) (w : Byte) : State :=
  let t := s.onBlock fun u => { u with run := true }
  { t with prog := Memory.write s.prog s.block.pc.val w, schedule := .seq s.sel :: s.schedule }

/-- Where a host command is placed so that the next step runs it: at the head of what the host's thread does, with the thread next to
move and in no call. Assumption log 14. -/
def State.placeCommand (s : State) (c : CommandWord) : State :=
  { s.onContext 0 (fun h => { h with ops := .command s.sel c :: h.ops, call := none }) with schedule := .host 0 :: s.schedule }

end Sys2Proof.Machine
end

