-- ==== Sys2Proof/Machine/Step.lean ====
section
/-! DEFINITION. The step of the machine. -/

namespace Sys2Proof.Machine

/-- One step: `systemStep`. -/
def step (s : State) : Host.Outcome State Fault Refusal := systemStep s

/-- The state `s` with the instruction of `nbits` bits and value `w` placed where the next step takes it: up to 8 bits a micro-instruction
at the selected sequencer's `pc`, above that a host command at the head of the host's program. -/
def State.withFetchWord (s : State) (nbits w : Nat) : State :=
  if nbits ≤ 8 then s.placeMicro (BitVec.ofNat 8 w) else s.placeCommand (BitVec.ofNat 34 w)

end Sys2Proof.Machine
end

