-- ==== Sys2Proof/Machine/Assembler.lean ====
section
/-! DEFINITION. The assembler spelling of instructions, written and read, and of the sequencer's states (spec/30_encoding.md R97, R98;
spec/40_sequencer_program.md R124). No rule of the machine reads it. -/

namespace Sys2Proof.Machine

/-- The states of the program seen as a state machine (R26, R124). -/
inductive SeqState where
  /-- `pc = 0` -/
  | FETCH
  /-- `pc = 1` -/
  | LATCH
  /-- `pc = 2` -/
  | RELOAD
  /-- `pc = 3` -/
  | COMPARE
  /-- `pc = 4` -/
  | SET_HIGH
  /-- `pc = 5` -/
  | DECREMENT
  deriving DecidableEq, Repr

/-- Because the program is fixed, `pc` and the state are the same information (R26). -/
def SeqState.ofPc (pc : Fin 6) : SeqState :=
  match pc.val with
  | 0 => .FETCH
  | 1 => .LATCH
  | 2 => .RELOAD
  | 3 => .COMPARE
  | 4 => .SET_HIGH
  | _ => .DECREMENT

/-- One hexadecimal digit, capitals. -/
def hexDigit (n : Nat) : String :=
  match n % 16 with
  | 0 => "0" | 1 => "1" | 2 => "2" | 3 => "3" | 4 => "4" | 5 => "5" | 6 => "6" | 7 => "7"
  | 8 => "8" | 9 => "9" | 10 => "A" | 11 => "B" | 12 => "C" | 13 => "D" | 14 => "E" | _ => "F"

/-- The low `digits` hexadecimal digits of a number, the most significant first. -/
def hexDigits : Nat → Nat → String
  | 0, _ => ""
  | d + 1, n => hexDigits d (n / 16) ++ hexDigit n

/-- The `side` clause (R97). -/
def asmSideSet : SideSet → String
  | none => ""
  | some false => " side 0"
  | some true => " side 1"

/-- A jump target, one decimal digit (R97). -/
def asmTarget (tgt : BitVec 3) : String := " " ++ hexDigit tgt.toNat

/-- A micro-instruction as `<mnemonic> [<tgt>] [side <0|1>]` (R97). -/
def asmMicro : Instr → String
  | .fetch ss => "FETCH" ++ asmSideSet ss
  | .latch ss => "LATCH" ++ asmSideSet ss
  | .reload ss => "RELOAD" ++ asmSideSet ss
  | .compare tgt ss => "COMPARE" ++ asmTarget tgt ++ asmSideSet ss
  | .nop ss => "NOP" ++ asmSideSet ss
  | .decrement tgt ss => "DECREMENT" ++ asmTarget tgt ++ asmSideSet ss
  | .ldper ss => "LDPER" ++ asmSideSet ss
  | .enqueue _ => ""
  | .exec _ => ""
  | .activate => ""

/-- An instruction as R97 and R98 spell it; an `EXEC` of a reserved word has no spelling. -/
def asm : Instr → Option String
  | .enqueue v => some ("ENQUEUE 0x" ++ hexDigits 8 v.toNat)
  | .exec i => (decodeMicro i).toOption.map fun op => "EXEC " ++ asmMicro op
  | .activate => some "ACTIVATE"
  | .fetch ss => some (asmMicro (.fetch ss))
  | .latch ss => some (asmMicro (.latch ss))
  | .reload ss => some (asmMicro (.reload ss))
  | .compare tgt ss => some (asmMicro (.compare tgt ss))
  | .nop ss => some (asmMicro (.nop ss))
  | .decrement tgt ss => some (asmMicro (.decrement tgt ss))
  | .ldper ss => some (asmMicro (.ldper ss))

/-- A host command with the `sm<id>.` that names its instance (R98). -/
def asmAt (id : Nat) (i : Instr) : Option String := (asm i).map fun line => "sm" ++ toString id ++ "." ++ line

/-! Reading the same syntax, a line given as its words. -/

/-- The `side` clause (R97). -/
def parseSideSet : List String → Option SideSet
  | [] => some none
  | ["side", "0"] => some (some false)
  | ["side", "1"] => some (some true)
  | _ => none

/-- A jump target, a decimal program address (R97). -/
def parseTarget : String → Option (BitVec 3)
  | "0" => some 0
  | "1" => some 1
  | "2" => some 2
  | "3" => some 3
  | "4" => some 4
  | "5" => some 5
  | _ => none

/-- A micro-instruction (R97); `SET_HIGH` is another spelling of `NOP side 1`. -/
def parseMicro : List String → Option Instr
  | ["SET_HIGH"] => some (.nop (some true))
  | "FETCH" :: ss => (parseSideSet ss).map .fetch
  | "LATCH" :: ss => (parseSideSet ss).map .latch
  | "RELOAD" :: ss => (parseSideSet ss).map .reload
  | "NOP" :: ss => (parseSideSet ss).map .nop
  | "LDPER" :: ss => (parseSideSet ss).map .ldper
  | "COMPARE" :: tgt :: ss => (parseTarget tgt).bind fun a => (parseSideSet ss).map (.compare a)
  | "DECREMENT" :: tgt :: ss => (parseTarget tgt).bind fun a => (parseSideSet ss).map (.decrement a)
  | _ => none

/-- The value of a digit, decimal or hexadecimal. -/
def digitValue (c : Char) : Option Nat :=
  if 48 ≤ c.toNat ∧ c.toNat ≤ 57 then some (c.toNat - 48)
  else if 65 ≤ c.toNat ∧ c.toNat ≤ 70 then some (c.toNat - 55)
  else if 97 ≤ c.toNat ∧ c.toNat ≤ 102 then some (c.toNat - 87)
  else none

/-- A row of digits read after the value `n`. -/
def numeral (base : Nat) : List Char → Nat → Option Nat
  | [], n => some n
  | c :: cs, n =>
    match digitValue c with
    | none => none
    | some d => if d < base then numeral base cs (base * n + d) else none

/-- A number in decimal or in `0x` hexadecimal (R98). -/
def parseValue (text : List Char) : Option Nat :=
  match text with
  | [] => none
  | '0' :: 'x' :: c :: cs => numeral 16 (c :: cs) 0
  | c :: cs => numeral 10 (c :: cs) 0

/-- A host command (R98). -/
def parseCommand : List String → Option Instr
  | ["ENQUEUE", v] => (parseValue v.toList).bind fun n => if n < 2 ^ 32 then some (.enqueue (BitVec.ofNat 32 n)) else none
  | "EXEC" :: words => (parseMicro words).bind fun op =>
    match encode op with
    | .micro w => some (.exec w)
    | .command _ => none
  | ["ACTIVATE"] => some .activate
  | _ => none

end Sys2Proof.Machine
end

