-- ==== Sys2Proof/Safety.lean ====
section
/-! DEFINITION. The terms claims are made in: reset states with every draw of the unspecified registers, what a step leaves alone, the
invariants, the waveform and what is observed of it. -/

namespace Sys2Proof.Machine

/-! ### Reset states -/

/-- An instance in some reset state (R38): the registers that R39 to R41 leave unspecified hold anything. -/
def Block.AtReset (u : Block) : Prop :=
  u.run = false ∧ u.pc = 0 ∧ u.tqValid = false ∧ u.pin = false ∧ u.touched = false

/-- The system in some reset state (R38, R230): every instance reset with a draw of its own, no pin bound, no controller, the fixed
program, no call of `initialize` made. What the host will do and the schedule are free. -/
def State.AtReset (s : State) : Prop :=
  (∀ k, (s.blockAt k).AtReset) ∧ (∀ p, s.pinBoundAt p = false) ∧ (∀ k, s.controllerAt k = none) ∧ s.prog = [] ∧
    ∀ j, (s.contextAt j).call = none ∧ (s.contextAt j).result = none

/-! ### Frames -/

/-- From `s` to `t` nothing outside the instance the step acts on has changed. -/
def SameButBlock (s t : State) : Prop :=
  t.sel = s.sel ∧ (∀ k, k ≠ s.sel → t.blockAt k = s.blockAt k) ∧ t.prog = s.prog ∧ t.pinBound = s.pinBound ∧
    t.controllers = s.controllers ∧ t.contexts = s.contexts ∧ t.schedule = s.schedule

/-- In the state `s` the instruction `i` completes: it answers a next state, in which the instance the step acts on is `f` of what it was
and nothing else has changed. -/
def CompletesWith (i : Instr) (s : State) (f : Block → Block) : Prop :=
  ∃ t, exec i s = .next t ∧ t.block = f s.block ∧ SameButBlock s t

/-- The instruction `i` is refused in the state `s`, under the name `r`. -/
def RefusedAs (i : Instr) (s : State) (r : Refusal) : Prop := exec i s = .refused r

/-! ### The waveform (spec/43_output_waveform.md) -/

/-- The threshold the period that begins now will have: the pending value, or `X` when the queue is empty (R112, R113). -/
def Block.nextThreshold (u : Block) : Word := if u.tqValid then u.tqData else u.x

/-- `hi(M, T)`, the number of HIGH count steps of a period (R179). -/
def hi (M T : Nat) : Nat := if 1 ≤ T ∧ T ≤ M then T else 0

/-- The number of sequencer steps of a period (R180). -/
def periodLength (M T : Nat) : Nat := if 1 ≤ T ∧ T ≤ M then 2 * M + 4 else 2 * M + 3

/-- The number of sequencer steps of a period that leave the pin HIGH (R180). -/
def highSteps (M T : Nat) : Nat := 2 * hi M T

/-- The pin levels after the steps of a period of length `M` with threshold `T` (R179, R180): LOW, then HIGH for the last `2 hi(M, T)`. -/
def periodWave (M T : Nat) : List Bool :=
  List.replicate (periodLength M T - highSteps M T) false ++ List.replicate (highSteps M T) true

/-- `duty(M, T) = hi(M, T) / M`, the document's figure (R183). -/
def duty (M T : Nat) : Rat := hi M T / M

/-- The duty counted over the `M + 1` count steps (R183). -/
def countStepDuty (M T : Nat) : Rat := hi M T / (M + 1)

/-- The duty counted in instruction steps (R183). -/
def stepDuty (M T : Nat) : Rat := highSteps M T / periodLength M T

/-- `M, M - 1, ..., 1`. -/
def countdown : Nat → List Nat
  | 0 => []
  | n + 1 => (n + 1) :: countdown n

/-! ### What is observed of one instance (R176, R188)

An observation of instance `k` is made of the steps its own sequencer takes, whatever the host and the other sequencers do between them. -/

/-- One step of an instance's own sequencer: the instance before it and after it. -/
structure OwnStep where
  /-- the instance before the step -/
  before : Block
  /-- the instance after the step -/
  after : Block
  deriving DecidableEq, Repr

/-- The steps that the running sequencer of instance `k` takes among the next `n` steps of the system (R176). -/
def ownSteps (k : Nat) : Nat → State → List OwnStep
  | 0, _ => []
  | n + 1, s =>
    match step s with
    | .next t =>
      if s.turnOf = .seq k ∧ (s.blockAt k).run = true then ⟨s.blockAt k, t.blockAt k⟩ :: ownSteps k n t else ownSteps k n t
    | .fault _ => []
    | .refused _ => []

/-- The pin trace: the value of the pin after each of the sequencer's steps (R176). -/
def pinTrace (own : List OwnStep) : List Bool := own.map fun o => o.after.pin

/-- The level after each count step that ends in `own`: after `RELOAD` (`pc = 2`, the end of the preamble) and after every `DECREMENT`
(`pc = 5`, the end of an inner iteration) (R178). -/
def countLevels (own : List OwnStep) : List Bool :=
  (own.filter fun o => o.before.pc = 2 ∨ o.before.pc = 5).map fun o => o.after.pin

/-- The values of `Y` at the `COMPARE` steps (`pc = 3`) of `own` (R177). -/
def comparedAt (own : List OwnStep) : List Nat := (own.filter fun o => o.before.pc = 3).map fun o => o.before.y.toNat

/-- How often `X` and `Y` were found equal: the steps of `own` at `SET_HIGH` (`pc = 4`) (R177). -/
def matchCount (own : List OwnStep) : Nat := own.countP fun o => o.before.pc = 4

/-- The thresholds `T_1, T_2, ...` of successive periods (R188): the value of `X` after each `LATCH` (`pc = 1`) of `own`. -/
def thresholds (own : List OwnStep) : List Word := (own.filter fun o => o.before.pc = 1).map fun o => o.after.x

/-- The sequence `hi(M, T_1), hi(M, T_2), ...` that is observed beside the thresholds (R188). -/
def highCounts (M : Nat) (own : List OwnStep) : List Nat := (thresholds own).map fun T => hi M T.toNat

/-- The period that `own` begins with: its steps up to the one after which `pc = 0` again (R176), all of them when none is. -/
def firstPeriod : List OwnStep → List OwnStep
  | [] => []
  | o :: own => if o.after.pc = 0 then [o] else o :: firstPeriod own

/-- The period that `own` begins with has ended (R176). -/
def PeriodEnds (own : List OwnStep) : Prop := ∃ o ∈ own, o.after.pc = 0

/-- A period of instance `k` begins with the next step (R176): its sequencer runs the fixed program, stands at `FETCH` and has its turn. What
comes after is open. -/
def PeriodBegins (k : Nat) (s : State) : Prop :=
  k < Config.nSeq ∧ s.prog = [] ∧ (s.blockAt k).run = true ∧ (s.blockAt k).pc = 0 ∧ s.turnOf = .seq k

/-! ### Infinite executions (R13, R68, D28) -/

/-- An infinite execution: `who n` is the agent that takes step `n`, chosen from outside (R13), and `asks n` are the operations the host
decides on just before it. So the host may issue commands for ever, any finite number of them between two sequencer steps (R68, R147,
R252). `asks` is the model's way to say it, because the lists of a State are finite: DESIGN CHOICE, assumption log 3. -/
def Execution (who : Nat → Agent) (asks : Nat → List (Nat × HostOp)) (e : Nat → State) : Prop :=
  ∀ n, turn (who n) ((e n).asked (asks n)) = .next (e (n + 1))

/-- Weak fairness for the running sequencers (R68, R252, D28): from any moment at which a sequencer runs, it steps again. A running sequencer
is always able to step and runs for ever, so this is all that weak fairness says. -/
def WeaklyFair (who : Nat → Agent) (e : Nat → State) : Prop :=
  ∀ k n, k < Config.nSeq → ((e n).blockAt k).run = true → ∃ m, n ≤ m ∧ who m = .seq k

/-- A run of `n` steps that meets no fault and no refusal. -/
def SafeRun (n : Nat) (s : State) : Prop := ∀ m ≤ n, ∃ t, core.run m s = .next t

/-- A rising edge of instance `k` (R175). -/
def RisingEdge (k : Nat) (s t : State) : Prop := (s.blockAt k).pin = false ∧ (t.blockAt k).pin = true

/-- A falling edge of instance `k` (R175). -/
def FallingEdge (k : Nat) (s t : State) : Prop := (s.blockAt k).pin = true ∧ (t.blockAt k).pin = false

/-- The level of the physical pin `p`, when a controller is bound to it: the pin of the instance whose `cfg_pin` it is (R31, R175). -/
def Block.drives (u : Block) (p : Nat) : Option Bool := if u.cfgPin = p then some u.pin else none

/-! ### The fixed program as a state machine (R27, R124) -/

/-- One transition of the state machine of R124, with what each state does, written without the program's encodings. -/
def Block.machineStep (u : Block) : Block :=
  match SeqState.ofPc u.pc with
  | .FETCH => { u with scr := u.nextThreshold, tqValid := false, pin := false, pc := 1 }
  | .LATCH => { u with x := u.scr, pc := 2 }
  | .RELOAD => { u with y := u.period, pc := 3 }
  | .COMPARE => { u with pc := if u.x = u.y then 4 else 5 }
  | .SET_HIGH => { u with pin := true, pc := 5 }
  | .DECREMENT => { u with y := u.y - 1, pc := if u.y - 1 = 0 then 0 else 3 }

/-! ### Invariants -/

/-- The invariant of one instance (R35 (iii) and (v), R211): it stands at `pc = 0` until it runs; the pin is HIGH only at the states
DECREMENT, COMPARE and FETCH; and, with a period that is not 0, the counter is in `[1, PERIOD]` during the countdown, SET_HIGH is the state
of equality, and the pin is HIGH only from the match on. -/
def Block.PhaseOk (u : Block) : Prop :=
  (u.run = false → u.pc = 0) ∧
  (u.pin = true → u.pc = 5 ∨ u.pc = 3 ∨ u.pc = 0 ∨ u.period = 0) ∧
  (u.period ≠ 0 → (u.pc = 3 ∨ u.pc = 4 ∨ u.pc = 5) → 1 ≤ u.y.toNat ∧ u.y.toNat ≤ u.period.toNat) ∧
  (u.pc = 4 → u.x = u.y) ∧
  (u.period ≠ 0 → u.pin = true → u.pc = 3 → u.y.toNat < u.x.toNat) ∧
  (u.period ≠ 0 → u.pin = true → u.pc = 5 → u.y.toNat ≤ u.x.toNat)

/-- Program space holds the fixed image (R88) and every instance is as `Block.PhaseOk` says. -/
def PhaseInv (s : State) : Prop := s.prog = [] ∧ ∀ k, (s.blockAt k).PhaseOk

/-- What has been done when a call of `initialize` has come to a stage (R160). -/
def InitCall.Reached (c : InitCall) (u : Block) : Prop :=
  match c.stage with
  | .enqueue => u.run = false
  | .fetch => u.run = false ∧ u.tqValid = true ∧ u.tqData = BitVec.ofNat 32 c.maxCount
  | .ldper => u.run = false ∧ u.scr = BitVec.ofNat 32 c.maxCount
  | .activate => u.run = false ∧ u.period = BitVec.ofNat 32 c.maxCount
  | .finish => u.run = true ∧ u.period = BitVec.ofNat 32 c.maxCount

/-- Every controller owns a running instance whose Period Register holds its `max_count` (R21, R35 (i), R158) and whose pin is bound to it
and to no other (R32, R33, R202). -/
def ControllersOk (s : State) : Prop :=
  (∀ k c, s.controllerAt k = some c → c.sequencerHandle = k ∧ c.maxCount ≤ Config.maxCountLimit ∧ (s.blockAt k).run = true ∧
    (s.blockAt k).touched = true ∧ (s.blockAt k).period = BitVec.ofNat 32 c.maxCount ∧ (s.blockAt k).cfgPin = c.pinBinding ∧
    s.pinBoundAt c.pinBinding = true) ∧
  (∀ j k c d, s.controllerAt j = some c → s.controllerAt k = some d → c.pinBinding = d.pinBinding → j = k)

/-- The context has yet to write a command word of its own to instance `k`. -/
def HostContext.commands (h : HostContext) (k : Nat) : Prop := ∃ w, HostOp.command k w ∈ h.ops

/-- The context is initialising instance `k` or has yet to. -/
def HostContext.initialises (h : HostContext) (k : Nat) : Prop :=
  (∃ c, h.call = some c ∧ c.sequencerId = k) ∨ ∃ a : InitArgs, HostOp.initChannel a ∈ h.ops ∧ a.sequencerId = k

/-- The host keeps to R160 and R242: no command word of another context goes to an instance that some context initialises. -/
def PrimingUndisturbed (s : State) : Prop :=
  ∀ i j k, i ≠ j → (s.contextAt i).initialises k → ¬(s.contextAt j).commands k

/-- A call in progress concerns an instance that no controller owns, has bound a pin that is nobody else's, and has done what R160 says; two
calls in progress concern two instances and two pins. -/
def CallOk (s : State) : Prop :=
  (∀ j c, (s.contextAt j).call = some c → s.controllerAt c.sequencerId = none ∧ c.maxCount ≤ Config.maxCountLimit ∧
    (s.blockAt c.sequencerId).touched = true ∧ (s.blockAt c.sequencerId).cfgPin = c.pin ∧ s.pinBoundAt c.pin = true ∧
    c.Reached (s.blockAt c.sequencerId) ∧ ∀ k d, s.controllerAt k = some d → d.pinBinding ≠ c.pin) ∧
  (∀ i j c d, i ≠ j → (s.contextAt i).call = some c → (s.contextAt j).call = some d → c.sequencerId ≠ d.sequencerId ∧ c.pin ≠ d.pin)

/-- The invariant behind "`PERIOD = M`" (R35 (i)), for a host that keeps to R160. -/
def ChannelInv (s : State) : Prop := s.prog = [] ∧ ControllersOk s ∧ CallOk s ∧ PrimingUndisturbed s

/-- A value that `set_duty` can deliver: the off sentinel or at most `max_count` (R23, R187). -/
def LegalThreshold (M : Nat) (v : Word) : Prop := v.toNat = 2 ^ 32 - 1 ∨ v.toNat ≤ M

/-- The host goes on to reach instance `k` through its controller alone: no command word of its own, no `initialize` under way there. -/
def ThroughController (k : Nat) (s : State) : Prop :=
  ∀ j, ¬(s.contextAt j).commands k ∧ ∀ c, (s.contextAt j).call = some c → c.sequencerId ≠ k

/-- What the registers `X` and `SCR` of instance `k` hold while the host reaches it through its controller with the bound `M` (R187): a
value `set_duty` can deliver, or the value `x0` that `X` held at first; and the queue holds only a value `set_duty` can deliver. -/
def ThresholdInv (k M : Nat) (x0 : Word) (s : State) : Prop :=
  s.prog = [] ∧ (s.blockAt k).run = true ∧ ThroughController k s ∧ (∀ j c, s.controllerAt j = some c → c.sequencerHandle = j) ∧
    (∀ c, s.controllerAt k = some c → c.maxCount = M) ∧
    (LegalThreshold M (s.blockAt k).x ∨ (s.blockAt k).x = x0) ∧ (LegalThreshold M (s.blockAt k).scr ∨ (s.blockAt k).scr = x0) ∧
    ((s.blockAt k).tqValid = true → LegalThreshold M (s.blockAt k).tqData)

end Sys2Proof.Machine
end

