-- ==== Sys2Proof/Certificates/Slice0/Obligations.lean ====
section
/-! DEFINITION. The statements for the provers, from the numbered rules of spec/. -/

open Sys2Proof Sys2Proof.Machine

/-! ### Encoding (spec/30_encoding.md) -/

/-- R86, R93: the decoder gives back every well-formed instruction from its encoding, with every operand at every value. -/
def Obligations.DecodeOfEncode : Prop :=
  ∀ i : Instr, i.wellFormed = true → decode (encode i) = .ok i

/-- R85, R94, R95: whatever decodes is well formed and is the encoding of what it decodes to, so each word that is not reserved has one
meaning and no bit of it is ignored. -/
def Obligations.EncodeOfDecode : Prop :=
  ∀ (c : Code) (i : Instr), decode c = .ok i → i.wellFormed = true ∧ encode i = c

/-- R85: a format-M word decodes exactly when the four conditions hold on its fields, and 51 of the 256 words do. -/
def Obligations.MicroWordDecodesIffWellFormed : Prop :=
  (∀ w : Byte, (∃ i, decodeMicro w = .ok i) ↔
    (opField w ≠ 7 ∧ (w.getLsbD 4 = false → w.getLsbD 3 = false) ∧ (opField w ≠ 3 ∧ opField w ≠ 5 → tgtField w = 0) ∧
      (opField w = 3 ∨ opField w = 5 → (tgtField w).toNat ≤ 5))) ∧
  ((List.range 256).filter fun n => (decodeMicro (BitVec.ofNat 8 n)).toOption.isSome).length = 51

/-- R95: a format-H word is refused by the decoder exactly when `cmd = 0b11`, or it is an `EXEC` with `data[31:8]` not 0 or with a reserved
instruction word, or an `ACTIVATE` with `data` not 0. -/
def Obligations.CommandWordReservedIff : Prop :=
  ∀ c : CommandWord, (∃ e, decodeCommand c = .error e) ↔
    (cmdField c = 3 ∨ (cmdField c = 1 ∧ (dataField c).extractLsb' 8 24 ≠ 0) ∨
      (cmdField c = 1 ∧ ∃ e, decodeMicro ((dataField c).extractLsb' 0 8) = .error e) ∨ (cmdField c = 2 ∧ dataField c ≠ 0))

/-- R87, R93: the eight micro-instruction words the system uses and the example command words decode to the instructions the spec writes
beside them. -/
def Obligations.SpecWordsDecode : Prop :=
  decodeMicro 0x10 = .ok (.fetch (some false)) ∧ decodeMicro 0x20 = .ok (.latch none) ∧ decodeMicro 0x40 = .ok (.reload none) ∧
    decodeMicro 0x65 = .ok (.compare 5 none) ∧ decodeMicro 0x98 = .ok (.nop (some true)) ∧
    decodeMicro 0xA3 = .ok (.decrement 3 none) ∧ decodeMicro 0x00 = .ok (.fetch none) ∧ decodeMicro 0xC0 = .ok (.ldper none) ∧
    decodeCommand 0x00000FFFF = .ok (.enqueue 0x0000FFFF) ∧ decodeCommand 0x0FFFFFFFF = .ok (.enqueue 0xFFFFFFFF) ∧
    decodeCommand 0x100000000 = .ok (.exec 0x00) ∧ decodeCommand 0x1000000C0 = .ok (.exec 0xC0) ∧
    decodeCommand 0x200000000 = .ok .activate

/-! ### State (spec/10_state.md), program space (spec/20_memory.md) -/

/-- R20: four data registers of `W = 32` bits, `x[0]` to `x[3]` are `PERIOD`, `X`, `Y`, `SCR`; each holds what is written to it (none is
hardwired) and a write of one changes no other (no two alias). -/
def Obligations.RegistersHoldAndDoNotAlias : Prop :=
  (Reg.ofIndex 0 = .period ∧ Reg.ofIndex 1 = .x ∧ Reg.ofIndex 2 = .y ∧ Reg.ofIndex 3 = .scr) ∧
  (∀ u : Block, u.get .period = u.period ∧ u.get .x = u.x ∧ u.get .y = u.y ∧ u.get .scr = u.scr) ∧
  ∀ (u : Block) (r q : Reg) (v : BitVec 32), (u.put r v).get q = if q = r then v else u.get q

/-- R38: after reset `run = 0`, `pc = 0`, `tq_valid = 0`, `pin = 0` in every instance, no pin is bound and no controller exists. -/
def Obligations.ResetLeaves : Prop :=
  (∀ k, (State.reset.blockAt k).run = false ∧ (State.reset.blockAt k).pc = 0 ∧ (State.reset.blockAt k).tqValid = false ∧
    (State.reset.blockAt k).pin = false) ∧
  (∀ p, State.reset.pinBoundAt p = false) ∧ (∀ k, State.reset.controllerAt k = none)

/-- R88: program space holds the six words of the fixed program after reset, no step of either agent changes it, and a read of any other
address is a fault (log 16). -/
def Obligations.ProgramSpaceIsFixed : Prop :=
  (∀ s : State, s.prog = State.reset.prog →
    s.romRead 0 = .ok 0x10 ∧ s.romRead 1 = .ok 0x20 ∧ s.romRead 2 = .ok 0x40 ∧ s.romRead 3 = .ok 0x65 ∧ s.romRead 4 = .ok 0x98 ∧
      s.romRead 5 = .ok 0xA3 ∧ ∀ a, 6 ≤ a → s.romRead a = .error (.noSuchProgramWord a)) ∧
  ∀ s t : State, step s = .next t → t.prog = s.prog

/-! ### The micro-operations (spec/40_sequencer_program.md) -/

/-- R112, R57: `FETCH` puts the pending value in `SCR`, or `X` when the queue is empty, clears `tq_valid`, applies its side-set whatever it
finds, and advances `pc`; nothing else changes. -/
def Obligations.FetchTakesPendingOrThreshold : Prop :=
  ∀ (ss : SideSet) (s : State), CompletesWith (.fetch ss) s fun u =>
    { u with scr := if u.tqValid then u.tqData else u.x, tqValid := false, pin := ss.getD u.pin, pc := u.pc + 1 }

/-- R113: `LATCH` copies `SCR` to `X`, applies its side-set and advances `pc`; nothing else changes. -/
def Obligations.LatchCopiesScratchToThreshold : Prop :=
  ∀ (ss : SideSet) (s : State), CompletesWith (.latch ss) s fun u =>
    { u with x := u.scr, pin := ss.getD u.pin, pc := u.pc + 1 }

/-- R114: `RELOAD` copies `PERIOD` to `Y`, applies its side-set and advances `pc`, and nothing else changes; its word is `0x40`, at program
address 2; as a one-shot instruction it is refused. -/
def Obligations.ReloadCopiesPeriodToCounter : Prop :=
  (∀ (ss : SideSet) (s : State), CompletesWith (.reload ss) s fun u =>
    { u with y := u.period, pin := ss.getD u.pin, pc := u.pc + 1 }) ∧
  (encode (.reload none) = .micro 0x40 ∧ State.reset.romRead 2 = .ok 0x40) ∧
  ∀ (ss : SideSet) (w : Byte) (s : State), encode (.reload ss) = .micro w → RefusedAs (.exec w) s .execNotAdmitted

/-- R115: `COMPARE tgt` jumps to `tgt` exactly when `X` and `Y` differ in some of their 32 bits, else advances `pc`; it writes nothing but
`pc` and its side-set; with a target outside the program it is reserved and refused; its word is `0x65` for `COMPARE 5`, at address 3; as
a one-shot instruction it is refused. -/
def Obligations.CompareJumpsWhenDifferent : Prop :=
  (∀ (tgt : BitVec 3) (ss : SideSet) (s : State) (h : tgt.toNat < 6), CompletesWith (.compare tgt ss) s fun u =>
    { u with pin := ss.getD u.pin, pc := if u.x = u.y then u.pc + 1 else ⟨tgt.toNat, h⟩ }) ∧
  (∀ (tgt : BitVec 3) (ss : SideSet) (s : State), 6 ≤ tgt.toNat → RefusedAs (.compare tgt ss) s .reservedMicroWord) ∧
  (encode (.compare 5 none) = .micro 0x65 ∧ State.reset.romRead 3 = .ok 0x65) ∧
  ∀ (tgt : BitVec 3) (ss : SideSet) (w : Byte) (s : State), tgt.toNat < 6 → encode (.compare tgt ss) = .micro w →
    RefusedAs (.exec w) s .execNotAdmitted

/-- R116: `NOP` has no effect but its side-set and the advance of `pc`, so a pin that is HIGH stays HIGH under `side 1`; its word is `0x98`
for `NOP side 1`, at address 4; as a one-shot instruction it is refused. -/
def Obligations.NopOnlyCarriesSideSet : Prop :=
  (∀ (ss : SideSet) (s : State), CompletesWith (.nop ss) s fun u => { u with pin := ss.getD u.pin, pc := u.pc + 1 }) ∧
  (encode (.nop (some true)) = .micro 0x98 ∧ State.reset.romRead 4 = .ok 0x98) ∧
  ∀ (ss : SideSet) (w : Byte) (s : State), encode (.nop ss) = .micro w → RefusedAs (.exec w) s .execNotAdmitted

/-- R117: `DECREMENT tgt` writes `Y - 1` (so `2^32 - 1` from 0) to `Y` and jumps to `tgt` exactly when that result is not 0 (`Y` was not 1), else
advances `pc` modulo 6; with a target outside the program it is reserved and refused; its word is `0xA3` for `DECREMENT 3`, at address 5; as a
one-shot instruction it is refused. -/
def Obligations.DecrementCountsAndTestsResult : Prop :=
  (∀ (tgt : BitVec 3) (ss : SideSet) (s : State) (h : tgt.toNat < 6), CompletesWith (.decrement tgt ss) s fun u =>
    { u with y := u.y - 1, pin := ss.getD u.pin, pc := if u.y.toNat = 1 then u.pc + 1 else ⟨tgt.toNat, h⟩ }) ∧
  (∀ y : Word, (y - 1).toNat = if y.toNat = 0 then 2 ^ 32 - 1 else y.toNat - 1) ∧
  (∀ (tgt : BitVec 3) (ss : SideSet) (s : State), 6 ≤ tgt.toNat → RefusedAs (.decrement tgt ss) s .reservedMicroWord) ∧
  (encode (.decrement 3 none) = .micro 0xA3 ∧ State.reset.romRead 5 = .ok 0xA3 ∧ (5 : Fin 6) + 1 = 0) ∧
  ∀ (tgt : BitVec 3) (ss : SideSet) (w : Byte) (s : State), tgt.toNat < 6 → encode (.decrement tgt ss) = .micro w →
    RefusedAs (.exec w) s .execNotAdmitted

/-- R120: `LDPER` copies `SCR` to `PERIOD` and applies its side-set; `pc` and everything else are untouched. -/
def Obligations.LdperCopiesScratchToPeriod : Prop :=
  ∀ (ss : SideSet) (s : State), CompletesWith (.ldper ss) s fun u => { u with period := u.scr, pin := ss.getD u.pin }

/-! ### The host commands (spec/41_host_commands.md) -/

/-- R140: `ENQUEUE v` puts `v` in the slot and marks it pending, whether or not a value was pending, whether or not the sequencer runs and
whatever `v` is; nothing else changes; its word is `v` itself as a 34-bit number. -/
def Obligations.EnqueueReplacesPending : Prop :=
  (∀ (v : Word) (s : State), CompletesWith (.enqueue v) s fun u => { u with tqData := v, tqValid := true }) ∧
  ∀ v : Word, (encode (.enqueue v)).toNat = v.toNat

/-- R143: while `run = 0`, `EXEC` of a `FETCH` word fetches once without touching `pc`; with a side-set it also drives the pin; it never
waits, even on an empty queue. -/
def Obligations.ExecFetchOnce : Prop :=
  ∀ (i : Byte) (ss : SideSet) (s : State), decodeMicro i = .ok (.fetch ss) → s.block.run = false →
    CompletesWith (.exec i) s fun u =>
      { u with scr := if u.tqValid then u.tqData else u.x, tqValid := false, pin := ss.getD u.pin }

/-- R145: the command word `0x1000000C0` is `EXEC LDPER`, with no side-set; while `run = 0`, `EXEC` of an `LDPER` word copies `SCR` to `PERIOD`,
applies the word's side-set and changes nothing else; and after `ENQUEUE m; EXEC FETCH; EXEC LDPER` on an idle instance `PERIOD = SCR = m` and
the queue is empty. -/
def Obligations.ExecLdperOnce : Prop :=
  (decodeCommand 0x1000000C0 = .ok (.exec 0xC0) ∧ decodeMicro 0xC0 = .ok (.ldper none)) ∧
  (∀ (i : Byte) (ss : SideSet) (s : State), decodeMicro i = .ok (.ldper ss) → s.block.run = false →
    CompletesWith (.exec i) s fun u => { u with period := u.scr, pin := ss.getD u.pin }) ∧
  ∀ (m : Word) (s : State), s.block.run = false → ∃ t1 t2 t3, exec (.enqueue m) s = .next t1 ∧ exec (.exec 0x00) t1 = .next t2 ∧
    exec (.exec 0xC0) t2 = .next t3 ∧ t3.block = { s.block with period := m, scr := m, tqData := m, tqValid := false } ∧ SameButBlock s t3

/-- R144: `EXEC i` is admitted exactly when `run = 0` and the operation of `i` is `FETCH` or `LDPER`, with any side-set; otherwise it is
refused. -/
def Obligations.ExecAdmittedIff : Prop :=
  ∀ (i : Byte) (s : State),
    ((∃ t, exec (.exec i) s = .next t) ↔
      (s.block.run = false ∧ ∃ ss, decodeMicro i = .ok (.fetch ss) ∨ decodeMicro i = .ok (.ldper ss))) ∧
    ((∃ t, exec (.exec i) s = .next t) ∨ ∃ r, exec (.exec i) s = .refused r)

/-- R146: `ACTIVATE` sets `run`, has no effect when `run` is set already, and changes nothing else. -/
def Obligations.ActivateSetsRun : Prop :=
  ∀ s : State, (CompletesWith .activate s fun u => { u with run := true }) ∧
    (s.block.run = true → CompletesWith .activate s fun u => u)

/-! ### The step (R13, R110, R147) -/

/-- R110: when a running sequencer has its turn and the word at its `pc` decodes to `i`, the step is `i` executed by that sequencer, with the
turn used up; a reserved word there is refused (R94). The turn is the first of the schedule, which is used up with it; when the schedule has run
out it is the next sequencer's in rota (the model's choice, log 3). -/
def Obligations.StepRunsDecodedMicro : Prop :=
  (∀ (s : State) (k : Nat) (w : Byte), s.turnOf = .seq k → k < Config.nSeq → (s.blockAt k).run = true →
    s.romRead (s.blockAt k).pc.val = .ok w →
    (∀ i, decodeMicro w = .ok i → step s = exec i { s.turnUsed with sel := k }) ∧
    (∀ e, decodeMicro w = .error e → step s = .refused .reservedMicroWord)) ∧
  ∀ s : State, (∀ who rest, s.schedule = who :: rest → s.turnOf = who ∧ s.turnUsed = { s with schedule := rest }) ∧
    (s.schedule = [] → s.turnOf = .seq (rotaNext s.sel) ∧ s.turnUsed = s)

/-- R53, R93, R95, R147: when the host has its turn in a context `j` that is in no call and next writes the word `w` to the port of instance `k`,
the step is `i` executed on that instance when `w` decodes to `i`, and the step is refused when `w` is reserved; what the other contexts are in
the middle of does not matter. The instance counts from then on as touched (log 9); the turn and the operation are used up. -/
def Obligations.StepRunsHostCommand : Prop :=
  ∀ (s : State) (j k : Nat) (w : CommandWord) (ops : List HostOp) (rest : List Agent), s.schedule = .host j :: rest →
    (s.contextAt j).call = none → (s.contextAt j).ops = .command k w :: ops → k < Config.nSeq →
    (∀ i, decodeCommand w = .ok i →
      step s = exec i (({ s.onContext j (fun h => { h with ops := ops }) with schedule := rest, sel := k } : State).setBlock k
        { s.blockAt k with touched := true })) ∧
    (∀ e, decodeCommand w = .error e → step s = .refused .reservedCommand)

/-- Assumption log 4, the model's choice on R29 ("While `run = 0` the sequencer takes no step of its own"): the turn of an idle sequencer,
and the turn of a context of the host that has nothing to do, pass with nothing changed but whose turn it is. -/
def Obligations.IdleTurnsPass : Prop :=
  (∀ (s : State) (k : Nat), s.turnOf = .seq k → k < Config.nSeq → (s.blockAt k).run = false →
    step s = .next { s.turnUsed with sel := k }) ∧
  ∀ (s : State) (j : Nat) (rest : List Agent), s.schedule = .host j :: rest → (s.contextAt j).call = none → (s.contextAt j).ops = [] →
    step s = .next { s with schedule := rest }

/-- R12, R209, R26 (log 16): no step ends in a fault. -/
def Obligations.NoStepFaults : Prop :=
  ∀ (s : State) (f : Fault), step s ≠ .fault f

/-- R124, R27: on its turn a running sequencer with the fixed program takes exactly one transition of the state machine FETCH, LATCH, RELOAD,
COMPARE, SET_HIGH, DECREMENT, and nothing else changes but whose turn it is. -/
def Obligations.SequencerIsTheStateMachine : Prop :=
  ∀ (s : State) (k : Nat), s.turnOf = .seq k → k < Config.nSeq → s.prog = [] → (s.blockAt k).run = true →
    ∃ t, step s = .next t ∧ t.blockAt k = (s.blockAt k).machineStep ∧
      SameButBlock { s.turnUsed with sel := k } t

/-! ### Rules of the whole machine -/

/-- R216: a step changes at most the one instance it acts on. -/
def Obligations.StepTouchesOneInstance : Prop :=
  ∀ (s t : State) (k : Nat), step s = .next t → k ≠ t.sel → t.blockAt k = s.blockAt k

/-- R216: what a sequencer does depends on program space and on its own instance alone. -/
def Obligations.SequencerReadsOnlyItsInstance : Prop :=
  ∀ (s1 s2 t1 : State) (k : Nat), s1.prog = s2.prog → s1.blockAt k = s2.blockAt k → seqTurn k s1 = .next t1 →
    ∃ t2, seqTurn k s2 = .next t2 ∧ t2.blockAt k = t1.blockAt k

/-- R29, R21, R22, R35 (iv): nothing clears `run`; with the fixed program `PERIOD` never changes once the sequencer runs, and `X` changes only in
a step of its own running sequencer at `pc = 1`, and then it becomes `SCR`. -/
def Obligations.RunPeriodAndThresholdHaveTheirWriters : Prop :=
  ∀ (s t : State) (k : Nat), step s = .next t →
    ((s.blockAt k).run = true → (t.blockAt k).run = true) ∧
    (s.prog = [] → (s.blockAt k).run = true → (t.blockAt k).period = (s.blockAt k).period) ∧
    (s.prog = [] → (t.blockAt k).x ≠ (s.blockAt k).x →
      s.turnOf = .seq k ∧ (s.blockAt k).run = true ∧ (s.blockAt k).pc = 1 ∧ (t.blockAt k).x = (s.blockAt k).scr)

/-- R24, R25: in a state of the phase invariant (with the fixed program), `Y` changes only in a step of its own running sequencer at `pc = 2` (it becomes `PERIOD`) or at
`pc = 5` (it counts down), and `SCR` only at `pc = 0`, to the pending value or `X`; where the sequencer runs, that too is a step of its own. -/
def Obligations.CounterAndScratchHaveTheirWriters : Prop :=
  ∀ (s t : State) (k : Nat), PhaseInv s → step s = .next t →
    ((t.blockAt k).y ≠ (s.blockAt k).y → s.turnOf = .seq k ∧ (s.blockAt k).run = true ∧
      ((s.blockAt k).pc = 2 ∧ (t.blockAt k).y = (s.blockAt k).period ∨ (s.blockAt k).pc = 5 ∧ (t.blockAt k).y = (s.blockAt k).y - 1)) ∧
    ((t.blockAt k).scr ≠ (s.blockAt k).scr → (s.blockAt k).pc = 0 ∧ (t.blockAt k).scr = (s.blockAt k).nextThreshold ∧
      ((s.blockAt k).run = true → s.turnOf = .seq k))

/-- R175: with the fixed program, a running sequencer's pin rises only in a step at `pc = 4` and falls only in a step at `pc = 0`. -/
def Obligations.EdgesOnlyAtTheirStates : Prop :=
  ∀ (s t : State) (k : Nat), s.prog = [] → step s = .next t → (s.blockAt k).run = true →
    (RisingEdge k s t → (s.blockAt k).pc = 4) ∧ (FallingEdge k s t → (s.blockAt k).pc = 0)

/-- R37: a sequencer's turn leaves everything the host owns alone (`run`, `cfg_pin`, `cfg_clk`, the binding table and the controllers). It leaves
the queue's data alone too, though that is not the host's alone: a fetch clears `tq_valid` and does not write `tq_data` (R57; log 17, DEDUCED).
And it leaves the model's own fields for the host alone, the contexts (log 3) and `touched` (log 9). A host's turn leaves `PERIOD`, `X`, `Y`,
`SCR`, `pc` and `pin` of every running instance alone, and every other context. -/
def Obligations.EachAgentWritesWhatItOwns : Prop :=
  (∀ (s t : State) (k : Nat), s.turnOf = .seq k → step s = .next t →
    (∀ j, (t.blockAt j).run = (s.blockAt j).run ∧ (t.blockAt j).cfgPin = (s.blockAt j).cfgPin ∧
      (t.blockAt j).cfgClk = (s.blockAt j).cfgClk ∧ (t.blockAt j).tqData = (s.blockAt j).tqData ∧
      (t.blockAt j).touched = (s.blockAt j).touched) ∧
    t.pinBound = s.pinBound ∧ t.controllers = s.controllers ∧ t.contexts = s.contexts) ∧
  ∀ (s t : State) (j : Nat), s.turnOf = .host j → step s = .next t →
    (∀ k, (s.blockAt k).run = true →
      (t.blockAt k).period = (s.blockAt k).period ∧ (t.blockAt k).x = (s.blockAt k).x ∧ (t.blockAt k).y = (s.blockAt k).y ∧
      (t.blockAt k).scr = (s.blockAt k).scr ∧ (t.blockAt k).pc = (s.blockAt k).pc ∧ (t.blockAt k).pin = (s.blockAt k).pin) ∧
    ∀ i, i ≠ j → t.contextAt i = s.contextAt i

/-! ### The Transfer Queue between the agents (spec/20_memory.md R60 to R66) -/

/-- R62, R61 (turns and contexts as in log 3): of any number of enqueues of one context before a fetch, the fetch returns the last, and the queue
is empty after it; and of two enqueues of two contexts, such as a thread and a handler, it returns the later. -/
def Obligations.FetchSeesLastEnqueue : Prop :=
  (∀ (s : State) (j k : Nat) (vs : List Word) (v : Word) (rest : List Agent), k < Config.nSeq → s.prog = [] → (s.contextAt j).call = none →
    (s.blockAt k).run = true → (s.blockAt k).pc = 0 → (s.contextAt j).ops = (vs ++ [v]).map (fun a => HostOp.command k (packCommand 0 a)) →
    s.schedule = List.replicate (vs.length + 1) (Agent.host j) ++ Agent.seq k :: rest →
    ∃ t, core.run (vs.length + 2) s = .next t ∧ (t.blockAt k).scr = v ∧ (t.blockAt k).tqValid = false) ∧
  ∀ (s : State) (i j k : Nat) (v w : Word) (opsI opsJ : List HostOp) (rest : List Agent), i ≠ j → k < Config.nSeq → s.prog = [] →
    (s.contextAt i).call = none → (s.contextAt j).call = none → (s.blockAt k).run = true → (s.blockAt k).pc = 0 →
    (s.contextAt i).ops = .command k (packCommand 0 v) :: opsI → (s.contextAt j).ops = .command k (packCommand 0 w) :: opsJ →
    s.schedule = .host i :: .host j :: .seq k :: rest →
    ∃ t, core.run 3 s = .next t ∧ (t.blockAt k).scr = w ∧ (t.blockAt k).tqValid = false

/-- R66 (c): an enqueue and a fetch that meet go one way or the other: in the one order the fetch returns the new value, in the other the value
stays pending and the fetch returns what it would have without it. -/
def Obligations.EnqueueAndFetchEitherOrder : Prop :=
  ∀ (s : State) (j k : Nat) (v : Word) (ops : List HostOp) (rest : List Agent), k < Config.nSeq → s.prog = [] →
    (s.contextAt j).call = none → (s.blockAt k).run = true → (s.blockAt k).pc = 0 →
    (s.contextAt j).ops = .command k (packCommand 0 v) :: ops →
    (s.schedule = .host j :: .seq k :: rest →
      ∃ t, core.run 2 s = .next t ∧ (t.blockAt k).scr = v ∧ (t.blockAt k).tqValid = false) ∧
    (s.schedule = .seq k :: .host j :: rest →
      ∃ t, core.run 2 s = .next t ∧ (t.blockAt k).scr = (s.blockAt k).nextThreshold ∧
        (t.blockAt k).tqValid = true ∧ (t.blockAt k).tqData = v)

/-- R184: outside `FETCH`, an enqueue and a step of the running sequencer leave the same instance whichever comes first: an enqueue in the middle
of a period has no effect on that period. -/
def Obligations.EnqueueCommutesOutsideFetch : Prop :=
  ∀ (s1 s2 t1 : State) (j k : Nat) (v : Word) (ops : List HostOp) (rest : List Agent), k < Config.nSeq → s1.prog = [] →
    (s1.contextAt j).call = none → (s1.blockAt k).run = true → (s1.blockAt k).pc ≠ 0 →
    (s1.contextAt j).ops = .command k (packCommand 0 v) :: ops → s1.schedule = .host j :: .seq k :: rest →
    s2 = { s1 with schedule := .seq k :: .host j :: rest } → core.run 2 s1 = .next t1 →
    ∃ t2, core.run 2 s2 = .next t2 ∧ t2.blockAt k = t1.blockAt k

/-- R112 (i), R113: after a `FETCH` that finds the queue empty and the `LATCH` that follows, the prior threshold persists. -/
def Obligations.EmptyFetchKeepsThreshold : Prop :=
  ∀ (s : State) (k : Nat) (rest : List Agent), PeriodBegins k s → (s.blockAt k).tqValid = false → s.schedule = .seq k :: .seq k :: rest →
    ∃ t, core.run 2 s = .next t ∧ (t.blockAt k).x = (s.blockAt k).x ∧ (t.blockAt k).pc = 2

/-! ### The sequencers keep stepping (spec/20_memory.md R68, spec/70_reset_and_hazards.md R252) -/

/-- R68, R252, D28: in every infinite run of `step`, whatever its schedule, every sequencer that runs steps again and again. (A schedule is a
finite list, so in such a run the host has finitely many turns: the model's choice, log 3. `FairRunsApplyPendingValue` is of executions in which
the host may command for ever.) A step is the turn
of `turnOf`, used up; when the schedule has run out a system with the fixed program goes on for ever, with the sequencers in rota (the model's
choice, log 3). -/
def Obligations.EveryRunIsWeaklyFair : Prop :=
  (∀ e : Nat → State, (∀ n, step (e n) = .next (e (n + 1))) → WeaklyFair (fun n => (e n).turnOf) e) ∧
  (∀ s : State, step s = turn s.turnOf s.turnUsed) ∧
  ∀ s : State, s.schedule = [] → s.prog = [] → ∃ t, step s = .next t ∧ t.schedule = [] ∧ t.prog = []

/-- R68, R62: in a weakly fair execution with the fixed program, whoever takes each step and however long the host goes on to command (R13;
`asks` is the model's form of that, log 3), a running sequencer comes to `FETCH` again and again,
and a value `v` that is pending reaches `X` unless the host enqueues another value first. -/
def Obligations.FairRunsApplyPendingValue : Prop :=
  ∀ (who : Nat → Agent) (asks : Nat → List (Nat × HostOp)) (e : Nat → State) (k : Nat),
    Execution who asks e → WeaklyFair who e → (e 0).prog = [] → k < Config.nSeq → ((e 0).blockAt k).run = true →
    (∀ n, ∃ m, n ≤ m ∧ who m = .seq k ∧ ((e m).blockAt k).pc = 0) ∧
    ∀ v, ((e 0).blockAt k).tqValid = true → ((e 0).blockAt k).tqData = v →
      ∃ n, ((e n).blockAt k).x = v ∨ ((e n).blockAt k).tqData ≠ v

/-! ### The waveform (spec/43_output_waveform.md)

The statements of this section are made of the steps of one instance's own sequencer (`ownSteps`), whatever the host and the other sequencers do
between them. -/

/-- R179, R180: in a period of length `M >= 1` with the threshold `T` the pin is LOW and then, for the last `2 hi(M, T)` steps of the
`periodLength M T`, HIGH; as long as the period has not ended, the pin has followed that wave. -/
def Obligations.PeriodWaveform : Prop :=
  ∀ (k n : Nat) (s : State), PeriodBegins k s → (s.blockAt k).period ≠ 0 →
    let wave := periodWave (s.blockAt k).period.toNat (s.blockAt k).nextThreshold.toNat
    let own := ownSteps k n s
    pinTrace (firstPeriod own) <+: wave ∧ (PeriodEnds own → pinTrace (firstPeriod own) = wave)

/-- R123, R176: a period of length `M >= 1` ends where the next one begins, with the threshold in `X` and `SCR`, the counter at 0 and the pin HIGH
exactly when `1 <= T <= M`; and when the sequencer alone moves it takes `periodLength M T` steps and leaves the queue empty and everything else
as it was. -/
def Obligations.PeriodReturnsToStart : Prop :=
  ∀ (k : Nat) (s : State), PeriodBegins k s → (s.blockAt k).period ≠ 0 →
    let M := (s.blockAt k).period.toNat
    let T := (s.blockAt k).nextThreshold
    let L := periodLength M T.toNat
    (∀ n o, PeriodEnds (ownSteps k n s) → (firstPeriod (ownSteps k n s)).getLast? = some o →
      o.after.pc = 0 ∧ o.after.x = T ∧ o.after.scr = T ∧ o.after.y = 0 ∧ o.after.period = (s.blockAt k).period ∧
        o.after.pin = decide (1 ≤ T.toNat ∧ T.toNat ≤ M)) ∧
    ∀ rest, s.schedule = List.replicate L (.seq k) ++ rest →
      ∃ t, core.run L s = .next t ∧ PeriodEnds (ownSteps k L s) ∧ firstPeriod (ownSteps k L s) = ownSteps k L s ∧
        t.blockAt k = { s.blockAt k with x := T, scr := T, y := 0, tqValid := false, pin := decide (1 ≤ T.toNat ∧ T.toNat ≤ M) } ∧
        SameButBlock { s with schedule := rest, sel := k } t

/-- R177: in a period of length `M >= 1` the counter is compared at `M, M - 1, ..., 1`, in that order and at no other value, and it is found equal
to `X` once when `1 <= T <= M` and never otherwise. -/
def Obligations.CounterIsComparedDownToOne : Prop :=
  ∀ (k n : Nat) (s : State), PeriodBegins k s → (s.blockAt k).period ≠ 0 → PeriodEnds (ownSteps k n s) →
    let M := (s.blockAt k).period.toNat
    let T := (s.blockAt k).nextThreshold.toNat
    comparedAt (firstPeriod (ownSteps k n s)) = countdown M ∧
      matchCount (firstPeriod (ownSteps k n s)) = if 1 ≤ T ∧ T ≤ M then 1 else 0

/-- R178, R179: a period of length `M >= 1` has `M + 1` count steps, of which the last `hi(M, T)` are HIGH and the others, the preamble among
them, LOW. -/
def Obligations.CountStepLevels : Prop :=
  ∀ (k n : Nat) (s : State), PeriodBegins k s → (s.blockAt k).period ≠ 0 → PeriodEnds (ownSteps k n s) →
    let M := (s.blockAt k).period.toNat
    let T := (s.blockAt k).nextThreshold.toNat
    countLevels (firstPeriod (ownSteps k n s)) = List.replicate (M + 1 - hi M T) false ++ List.replicate (hi M T) true

/-- R185: of two thresholds `a < b <= M` the larger gives strictly more HIGH steps in the period. -/
def Obligations.DutyIsStrictlyMonotone : Prop :=
  ∀ (k1 k2 n1 n2 : Nat) (s1 s2 : State), PeriodBegins k1 s1 → PeriodBegins k2 s2 → (s1.blockAt k1).period ≠ 0 →
    (s2.blockAt k2).period = (s1.blockAt k1).period → PeriodEnds (ownSteps k1 n1 s1) → PeriodEnds (ownSteps k2 n2 s2) →
    (s1.blockAt k1).nextThreshold.toNat < (s2.blockAt k2).nextThreshold.toNat →
    (s2.blockAt k2).nextThreshold.toNat ≤ (s1.blockAt k1).period.toNat →
    (pinTrace (firstPeriod (ownSteps k1 n1 s1))).count true < (pinTrace (firstPeriod (ownSteps k2 n2 s2))).count true

/-- R181: with `1 <= M <= 2^32 - 2`, for as long as every period's `LATCH` puts the off sentinel in `X`, no compare finds equality and the pin is
LOW after every step. -/
def Obligations.OffSentinelStaysLow : Prop :=
  ∀ (k n : Nat) (s : State), PeriodBegins k s → 1 ≤ (s.blockAt k).period.toNat → (s.blockAt k).period.toNat ≤ 2 ^ 32 - 2 →
    (∀ T ∈ thresholds (ownSteps k n s), T = BitVec.ofNat 32 (2 ^ 32 - 1)) →
    (∀ level ∈ pinTrace (ownSteps k n s), level = false) ∧ matchCount (ownSteps k n s) = 0

/-- R162, R117 (iii): with `PERIOD = 0` the countdown wraps: the period has `2^32` inner iterations, at `Y = 0, 2^32 - 1, ..., 1`, and every
threshold matches once, 0 in the first of them; it takes `2 * 2^32 + 4` steps, the last `2 T` of them HIGH (`2^32` for `T` when the threshold is 0). -/
def Obligations.ZeroPeriodWaveform : Prop :=
  ∀ (k : Nat) (s : State), PeriodBegins k s → (s.blockAt k).period = 0 →
    let next := (s.blockAt k).nextThreshold
    let T := if next = 0 then 2 ^ 32 else next.toNat
    let L := 2 * 2 ^ 32 + 4
    let wave := List.replicate (L - 2 * T) false ++ List.replicate (2 * T) true
    (∀ n, pinTrace (firstPeriod (ownSteps k n s)) <+: wave ∧
      comparedAt (firstPeriod (ownSteps k n s)) <+: 0 :: countdown (2 ^ 32 - 1) ∧
      (PeriodEnds (ownSteps k n s) → pinTrace (firstPeriod (ownSteps k n s)) = wave ∧
        comparedAt (firstPeriod (ownSteps k n s)) = 0 :: countdown (2 ^ 32 - 1) ∧ matchCount (firstPeriod (ownSteps k n s)) = 1)) ∧
    ∀ rest, s.schedule = List.replicate L (.seq k) ++ rest →
      ∃ t, core.run L s = .next t ∧ PeriodEnds (ownSteps k L s) ∧ firstPeriod (ownSteps k L s) = ownSteps k L s ∧
        t.blockAt k = { s.blockAt k with x := next, scr := next, y := 0, tqValid := false, pin := true } ∧
        SameButBlock { s with schedule := rest, sel := k } t

/-- R188, R176, R186: from the beginning of a period of length `M >= 1` on, whatever the other agents do, the pin trace is the waves of the successive
thresholds `T_1, T_2, ...` one after the other (and the LOW of the `FETCH` that begins the period after the last). When one context of the host
calls `set_duty` with `requests` and nothing else reaches the instance, the thresholds that appear are the first, pending or prior, value and then
some of the requests, clamped and encoded, in their order, each possibly repeated. -/
def Obligations.ThresholdSequence : Prop :=
  ∀ (k n : Nat) (s : State), PeriodBegins k s → (s.blockAt k).period ≠ 0 →
    (pinTrace (ownSteps k n s) <+:
      (thresholds (ownSteps k n s)).flatMap (fun T => periodWave (s.blockAt k).period.toNat T.toNat) ++ [false]) ∧
    ∀ (j : Nat) (c : Controller) (requests : List Int), s.controllerAt k = some c →
      (∀ i d, s.controllerAt i = some d → d.sequencerHandle = i) → ThroughController k s →
      (s.contextAt j).call = none → (s.contextAt j).ops = requests.map (HostOp.setDuty k) →
      (∀ i, i ≠ j → ∀ v, HostOp.setDuty k v ∉ (s.contextAt i).ops) →
      ∃ idx : List Nat, idx.Pairwise (· ≤ ·) ∧ (thresholds (ownSteps k n s)).map some =
        idx.map fun i => ((s.blockAt k).nextThreshold :: requests.map fun v => encW (clamp v c.maxCount))[i]?

/-! ### Controller operations (spec/42_controller_operations.md, spec/60_exceptions.md) -/

/-- R155: `clamp(v, M)` is `max(-1, min(v, M))`, that is `-1` below `-1`, `v` from `-1` to `M`, `M` above `M`; for `M >= 0` the order of the two
bounds does not matter; on unbounded integers. -/
def Obligations.ClampIsBothBounds : Prop :=
  ∀ (v M : Int), 0 ≤ M → clamp v M = max (-1) (min v M) ∧ clamp v M = min (max (-1) v) M ∧ (v < -1 → clamp v M = -1) ∧
    (-1 ≤ v → v ≤ M → clamp v M = v) ∧ (M < v → clamp v M = M)

/-- R156: the clamp is idempotent, lies in `[-1, M]` and is monotone. -/
def Obligations.ClampLaws : Prop :=
  ∀ (v w M : Int), 0 ≤ M → clamp (clamp v M) M = clamp v M ∧ -1 ≤ clamp v M ∧ clamp v M ≤ M ∧ (v ≤ w → clamp v M ≤ clamp w M) ∧
    (clamp v M = v ↔ -1 ≤ v ∧ v ≤ M) ∧ (clamp v M = -1 ↔ v ≤ -1) ∧ (clamp v M = M ↔ M ≤ v)

/-- R157: `enc_W` of `-1` is `2^32 - 1`, of `c` in `[0, M]` is `c` where it fits, and it is one-to-one on `[-1, M]` exactly when
`M <= 2^32 - 2`. -/
def Obligations.EncodingOfRequestsIsInjectiveIff : Prop :=
  encW (-1) = BitVec.ofNat 32 (2 ^ 32 - 1) ∧ (∀ c : Nat, c < 2 ^ 32 → (encW c).toNat = c) ∧
  ∀ M : Nat, (∀ a b : Int, -1 ≤ a → a ≤ M → -1 ≤ b → b ≤ M → encW a = encW b → a = b) ↔ M ≤ 2 ^ 32 - 2

/-- R159: `set_duty(value)` on a controller is one `ENQUEUE` of `enc_W(clamp(value, max_count))` on its instance: it is done in the one step, for
every value, whatever the state of the block and of the other contexts, and changes nothing else (the instance counts as touched, log 9; the turn
and the operation are used up). -/
def Obligations.SetDutyEnqueuesClampedRequest : Prop :=
  ∀ (s : State) (j k : Nat) (value : Int) (c : Controller) (ops : List HostOp) (rest : List Agent), s.schedule = .host j :: rest →
    (s.contextAt j).call = none → (s.contextAt j).ops = .setDuty k value :: ops → s.controllerAt k = some c →
    ∃ t, step s = .next t ∧
      t.block = { s.blockAt c.sequencerHandle with
        tqData := encW (max (-1) (min value c.maxCount)), tqValid := true, touched := true } ∧
      SameButBlock { s.onContext j (fun h => { h with ops := ops }) with schedule := rest, sel := c.sequencerHandle } t

/-- R183, R159, R180: a `set_duty(v)` just before a period begins gives that period `2 clamp(v, M)` HIGH steps, none for a request of 0 or less; and
for `0 <= v <= M` it delivers `T = hi = v`: the duty is `v / M`, counted over all count steps `v / (M + 1)`, and counted in instruction steps
`2v / (2M + 4)`, the last two being what the pin shows. -/
def Obligations.SetDutyShowsInNextPeriod : Prop :=
  ∀ (s : State) (j k : Nat) (v : Int) (c : Controller) (ops : List HostOp) (rest : List Agent), s.schedule = .host j :: .seq k :: rest →
    (s.contextAt j).call = none → (s.contextAt j).ops = .setDuty k v :: ops → k < Config.nSeq →
    s.prog = [] → (s.blockAt k).run = true → (s.blockAt k).pc = 0 → s.controllerAt k = some c → c.sequencerHandle = k → 1 ≤ c.maxCount →
    c.maxCount ≤ 2 ^ 32 - 2 → (s.blockAt k).period = BitVec.ofNat 32 c.maxCount →
    ∃ t, step s = .next t ∧ PeriodBegins k t ∧ ∀ n, PeriodEnds (ownSteps k n t) →
      let M := c.maxCount
      let T := (t.blockAt k).nextThreshold.toNat
      let period := firstPeriod (ownSteps k n t)
      (pinTrace period).count true = 2 * (clamp v M).toNat ∧
      (0 ≤ v → v ≤ M → (T : Int) = v ∧ (hi M T : Int) = v ∧ duty M T = v / M ∧
        countStepDuty M T = v / (M + 1) ∧ ((countLevels period).count true : Rat) / (countLevels period).length = countStepDuty M T ∧
        stepDuty M T = 2 * v / (2 * M + 4) ∧ ((pinTrace period).count true : Rat) / (pinTrace period).length = stepDuty M T)

/-- R201 to R204, R207, R208: with a pin in range and a positive frequency, in a system of `N` sequencers and `P` pins, `initialize` reports an
invalid `sequencer_id` as code 1; else, on a freshly reset instance (logs 9, 11), a bound pin as code 2; else a `max_count` outside `[0, 2^32 - 1]` as code
3; and the code, given to the calling context (log 12), is all that changes. -/
def Obligations.ConfigErrorsInOrderChangeNothing : Prop :=
  (InitResult.errSeqId.code = 1 ∧ InitResult.errPinBound.code = 2 ∧ InitResult.errMaxCount.code = 3 ∧ InitResult.success.code = 0) ∧
  ∀ (N P j : Nat) (a : InitArgs) (s : State), 0 ≤ a.pin → a.pin < P → 0 < a.countFrequency →
    ((a.sequencerId < 0 ∨ N ≤ a.sequencerId) →
      initBegin N P j a s = .next (s.onContext j fun h => { h with result := some .errSeqId })) ∧
    (∀ k : Nat, a.sequencerId = k → k < N → (s.blockAt k).run = false → (s.blockAt k).touched = false →
      ((s.pinBoundAt a.pin.toNat = true →
        initBegin N P j a s = .next (s.onContext j fun h => { h with result := some .errPinBound })) ∧
      (s.pinBoundAt a.pin.toNat = false → (a.maxCount < 0 ∨ 2 ^ 32 - 1 < a.maxCount) →
        initBegin N P j a s = .next (s.onContext j fun h => { h with result := some .errMaxCount }))))

/-- U5, U6, U10, R165: `initialize` is refused with a pin out of range, with a frequency that is not positive, and on an existing instance that
runs or counts as touched (logs 9, 11). -/
def Obligations.InitializeRefusals : Prop :=
  ∀ (N P j : Nat) (a : InitArgs) (s : State),
    ((a.pin < 0 ∨ P ≤ a.pin) → initBegin N P j a s = .refused .pinOutOfRange) ∧
    (0 ≤ a.pin → a.pin < P → a.countFrequency ≤ 0 → initBegin N P j a s = .refused .frequencyNotPositive) ∧
    (∀ k : Nat, 0 ≤ a.pin → a.pin < P → 0 < a.countFrequency → a.sequencerId = k → k < N →
      ((s.blockAt k).run = true ∨ (s.blockAt k).touched = true) → initBegin N P j a s = .refused .notFreshlyReset)

/-- R160, R161, R238: from every reset draw, a call of `initialize` whose checks pass takes six turns of the context that makes it (log 10) and leaves
`run = 1`, `pc = 0`, `PERIOD = SCR = max_count`, the queue empty, the pin LOW, `X` and `Y` as they were drawn, `cfg_pin` and `cfg_clk = 2 f` set, the pin
bound, the controller triple, and code 0; no other instance, pin, controller or context changes. -/
def Obligations.InitializePrimesAndActivates : Prop :=
  ∀ (s : State) (j k p m f : Nat) (ops : List HostOp) (rest : List Agent), k < Config.nSeq → p < Config.nPin → m ≤ 2 ^ 32 - 1 → 0 < f →
    (s.blockAt k).AtReset → s.pinBoundAt p = false → (s.contextAt j).call = none → (s.contextAt j).ops = .initChannel ⟨k, p, m, f⟩ :: ops →
    s.schedule = List.replicate 6 (Agent.host j) ++ rest →
    ∃ t, core.run 6 s = .next t ∧
      t.blockAt k = { s.blockAt k with
        period := BitVec.ofNat 32 m, scr := BitVec.ofNat 32 m, tqData := BitVec.ofNat 32 m, tqValid := false, run := true, cfgPin := p,
        cfgClk := 2 * f, touched := true } ∧
      (∀ i, i ≠ k → t.blockAt i = s.blockAt i) ∧ (∀ q, t.pinBoundAt q = if q = p then true else s.pinBoundAt q) ∧
      (∀ i, t.controllerAt i = if i = k then some ⟨k, m, p⟩ else s.controllerAt i) ∧
      t.contextAt j = { ops := ops, call := none, result := some .success } ∧ (∀ i, i ≠ j → t.contextAt i = s.contextAt i) ∧
      t.prog = s.prog ∧ t.schedule = rest

/-- R242, R160: an `ENQUEUE v` that another context sends to the instance between the first and the second of the priming commands leaves `v` in
`PERIOD` although the controller says `max_count`; and a call that no command of another context disturbs leaves `max_count` there, whatever
steps of the sequencers and of the other contexts come between (contexts as in log 3). -/
def Obligations.InterferenceWithPriming : Prop :=
  (∀ (s : State) (i j k p m f : Nat) (v : Word) (opsI opsJ : List HostOp) (rest : List Agent), i ≠ j → k < Config.nSeq → p < Config.nPin →
    m ≤ 2 ^ 32 - 1 → 0 < f → (s.blockAt k).AtReset → s.pinBoundAt p = false →
    (s.contextAt i).call = none → (s.contextAt i).ops = .command k (packCommand 0 v) :: opsI →
    (s.contextAt j).call = none → (s.contextAt j).ops = .initChannel ⟨k, p, m, f⟩ :: opsJ →
    s.schedule = [.host j, .host j, .host i, .host j, .host j, .host j, .host j] ++ rest →
    ∃ t, core.run 7 s = .next t ∧ (t.blockAt k).period = v ∧ (t.blockAt k).run = true ∧ t.controllerAt k = some ⟨k, m, p⟩ ∧
      (t.contextAt j).result = some .success) ∧
  ∀ (n : Nat) (s t : State) (j k p m f : Nat), ChannelInv s →
    s.contextAt j = { ops := [.initChannel ⟨k, p, m, f⟩], call := none, result := none } → core.run n s = .next t →
    (t.contextAt j).result = some .success →
    t.controllerAt k = some ⟨k, m, p⟩ ∧ (t.blockAt k).run = true ∧ (t.blockAt k).period = BitVec.ofNat 32 m

/-! ### Invariants -/

/-- R37: every step keeps the canonical form in which the model holds program space and the other finite maps of the state (log 5). -/
def Obligations.StepKeepsCanonicalForm : Prop :=
  ∀ s t : State, s.wf = true → step s = .next t → t.wf = true

/-- R38 to R40: the reset state is in the canonical form of the model's finite maps (log 5) and is a reset state, and every reset state, whatever the
draw of its registers, satisfies the phase invariant and, for a host that keeps to R160, the channel invariant. -/
def Obligations.ResetMeetsTheInvariants : Prop :=
  State.reset.wf = true ∧ State.reset.AtReset ∧ PrimingUndisturbed State.reset ∧
    ∀ s : State, s.AtReset → PhaseInv s ∧ (PrimingUndisturbed s → ChannelInv s)

/-- R35 (iii), (v): every step of either agent keeps the phase invariant: the pin is HIGH only at DECREMENT, COMPARE and FETCH and from the
match on, and during a countdown the counter is in `[1, PERIOD]`. -/
def Obligations.StepKeepsPhaseInv : Prop :=
  ∀ s t : State, PhaseInv s → step s = .next t → PhaseInv t

/-- R35 (i), R21, R32, R202: every step of either agent keeps the channel invariant: each controller's instance runs, its Period Register holds the
controller's `max_count`, and its pin is bound to it alone; the host keeps to R160 (no command of another context into a call of `initialize`). -/
def Obligations.StepKeepsChannelInv : Prop :=
  ∀ s t : State, ChannelInv s → step s = .next t → ChannelInv t

/-- R187: while the host reaches an instance through its controller alone, `X` and `SCR` hold the off sentinel, a value up to `max_count`, or the
value `X` held at first, and the queue a value `set_duty` can deliver: every step keeps it. -/
def Obligations.StepKeepsThresholdInv : Prop :=
  ∀ (s t : State) (k M : Nat) (x0 : Word), ThresholdInv k M x0 s → step s = .next t → ThresholdInv k M x0 t

/-- R160, R161, R187: a call of `initialize` whose checks pass, made in six turns of the context that makes it (the model's DESIGN CHOICE of log
10: steps 1 to 4 of R160 in one turn, steps 5 to 9 in one each) by a host that does not go on to send commands of its own to the
instance, ends in a state with the threshold invariant, for the bound `max_count` and with the drawn value of `X` for `x0`. -/
def Obligations.InitializedHasThresholdInv : Prop :=
  ∀ (s : State) (j k p m f : Nat) (ops : List HostOp) (rest : List Agent), k < Config.nSeq → p < Config.nPin → m ≤ 2 ^ 32 - 1 → 0 < f →
    (s.blockAt k).AtReset → s.pinBoundAt p = false → (s.contextAt j).call = none → (s.contextAt j).ops = .initChannel ⟨k, p, m, f⟩ :: ops →
    s.schedule = List.replicate 6 (Agent.host j) ++ rest → s.prog = [] → (∀ w, HostOp.command k w ∉ ops) →
    (∀ i, i ≠ j → ¬(s.contextAt i).commands k ∧ ∀ c, (s.contextAt i).call = some c → c.sequencerId ≠ k) →
    (∀ i c, s.controllerAt i = some c → c.sequencerHandle = i) →
    ∃ t, core.run 6 s = .next t ∧ ThresholdInv k m (s.blockAt k).x t
end

