-- ==== Sys2Proof/Laws/Sparse.lean ====
section
/-! SUPPORT. What the finite maps of Machine/Sparse.lean do: a read after a write, and the canonical form. -/

namespace Sys2Proof.Machine.Sparse

variable {α : Type}

theorem get_erase (dflt : Nat → α) (l : List (Nat × α)) (k j : Nat) :
    get dflt (erase l k) j = if j = k then dflt k else get dflt l j := by
  induction l with
  | nil =>
    by_cases h : j = k
    · subst h; simp [get, erase]
    · simp [get, erase, h]
  | cons e l ih =>
    obtain ⟨a, v⟩ := e
    by_cases ha : a = k
    · subst ha
      by_cases hj : j = a
      · subst hj; simpa [erase] using ih
      · simp [erase, ih, hj, get, Ne.symm hj]
    · by_cases hj : j = k
      · subst hj; simp [erase, ha, get, ih]
      · by_cases haj : a = j <;> simp [erase, ha, get, ih, hj, haj]

theorem get_insert (dflt : Nat → α) (l : List (Nat × α)) (k j : Nat) (v : α) (h : ∀ e ∈ l, e.1 ≠ k) :
    get dflt (insert l k v) j = if j = k then v else get dflt l j := by
  induction l with
  | nil =>
    by_cases hj : j = k
    · simp [get, insert, hj]
    · simp [get, insert, hj, Ne.symm hj]
  | cons e l ih =>
    obtain ⟨a, w⟩ := e
    have ha : a ≠ k := h (a, w) (by simp)
    have ih' := ih fun e he => h e (by simp [he])
    by_cases hlt : k < a
    · by_cases hj : j = k
      · simp [insert, hlt, get, hj]
      · simp [insert, hlt, get, hj, Ne.symm hj]
    · by_cases haj : a = j
      · subst haj; simp [insert, hlt, get, ha]
      · simp [insert, hlt, get, haj, ih']

theorem ne_of_mem_erase (l : List (Nat × α)) (k : Nat) : ∀ e ∈ erase l k, e.1 ≠ k := by
  induction l with
  | nil => simp [erase]
  | cons e l ih =>
    obtain ⟨a, v⟩ := e
    by_cases ha : a = k
    · simpa [erase, ha] using ih
    · intro e he
      simp only [erase, ha, if_false, List.mem_cons] at he
      rcases he with rfl | he
      · exact ha
      · exact ih e he

/-- A read after a write gives the value written, and every other key reads as before: for every list, canonical or not. -/
theorem get_set [DecidableEq α] (dflt : Nat → α) (l : List (Nat × α)) (k j : Nat) (v : α) :
    get dflt (set dflt l k v) j = if j = k then v else get dflt l j := by
  unfold set
  split
  · next h => rw [get_erase, h]
  · rw [get_insert _ _ _ _ _ (ne_of_mem_erase l k), get_erase]
    by_cases hj : j = k <;> simp [hj]

/-- A lower bound may be lowered. -/
theorem rising_mono (l : List (Nat × α)) (b c : Nat) (hbc : b ≤ c) (h : rising (some c) l = true) :
    rising (some b) l = true := by
  cases l with
  | nil => rfl
  | cons e l =>
    obtain ⟨a, v⟩ := e
    simp only [rising, Bool.and_eq_true, decide_eq_true_eq] at h ⊢
    exact ⟨by omega, h.2⟩

theorem rising_none (l : List (Nat × α)) (b : Nat) (h : rising (some b) l = true) : rising none l = true := by
  cases l with
  | nil => rfl
  | cons e l =>
    obtain ⟨a, v⟩ := e
    simp only [rising, Bool.and_eq_true] at h ⊢
    exact ⟨trivial, h.2⟩

theorem rising_erase (l : List (Nat × α)) (k : Nat) (lo : Option Nat) (h : rising lo l = true) :
    rising lo (erase l k) = true := by
  induction l generalizing lo with
  | nil => exact h
  | cons e l ih =>
    obtain ⟨a, v⟩ := e
    simp only [rising, Bool.and_eq_true] at h
    by_cases ha : a = k
    · simp only [erase, ha, if_true]
      cases lo with
      | none => exact ih none (rising_none l a h.2)
      | some b =>
        have hb : b < a := by simpa using h.1
        exact ih (some b) (rising_mono l b a (by omega) h.2)
    · simp only [erase, ha, if_false, rising, Bool.and_eq_true]
      exact ⟨h.1, ih _ h.2⟩

theorem rising_insert (l : List (Nat × α)) (k : Nat) (v : α) (lo : Option Nat) (hlo : ∀ b, lo = some b → b < k)
    (hk : ∀ e ∈ l, e.1 ≠ k) (h : rising lo l = true) : rising lo (insert l k v) = true := by
  induction l generalizing lo with
  | nil => cases lo <;> simp_all [insert, rising]
  | cons e l ih =>
    obtain ⟨a, w⟩ := e
    simp only [rising, Bool.and_eq_true] at h
    have ha : a ≠ k := hk (a, w) (by simp)
    by_cases hlt : k < a
    · simp only [insert, hlt, if_true, rising, Bool.and_eq_true, decide_eq_true_eq]
      refine ⟨?_, trivial, h.2⟩
      cases lo with
      | none => rfl
      | some b => simpa using hlo b rfl
    · simp only [insert, hlt, if_false, rising, Bool.and_eq_true]
      refine ⟨h.1, ih (some a) ?_ (fun e he => hk e (by simp [he])) h.2⟩
      intro b hb
      cases hb
      omega

theorem all_erase (p : Nat × α → Bool) (l : List (Nat × α)) (k : Nat) (h : l.all p = true) : (erase l k).all p = true := by
  induction l with
  | nil => simp [erase]
  | cons e l ih =>
    obtain ⟨a, v⟩ := e
    simp only [List.all_cons, Bool.and_eq_true] at h
    by_cases ha : a = k
    · simpa [erase, ha] using ih h.2
    · simp only [erase, ha, if_false, List.all_cons, Bool.and_eq_true]
      exact ⟨h.1, ih h.2⟩

theorem all_insert (p : Nat × α → Bool) (l : List (Nat × α)) (k : Nat) (v : α) (h : l.all p = true) (hv : p (k, v) = true) :
    (insert l k v).all p = true := by
  induction l with
  | nil => simp [insert, hv]
  | cons e l ih =>
    obtain ⟨a, w⟩ := e
    have h' := h
    simp only [List.all_cons, Bool.and_eq_true] at h
    by_cases hlt : k < a
    · simp only [insert, hlt, if_true, List.all_cons, Bool.and_eq_true]
      exact ⟨hv, h.1, h.2⟩
    · simp only [insert, hlt, if_false, List.all_cons, Bool.and_eq_true]
      exact ⟨h.1, ih h.2⟩

/-- A write keeps every property of the entries that the new entry has. -/
theorem all_set [DecidableEq α] (p : Nat × α → Bool) (dflt : Nat → α) (l : List (Nat × α)) (k : Nat) (v : α) (h : l.all p = true)
    (hv : p (k, v) = true) : (set dflt l k v).all p = true := by
  unfold set
  split
  · exact all_erase p l k h
  · exact all_insert p _ k v (all_erase p l k h) hv

/-- A write keeps the canonical form. -/
theorem wf_set [DecidableEq α] (dflt : Nat → α) (l : List (Nat × α)) (k : Nat) (v : α) (h : wf dflt l = true) :
    wf dflt (set dflt l k v) = true := by
  simp only [wf, Bool.and_eq_true] at h ⊢
  unfold set
  split
  · exact ⟨rising_erase l k none h.1, all_erase _ l k h.2⟩
  · next hv =>
    exact ⟨rising_insert _ k v none (by simp) (ne_of_mem_erase l k) (rising_erase l k none h.1),
      all_insert _ _ k v (all_erase _ l k h.2) (by simpa using hv)⟩

end Sys2Proof.Machine.Sparse
end

