-- ==== Sys2Proof/Laws/State.lean ====
section
/-! SUPPORT. One lemma for each field and each update of the state's records. -/

namespace Sys2Proof.Machine

/-! ### `Block.put` and `Block.move` -/

@[simp] theorem Block.put_period (u : Block) (v : Word) : u.put .period v = { u with period := v } := rfl
@[simp] theorem Block.put_x (u : Block) (v : Word) : u.put .x v = { u with x := v } := rfl
@[simp] theorem Block.put_y (u : Block) (v : Word) : u.put .y v = { u with y := v } := rfl
@[simp] theorem Block.put_scr (u : Block) (v : Word) : u.put .scr v = { u with scr := v } := rfl
@[simp] theorem Block.get_period (u : Block) : u.get .period = u.period := rfl
@[simp] theorem Block.get_x (u : Block) : u.get .x = u.x := rfl
@[simp] theorem Block.get_y (u : Block) : u.get .y = u.y := rfl
@[simp] theorem Block.get_scr (u : Block) : u.get .scr = u.scr := rfl

/-! ### The side-set -/

theorem Block.sideSet_eq (ss : SideSet) (u : Block) : u.sideSet ss = { u with pin := ss.getD u.pin } := by
  cases ss <;> rfl

@[simp] theorem Block.sideSet_none (u : Block) : u.sideSet none = u := rfl
@[simp] theorem Block.sideSet_some (b : Bool) (u : Block) : u.sideSet (some b) = { u with pin := b } := rfl

/-! ### The queue's primitives -/

@[simp] theorem Block.memWrite_tqData (v : Word) (u : Block) : (u.memWrite v).tqData = v := rfl
@[simp] theorem Block.memWrite_tqValid (v : Word) (u : Block) : (u.memWrite v).tqValid = true := rfl
@[simp] theorem Block.memWrite_period (v : Word) (u : Block) : (u.memWrite v).period = u.period := rfl
@[simp] theorem Block.memWrite_x (v : Word) (u : Block) : (u.memWrite v).x = u.x := rfl
@[simp] theorem Block.memWrite_y (v : Word) (u : Block) : (u.memWrite v).y = u.y := rfl
@[simp] theorem Block.memWrite_scr (v : Word) (u : Block) : (u.memWrite v).scr = u.scr := rfl
@[simp] theorem Block.memWrite_pc (v : Word) (u : Block) : (u.memWrite v).pc = u.pc := rfl
@[simp] theorem Block.memWrite_run (v : Word) (u : Block) : (u.memWrite v).run = u.run := rfl
@[simp] theorem Block.memWrite_pin (v : Word) (u : Block) : (u.memWrite v).pin = u.pin := rfl
@[simp] theorem Block.memWrite_cfgPin (v : Word) (u : Block) : (u.memWrite v).cfgPin = u.cfgPin := rfl
@[simp] theorem Block.memWrite_cfgClk (v : Word) (u : Block) : (u.memWrite v).cfgClk = u.cfgClk := rfl
@[simp] theorem Block.memWrite_touched (v : Word) (u : Block) : (u.memWrite v).touched = u.touched := rfl

/-! ### `Block.advance` and `Block.branch` -/

@[simp] theorem Block.advance_pc (u : Block) : u.advance.pc = u.pc + 1 := rfl
@[simp] theorem Block.branch_true (u : Block) (a : Fin 6) : u.branch true a = { u with pc := a } := rfl
@[simp] theorem Block.branch_false (u : Block) (a : Fin 6) : u.branch false a = u.advance := rfl

/-! ### `State.setBlock` -/

@[simp] theorem setBlock_prog (s : State) (k : Nat) (u : Block) : (s.setBlock k u).prog = s.prog := rfl
@[simp] theorem setBlock_pinBound (s : State) (k : Nat) (u : Block) : (s.setBlock k u).pinBound = s.pinBound := rfl
@[simp] theorem setBlock_controllers (s : State) (k : Nat) (u : Block) : (s.setBlock k u).controllers = s.controllers := rfl
@[simp] theorem setBlock_contexts (s : State) (k : Nat) (u : Block) : (s.setBlock k u).contexts = s.contexts := rfl
@[simp] theorem setBlock_contextAt (s : State) (k : Nat) (u : Block) (j : Nat) : (s.setBlock k u).contextAt j = s.contextAt j := rfl
@[simp] theorem setBlock_schedule (s : State) (k : Nat) (u : Block) : (s.setBlock k u).schedule = s.schedule := rfl
@[simp] theorem setBlock_sel (s : State) (k : Nat) (u : Block) : (s.setBlock k u).sel = s.sel := rfl

/-! ### `State.onBlock` -/

@[simp] theorem onBlock_prog (s : State) (f : Block → Block) : (s.onBlock f).prog = s.prog := rfl
@[simp] theorem onBlock_pinBound (s : State) (f : Block → Block) : (s.onBlock f).pinBound = s.pinBound := rfl
@[simp] theorem onBlock_controllers (s : State) (f : Block → Block) : (s.onBlock f).controllers = s.controllers := rfl
@[simp] theorem onBlock_contexts (s : State) (f : Block → Block) : (s.onBlock f).contexts = s.contexts := rfl
@[simp] theorem onBlock_contextAt (s : State) (f : Block → Block) (j : Nat) : (s.onBlock f).contextAt j = s.contextAt j := rfl
@[simp] theorem onBlock_schedule (s : State) (f : Block → Block) : (s.onBlock f).schedule = s.schedule := rfl
@[simp] theorem onBlock_sel (s : State) (f : Block → Block) : (s.onBlock f).sel = s.sel := rfl

/-! ### `State.select` and `State.addressed` -/

@[simp] theorem select_blocks (s : State) (k : Nat) : (s.select k).blocks = s.blocks := rfl
@[simp] theorem select_prog (s : State) (k : Nat) : (s.select k).prog = s.prog := rfl
@[simp] theorem select_pinBound (s : State) (k : Nat) : (s.select k).pinBound = s.pinBound := rfl
@[simp] theorem select_controllers (s : State) (k : Nat) : (s.select k).controllers = s.controllers := rfl
@[simp] theorem select_contexts (s : State) (k : Nat) : (s.select k).contexts = s.contexts := rfl
@[simp] theorem select_contextAt (s : State) (k : Nat) (j : Nat) : (s.select k).contextAt j = s.contextAt j := rfl
@[simp] theorem select_schedule (s : State) (k : Nat) : (s.select k).schedule = s.schedule := rfl
@[simp] theorem select_sel (s : State) (k : Nat) : (s.select k).sel = k := rfl
@[simp] theorem select_blockAt (s : State) (k j : Nat) : (s.select k).blockAt j = s.blockAt j := rfl
@[simp] theorem select_block (s : State) (k : Nat) : (s.select k).block = s.blockAt k := rfl
@[simp] theorem addressed_prog (s : State) (k : Nat) : (s.addressed k).prog = s.prog := rfl
@[simp] theorem addressed_pinBound (s : State) (k : Nat) : (s.addressed k).pinBound = s.pinBound := rfl
@[simp] theorem addressed_controllers (s : State) (k : Nat) : (s.addressed k).controllers = s.controllers := rfl
@[simp] theorem addressed_contexts (s : State) (k : Nat) : (s.addressed k).contexts = s.contexts := rfl
@[simp] theorem addressed_contextAt (s : State) (k : Nat) (j : Nat) : (s.addressed k).contextAt j = s.contextAt j := rfl
@[simp] theorem addressed_schedule (s : State) (k : Nat) : (s.addressed k).schedule = s.schedule := rfl
@[simp] theorem addressed_sel (s : State) (k : Nat) : (s.addressed k).sel = k := rfl

/-! ### `State.bindPin`, `State.addController`, `State.raiseConfigError` -/

@[simp] theorem bindPin_blocks (s : State) (p : Nat) : (s.bindPin p).blocks = s.blocks := rfl
@[simp] theorem bindPin_blockAt (s : State) (p k : Nat) : (s.bindPin p).blockAt k = s.blockAt k := rfl
@[simp] theorem bindPin_prog (s : State) (p : Nat) : (s.bindPin p).prog = s.prog := rfl
@[simp] theorem bindPin_controllers (s : State) (p : Nat) : (s.bindPin p).controllers = s.controllers := rfl
@[simp] theorem bindPin_contexts (s : State) (p : Nat) : (s.bindPin p).contexts = s.contexts := rfl
@[simp] theorem bindPin_contextAt (s : State) (p : Nat) (j : Nat) : (s.bindPin p).contextAt j = s.contextAt j := rfl
@[simp] theorem bindPin_schedule (s : State) (p : Nat) : (s.bindPin p).schedule = s.schedule := rfl
@[simp] theorem bindPin_sel (s : State) (p : Nat) : (s.bindPin p).sel = s.sel := rfl
@[simp] theorem addController_blocks (s : State) (c : Controller) : (s.addController c).blocks = s.blocks := rfl
@[simp] theorem addController_blockAt (s : State) (c : Controller) (k : Nat) : (s.addController c).blockAt k = s.blockAt k := rfl
@[simp] theorem addController_prog (s : State) (c : Controller) : (s.addController c).prog = s.prog := rfl
@[simp] theorem addController_pinBound (s : State) (c : Controller) : (s.addController c).pinBound = s.pinBound := rfl
@[simp] theorem addController_contexts (s : State) (c : Controller) : (s.addController c).contexts = s.contexts := rfl
@[simp] theorem addController_contextAt (s : State) (c : Controller) (j : Nat) : (s.addController c).contextAt j = s.contextAt j := rfl
@[simp] theorem addController_schedule (s : State) (c : Controller) : (s.addController c).schedule = s.schedule := rfl
@[simp] theorem addController_sel (s : State) (c : Controller) : (s.addController c).sel = s.sel := rfl
@[simp] theorem raiseConfigError_blocks (s : State) (j : Nat) (r : InitResult) : (s.raiseConfigError j r).blocks = s.blocks := rfl
@[simp] theorem raiseConfigError_prog (s : State) (j : Nat) (r : InitResult) : (s.raiseConfigError j r).prog = s.prog := rfl
@[simp] theorem raiseConfigError_pinBound (s : State) (j : Nat) (r : InitResult) : (s.raiseConfigError j r).pinBound = s.pinBound := rfl
@[simp] theorem raiseConfigError_controllers (s : State) (j : Nat) (r : InitResult) : (s.raiseConfigError j r).controllers = s.controllers := rfl
@[simp] theorem raiseConfigError_schedule (s : State) (j : Nat) (r : InitResult) : (s.raiseConfigError j r).schedule = s.schedule := rfl
@[simp] theorem raiseConfigError_sel (s : State) (j : Nat) (r : InitResult) : (s.raiseConfigError j r).sel = s.sel := rfl

/-! ### `State.setContext` and `State.onContext` -/

@[simp] theorem setContext_blocks (s : State) (j : Nat) (h : HostContext) : (s.setContext j h).blocks = s.blocks := rfl
@[simp] theorem setContext_prog (s : State) (j : Nat) (h : HostContext) : (s.setContext j h).prog = s.prog := rfl
@[simp] theorem setContext_pinBound (s : State) (j : Nat) (h : HostContext) : (s.setContext j h).pinBound = s.pinBound := rfl
@[simp] theorem setContext_controllers (s : State) (j : Nat) (h : HostContext) : (s.setContext j h).controllers = s.controllers := rfl
@[simp] theorem setContext_schedule (s : State) (j : Nat) (h : HostContext) : (s.setContext j h).schedule = s.schedule := rfl
@[simp] theorem setContext_sel (s : State) (j : Nat) (h : HostContext) : (s.setContext j h).sel = s.sel := rfl
@[simp] theorem setContext_block (s : State) (j : Nat) (h : HostContext) : (s.setContext j h).block = s.block := rfl
@[simp] theorem setContext_blockAt (s : State) (j : Nat) (h : HostContext) (k : Nat) : (s.setContext j h).blockAt k = s.blockAt k := rfl
@[simp] theorem setContext_pinBoundAt (s : State) (j : Nat) (h : HostContext) (p : Nat) : (s.setContext j h).pinBoundAt p = s.pinBoundAt p := rfl
@[simp] theorem setContext_controllerAt (s : State) (j : Nat) (h : HostContext) (k : Nat) :
    (s.setContext j h).controllerAt k = s.controllerAt k := rfl
@[simp] theorem onContext_blocks (s : State) (j : Nat) (f : HostContext → HostContext) : (s.onContext j f).blocks = s.blocks := rfl
@[simp] theorem onContext_prog (s : State) (j : Nat) (f : HostContext → HostContext) : (s.onContext j f).prog = s.prog := rfl
@[simp] theorem onContext_pinBound (s : State) (j : Nat) (f : HostContext → HostContext) : (s.onContext j f).pinBound = s.pinBound := rfl
@[simp] theorem onContext_controllers (s : State) (j : Nat) (f : HostContext → HostContext) : (s.onContext j f).controllers = s.controllers := rfl
@[simp] theorem onContext_schedule (s : State) (j : Nat) (f : HostContext → HostContext) : (s.onContext j f).schedule = s.schedule := rfl
@[simp] theorem onContext_sel (s : State) (j : Nat) (f : HostContext → HostContext) : (s.onContext j f).sel = s.sel := rfl
@[simp] theorem onContext_block (s : State) (j : Nat) (f : HostContext → HostContext) : (s.onContext j f).block = s.block := rfl
@[simp] theorem onContext_blockAt (s : State) (j : Nat) (f : HostContext → HostContext) (k : Nat) :
    (s.onContext j f).blockAt k = s.blockAt k := rfl
@[simp] theorem onContext_pinBoundAt (s : State) (j : Nat) (f : HostContext → HostContext) (p : Nat) :
    (s.onContext j f).pinBoundAt p = s.pinBoundAt p := rfl
@[simp] theorem onContext_controllerAt (s : State) (j : Nat) (f : HostContext → HostContext) (k : Nat) :
    (s.onContext j f).controllerAt k = s.controllerAt k := rfl

/-! ### `State.asked` -/

@[simp] theorem asked_nil (s : State) : s.asked [] = s := rfl
@[simp] theorem asked_cons (s : State) (a : Nat × HostOp) (asks : List (Nat × HostOp)) :
    s.asked (a :: asks) = (s.onContext a.1 fun h => { h with ops := h.ops ++ [a.2] }).asked asks := rfl

/-- What the host decides on changes its contexts alone. -/
theorem asked_eq (s : State) (asks : List (Nat × HostOp)) : s.asked asks = { s with contexts := (s.asked asks).contexts } := by
  induction asks generalizing s with
  | nil => rfl
  | cons a asks ih => rw [asked_cons]; exact ih _

@[simp] theorem asked_blocks (s : State) (asks : List (Nat × HostOp)) : (s.asked asks).blocks = s.blocks := by rw [asked_eq]
@[simp] theorem asked_prog (s : State) (asks : List (Nat × HostOp)) : (s.asked asks).prog = s.prog := by rw [asked_eq]
@[simp] theorem asked_pinBound (s : State) (asks : List (Nat × HostOp)) : (s.asked asks).pinBound = s.pinBound := by rw [asked_eq]
@[simp] theorem asked_controllers (s : State) (asks : List (Nat × HostOp)) : (s.asked asks).controllers = s.controllers := by
  rw [asked_eq]
@[simp] theorem asked_schedule (s : State) (asks : List (Nat × HostOp)) : (s.asked asks).schedule = s.schedule := by rw [asked_eq]
@[simp] theorem asked_sel (s : State) (asks : List (Nat × HostOp)) : (s.asked asks).sel = s.sel := by rw [asked_eq]
@[simp] theorem asked_blockAt (s : State) (asks : List (Nat × HostOp)) (k : Nat) : (s.asked asks).blockAt k = s.blockAt k := by
  rw [asked_eq]; rfl
@[simp] theorem asked_pinBoundAt (s : State) (asks : List (Nat × HostOp)) (p : Nat) :
    (s.asked asks).pinBoundAt p = s.pinBoundAt p := by rw [asked_eq]; rfl
@[simp] theorem asked_controllerAt (s : State) (asks : List (Nat × HostOp)) (k : Nat) :
    (s.asked asks).controllerAt k = s.controllerAt k := by rw [asked_eq]; rfl

/-! ### `State.turnUsed` and `State.reachStage` -/

@[simp] theorem turnUsed_blocks (s : State) : s.turnUsed.blocks = s.blocks := rfl
@[simp] theorem turnUsed_prog (s : State) : s.turnUsed.prog = s.prog := rfl
@[simp] theorem turnUsed_pinBound (s : State) : s.turnUsed.pinBound = s.pinBound := rfl
@[simp] theorem turnUsed_controllers (s : State) : s.turnUsed.controllers = s.controllers := rfl
@[simp] theorem turnUsed_contexts (s : State) : s.turnUsed.contexts = s.contexts := rfl
@[simp] theorem turnUsed_sel (s : State) : s.turnUsed.sel = s.sel := rfl
@[simp] theorem turnUsed_block (s : State) : s.turnUsed.block = s.block := rfl
@[simp] theorem turnUsed_schedule (s : State) : s.turnUsed.schedule = s.schedule.tail := rfl
@[simp] theorem turnUsed_blockAt (s : State) (k : Nat) : s.turnUsed.blockAt k = s.blockAt k := rfl
@[simp] theorem turnUsed_contextAt (s : State) (j : Nat) : s.turnUsed.contextAt j = s.contextAt j := rfl
@[simp] theorem turnUsed_pinBoundAt (s : State) (p : Nat) : s.turnUsed.pinBoundAt p = s.pinBoundAt p := rfl
@[simp] theorem turnUsed_controllerAt (s : State) (k : Nat) : s.turnUsed.controllerAt k = s.controllerAt k := rfl
@[simp] theorem turnUsed_romRead (s : State) (a : Nat) : s.turnUsed.romRead a = s.romRead a := rfl
@[simp] theorem reachStage_blocks (s : State) (j : Nat) (c : InitCall) (st : InitStage) : (s.reachStage j c st).blocks = s.blocks := rfl
@[simp] theorem reachStage_prog (s : State) (j : Nat) (c : InitCall) (st : InitStage) : (s.reachStage j c st).prog = s.prog := rfl
@[simp] theorem reachStage_pinBound (s : State) (j : Nat) (c : InitCall) (st : InitStage) : (s.reachStage j c st).pinBound = s.pinBound := rfl
@[simp] theorem reachStage_controllers (s : State) (j : Nat) (c : InitCall) (st : InitStage) : (s.reachStage j c st).controllers = s.controllers := rfl
@[simp] theorem reachStage_schedule (s : State) (j : Nat) (c : InitCall) (st : InitStage) : (s.reachStage j c st).schedule = s.schedule := rfl
@[simp] theorem reachStage_sel (s : State) (j : Nat) (c : InitCall) (st : InitStage) : (s.reachStage j c st).sel = s.sel := rfl
@[simp] theorem reachStage_block (s : State) (j : Nat) (c : InitCall) (st : InitStage) : (s.reachStage j c st).block = s.block := rfl
@[simp] theorem reachStage_blockAt (s : State) (j : Nat) (c : InitCall) (st : InitStage) (k : Nat) :
    (s.reachStage j c st).blockAt k = s.blockAt k := rfl
@[simp] theorem reachStage_pinBoundAt (s : State) (j : Nat) (c : InitCall) (st : InitStage) (p : Nat) :
    (s.reachStage j c st).pinBoundAt p = s.pinBoundAt p := rfl
@[simp] theorem reachStage_controllerAt (s : State) (j : Nat) (c : InitCall) (st : InitStage) (k : Nat) :
    (s.reachStage j c st).controllerAt k = s.controllerAt k := rfl
@[simp] theorem select_pinBoundAt (s : State) (k p : Nat) : (s.select k).pinBoundAt p = s.pinBoundAt p := rfl
@[simp] theorem select_controllerAt (s : State) (k j : Nat) : (s.select k).controllerAt j = s.controllerAt j := rfl
@[simp] theorem setBlock_pinBoundAt (s : State) (k : Nat) (u : Block) (p : Nat) : (s.setBlock k u).pinBoundAt p = s.pinBoundAt p := rfl
@[simp] theorem setBlock_controllerAt (s : State) (k : Nat) (u : Block) (j : Nat) : (s.setBlock k u).controllerAt j = s.controllerAt j := rfl
@[simp] theorem addressed_pinBoundAt (s : State) (k p : Nat) : (s.addressed k).pinBoundAt p = s.pinBoundAt p := rfl
@[simp] theorem addressed_controllerAt (s : State) (k j : Nat) : (s.addressed k).controllerAt j = s.controllerAt j := rfl
@[simp] theorem onBlock_pinBoundAt (s : State) (f : Block → Block) (p : Nat) : (s.onBlock f).pinBoundAt p = s.pinBoundAt p := rfl
@[simp] theorem onBlock_controllerAt (s : State) (f : Block → Block) (j : Nat) : (s.onBlock f).controllerAt j = s.controllerAt j := rfl

end Sys2Proof.Machine
end

