-- ==== Sys2Proof/Laws/Ops.lean ====
section
/-! SUPPORT. One lemma for each shared operation, saying all it can do. -/

namespace Sys2Proof.Machine

/-! ### Operands and flags -/

theorem target_eq_some (tgt : BitVec 3) (h : tgt.toNat < 6) : target tgt = some ⟨tgt.toNat, h⟩ := by
  simp [target, h]

theorem target_eq_none (tgt : BitVec 3) : target tgt = none ↔ 6 ≤ tgt.toNat := by
  unfold target
  split <;> simp <;> omega

/-- A data register written reads as the value written, and no other one changes: no two of them alias (R20). -/
theorem Block.get_put (u : Block) (r q : Reg) (v : Word) : (u.put r v).get q = if q = r then v else u.get q := by
  cases r <;> cases q <;> rfl

theorem Block.branch_eq (u : Block) (taken : Bool) (a : Fin 6) :
    u.branch taken a = { u with pc := if taken then a else u.pc + 1 } := by
  cases taken <;> rfl

theorem Block.fetchQueue_eq (u : Block) :
    u.fetchQueue = { u with scr := if u.tqValid then u.tqData else u.x, tqValid := false } := by
  unfold Block.fetchQueue Block.pending Block.consumed
  cases u.tqValid <;> rfl

theorem Block.loadPeriod_eq (u : Block) : u.loadPeriod = { u with period := u.scr } := rfl

/-! ### Program space -/

theorem Memory.read_of_lt (m : Memory) (a : Nat) (h : a < 6) : Memory.read m a = .ok (Sparse.get romImage m a) := by
  simp [Memory.read, h]

/-- A read of program space after a word is placed there. -/
theorem Memory.read_write (m : Memory) (a b : Nat) (w : Byte) (ha : a < 6) (hb : b < 6) :
    Memory.read (Memory.write m a w) b = if b = a then .ok w else Memory.read m b := by
  simp only [Memory.read, Memory.write, ha, hb, if_true, Sparse.get_set]
  split <;> rfl

/-- Placing a word keeps the canonical form of program space. -/
theorem Memory.wf_write (m : Memory) (a : Nat) (w : Byte) (h : Memory.wf m = true) : Memory.wf (Memory.write m a w) = true := by
  unfold Memory.write
  split
  · next ha =>
    simp only [Memory.wf, Bool.and_eq_true] at h ⊢
    exact ⟨Sparse.wf_set _ _ _ _ h.1, Sparse.all_set _ _ _ _ _ h.2 (by simpa using ha)⟩
  · exact h

theorem State.reset_wf : State.reset.wf = true := rfl

/-! ### The instances -/

theorem blockAt_setBlock (s : State) (k j : Nat) (u : Block) : (s.setBlock k u).blockAt j = if j = k then u else s.blockAt j :=
  Sparse.get_set _ _ _ _ _

@[simp] theorem blockAt_setBlock_self (s : State) (k : Nat) (u : Block) : (s.setBlock k u).blockAt k = u := by
  simp [blockAt_setBlock]

theorem blockAt_onBlock (s : State) (f : Block → Block) (j : Nat) :
    (s.onBlock f).blockAt j = if j = s.sel then f s.block else s.blockAt j :=
  blockAt_setBlock _ _ _ _

@[simp] theorem block_onBlock (s : State) (f : Block → Block) : (s.onBlock f).block = f s.block := by
  show (s.onBlock f).blockAt s.sel = _
  rw [blockAt_onBlock, if_pos rfl]

theorem blockAt_addressed (s : State) (k j : Nat) :
    (s.addressed k).blockAt j = if j = k then { s.blockAt k with touched := true } else s.blockAt j :=
  blockAt_onBlock _ _ _

@[simp] theorem block_addressed (s : State) (k : Nat) : (s.addressed k).block = { s.blockAt k with touched := true } := by
  show (s.addressed k).blockAt k = _
  rw [blockAt_addressed, if_pos rfl]

/-! ### Host state -/

theorem pinBoundAt_bindPin (s : State) (p q : Nat) : (s.bindPin p).pinBoundAt q = if q = p then true else s.pinBoundAt q := by
  simp only [State.pinBoundAt, State.bindPin, Sparse.get_set]

theorem controllerAt_addController (s : State) (c : Controller) (k : Nat) :
    (s.addController c).controllerAt k = if k = c.sequencerHandle then some c else s.controllerAt k := by
  simp only [State.controllerAt, State.addController, Sparse.get_set]

theorem contextAt_setContext (s : State) (j i : Nat) (h : HostContext) :
    (s.setContext j h).contextAt i = if i = j then h else s.contextAt i :=
  Sparse.get_set _ _ _ _ _

theorem contextAt_onContext (s : State) (j i : Nat) (f : HostContext → HostContext) :
    (s.onContext j f).contextAt i = if i = j then f (s.contextAt j) else s.contextAt i :=
  contextAt_setContext _ _ _ _

theorem contextAt_reachStage (s : State) (j i : Nat) (c : InitCall) (st : InitStage) :
    (s.reachStage j c st).contextAt i =
      if i = j then { s.contextAt j with call := some { c with stage := st } } else s.contextAt i :=
  contextAt_onContext _ _ _ _

theorem contextAt_raiseConfigError (s : State) (j i : Nat) (r : InitResult) :
    (s.raiseConfigError j r).contextAt i = if i = j then { s.contextAt j with result := some r } else s.contextAt i :=
  contextAt_onContext _ _ _ _

/-- A context goes on with what it had to do, then with what was asked of it, in the order of asking. -/
theorem contextAt_asked (s : State) (asks : List (Nat × HostOp)) (j : Nat) :
    (s.asked asks).contextAt j =
      { s.contextAt j with ops := (s.contextAt j).ops ++ (asks.filter fun a => a.1 = j).map Prod.snd } := by
  induction asks generalizing s with
  | nil => simp
  | cons a asks ih =>
    rw [asked_cons, ih, contextAt_onContext]
    by_cases h : j = a.1
    · subst h; simp
    · simp [h, Ne.symm h]

/-! ### The canonical form of the whole state -/

theorem State.wf_setBlock (s : State) (k : Nat) (u : Block) (h : s.wf = true) : (s.setBlock k u).wf = true := by
  simp only [State.wf, Bool.and_eq_true] at h ⊢
  exact ⟨⟨⟨⟨h.1.1.1.1, Sparse.wf_set _ _ _ _ h.1.1.1.2⟩, h.1.1.2⟩, h.1.2⟩, h.2⟩

theorem State.wf_bindPin (s : State) (p : Nat) (h : s.wf = true) : (s.bindPin p).wf = true := by
  simp only [State.wf, State.bindPin, Bool.and_eq_true] at h ⊢
  exact ⟨⟨⟨h.1.1.1, Sparse.wf_set _ _ _ _ h.1.1.2⟩, h.1.2⟩, h.2⟩

theorem State.wf_addController (s : State) (c : Controller) (h : s.wf = true) : (s.addController c).wf = true := by
  simp only [State.wf, State.addController, Bool.and_eq_true] at h ⊢
  exact ⟨⟨h.1.1, Sparse.wf_set _ _ _ _ h.1.2⟩, h.2⟩

theorem State.wf_onContext (s : State) (j : Nat) (f : HostContext → HostContext) (h : s.wf = true) : (s.onContext j f).wf = true := by
  simp only [State.wf, State.onContext, State.setContext, Bool.and_eq_true] at h ⊢
  exact ⟨h.1, Sparse.wf_set _ _ _ _ h.2⟩

theorem State.wf_asked (s : State) (asks : List (Nat × HostOp)) (h : s.wf = true) : (s.asked asks).wf = true := by
  induction asks generalizing s with
  | nil => exact h
  | cons a asks ih => exact ih _ (State.wf_onContext _ _ _ h)

end Sys2Proof.Machine
end

