-- ==== Sys2Proof/Laws/Exec.lean ====
section
/-! SUPPORT. What an instruction can do, said once: every meaning changes one instance or is refused (`exec_eq_effect`). -/

namespace Sys2Proof.Machine

/-- An instruction as a function of the instance it acts on. -/
def effect : Instr → Block → Except Refusal Block
  | .fetch ss, u => .ok { u with
      scr := if u.tqValid then u.tqData else u.x, tqValid := false, pin := ss.getD u.pin, pc := u.pc + 1 }
  | .latch ss, u => .ok { u with x := u.scr, pin := ss.getD u.pin, pc := u.pc + 1 }
  | .reload ss, u => .ok { u with y := u.period, pin := ss.getD u.pin, pc := u.pc + 1 }
  | .compare tgt ss, u =>
    match target tgt with
    | some a => .ok { u with pin := ss.getD u.pin, pc := if u.x = u.y then u.pc + 1 else a }
    | none => .error .reservedMicroWord
  | .nop ss, u => .ok { u with pin := ss.getD u.pin, pc := u.pc + 1 }
  | .decrement tgt ss, u =>
    match target tgt with
    | some a => .ok { u with y := u.y - 1, pin := ss.getD u.pin, pc := if u.y - 1 = 0 then u.pc + 1 else a }
    | none => .error .reservedMicroWord
  | .ldper ss, u => .ok { u with period := u.scr, pin := ss.getD u.pin }
  | .enqueue v, u => .ok { u with tqData := v, tqValid := true }
  | .exec i, u =>
    match decodeMicro i with
    | .error _ => .error .reservedMicroWord
    | .ok op =>
      match oneShot op with
      | none => .error .execNotAdmitted
      | some act => if u.run then .error .execWhileRunning else .ok (act u)
  | .activate, u => .ok { u with run := true }

/-- Every meaning is its effect on the instance the step acts on, and nothing else. -/
theorem exec_eq_effect (i : Instr) (s : State) :
    exec i s = match effect i s.block with
      | .ok v => .next (s.setBlock s.sel v)
      | .error r => .refused r := by
  cases i with
  | fetch ss => simp [exec, execFetch, effect, State.onBlock, Block.fetchQueue_eq, Block.sideSet_eq, Block.advance]
  | latch ss => simp [exec, execLatch, effect, State.onBlock, Block.move, Block.sideSet_eq, Block.advance]
  | reload ss => simp [exec, execReload, effect, State.onBlock, Block.move, Block.sideSet_eq, Block.advance]
  | compare tgt ss =>
    simp only [exec, execCompare, effect]
    cases target tgt with
    | none => rfl
    | some a =>
      by_cases h : s.block.x = s.block.y <;>
        simp [State.onBlock, Block.sideSet_eq, Block.branch_eq, Block.thresholdMissed, h]
  | nop ss => simp [exec, execNop, effect, State.onBlock, Block.sideSet_eq, Block.advance]
  | decrement tgt ss =>
    simp only [exec, execDecrement, effect]
    cases target tgt with
    | none => rfl
    | some a =>
      simp [State.onBlock, Block.sideSet_eq, Block.branch_eq, Block.stillCounting, Block.countedDown]
  | ldper ss => simp [exec, execLdper, effect, State.onBlock, Block.loadPeriod_eq, Block.sideSet_eq]
  | enqueue v => rfl
  | exec i =>
    simp only [exec, execExec, effect]
    cases decodeMicro i with
    | error e => rfl
    | ok op =>
      dsimp only
      cases oneShot op with
      | none => rfl
      | some act => cases s.block.run <;> rfl
  | activate => rfl

/-- If an instruction answers a next state, that state differs in the instance the step acts on alone. -/
theorem exec_next (i : Instr) (s t : State) (h : exec i s = .next t) :
    ∃ v, effect i s.block = .ok v ∧ t = s.setBlock s.sel v := by
  rw [exec_eq_effect] at h
  cases he : effect i s.block with
  | error r => simp [he] at h
  | ok v => exact ⟨v, rfl, by simpa [he] using h.symm⟩

/-- What the one-shot form of an operation does (R111), where there is one. -/
theorem oneShot_cases (op : Instr) (act : Block → Block) (h : oneShot op = some act) :
    (∃ ss, op = .fetch ss ∧ act = fun u => u.fetchQueue.sideSet ss) ∨
      (∃ ss, op = .ldper ss ∧ act = fun u => u.loadPeriod.sideSet ss) := by
  cases op <;> simp_all [oneShot, eq_comm]

/-- Decoding format M gives micro-operations only. -/
theorem decodeMicro_isMicro (w : Byte) (i : Instr) (h : decodeMicro w = .ok i) : i.isMicro = true := by
  unfold decodeMicro at h
  split at h
  · simp at h
  · unfold decodeOperation at h
    split at h <;> simp only [withTarget, withoutTarget, reduceCtorEq] at h
    all_goals (split at h <;> cases h; rfl)

end Sys2Proof.Machine
end

