-- ==== Sys2Proof/Laws/PerInstr.lean ====
section
/-! SUPPORT. The families of statements made of every instruction (LAWS.json). -/

namespace Sys2Proof.Laws.TableBits

/-- The mask of the instruction's row in spec/opcode_table.json: the bits that row fixes. -/
def mask : Instr → Nat
  | .fetch _ => 0xE7
  | .latch _ => 0xE7
  | .reload _ => 0xE7
  | .compare _ _ => 0xE0
  | .nop _ => 0xE7
  | .decrement _ _ => 0xE0
  | .ldper _ => 0xE7
  | .enqueue _ => 0x300000000
  | .exec _ => 0x3FFFFFF00
  | .activate => 0x3FFFFFFFF

/-- The match value of the instruction's row in spec/opcode_table.json. -/
def value : Instr → Nat
  | .fetch _ => 0x00
  | .latch _ => 0x20
  | .reload _ => 0x40
  | .compare _ _ => 0x60
  | .nop _ => 0x80
  | .decrement _ _ => 0xA0
  | .ldper _ => 0xC0
  | .enqueue _ => 0x000000000
  | .exec _ => 0x100000000
  | .activate => 0x200000000

/-- The instruction's word has the bits that its row of the opcode table fixes. -/
def Statement (i : Instr) : Prop := (encode i).toNat &&& mask i = value i

/-- A format-M word's low three bits and top three bits are its target and its operation. -/
theorem packMicro_bits (op : BitVec 3) (ss : SideSet) (tgt : BitVec 3) :
    (packMicro op ss tgt).toNat &&& 0xE0 = op.toNat <<< 5 ∧
      (tgt = 0 → (packMicro op ss tgt).toNat &&& 0xE7 = op.toNat <<< 5) := by
  revert op tgt
  rcases ss with _ | _ | _ <;> decide

theorem fetch (ss : SideSet) : Statement (.fetch ss) := (packMicro_bits 0 ss 0).2 rfl
theorem latch (ss : SideSet) : Statement (.latch ss) := (packMicro_bits 1 ss 0).2 rfl
theorem reload (ss : SideSet) : Statement (.reload ss) := (packMicro_bits 2 ss 0).2 rfl
theorem compare (tgt : BitVec 3) (ss : SideSet) : Statement (.compare tgt ss) := (packMicro_bits 3 ss tgt).1
theorem nop (ss : SideSet) : Statement (.nop ss) := (packMicro_bits 4 ss 0).2 rfl
theorem decrement (tgt : BitVec 3) (ss : SideSet) : Statement (.decrement tgt ss) := (packMicro_bits 5 ss tgt).1
theorem ldper (ss : SideSet) : Statement (.ldper ss) := (packMicro_bits 6 ss 0).2 rfl

theorem enqueue (v : Word) : Statement (.enqueue v) := by
  have h : packCommand 0 v &&& 0x300000000#34 = 0#34 := by
    apply BitVec.eq_of_getLsbD_eq
    intro i hi
    by_cases h : i < 32
    · have : (0x300000000#34).getLsbD i = false := by
        revert h; revert i; decide
      simp [this]
    · have : v.getLsbD i = false := v.getLsbD_of_ge i (by omega)
      simp [packCommand, this]
  have := congrArg BitVec.toNat h
  rwa [BitVec.toNat_and] at this

theorem exec (i : Byte) : Statement (.exec i) := by
  unfold Statement
  revert i
  decide

theorem activate : Statement .activate := rfl

end Sys2Proof.Laws.TableBits
end

