-- ==== Sys2Proof/Laws/Step.lean ====
section
/-! SUPPORT. What a step can do, said once (`step_cases`). -/

namespace Sys2Proof.Machine

/-- The state after the instruction `i` has acted on instance `k`, from a state `s` in which whose turn it is has been settled. -/
def Acted (i : Instr) (k : Nat) (s t : State) : Prop :=
  ∃ v, effect i (s.blockAt k) = .ok v ∧ t = (s.select k).setBlock k v

theorem exec_select (i : Instr) (k : Nat) (s t : State) (h : exec i (s.select k) = .next t) : Acted i k s t := by
  obtain ⟨v, hv, ht⟩ := exec_next i _ t h
  exact ⟨v, hv, ht⟩

/-- What a sequencer's turn can do: pass, or execute the word at its `pc`. -/
theorem seqTurn_cases (k : Nat) (s t : State) (h : seqTurn k s = .next t) :
    k < Config.nSeq ∧
      (((s.blockAt k).run = false ∧ t = s.select k) ∨
        ((s.blockAt k).run = true ∧ ∃ w i, s.romRead (s.blockAt k).pc.val = .ok w ∧ decodeMicro w = .ok i ∧ Acted i k s t)) := by
  unfold seqTurn at h
  split at h
  · next hk =>
    refine ⟨hk, ?_⟩
    split at h
    · next hr =>
      right
      refine ⟨hr, ?_⟩
      split at h
      · cases h
      · next w hw =>
        split at h
        · cases h
        · next i hi => exact ⟨w, i, hw, hi, exec_select i k s t h⟩
    · next hr =>
      left
      exact ⟨by simpa using hr, by simpa using h.symm⟩
  · cases h

/-- Decoding format H gives host commands only. -/
theorem decodeCommand_cases (c : CommandWord) (i : Instr) (h : decodeCommand c = .ok i) :
    (∃ v, i = .enqueue v) ∨ (∃ w, i = .exec w) ∨ i = .activate := by
  unfold decodeCommand at h
  split at h
  · cases h; exact .inl ⟨_, rfl⟩
  · unfold decodeExec at h
    split at h
    · split at h
      · cases h; exact .inr (.inl ⟨_, rfl⟩)
      · cases h
    · cases h
  · split at h
    · cases h; exact .inr (.inr rfl)
    · cases h
  · cases h

/-- What a host command does when it is not refused: `i` acts on the instance it is addressed to, which counts as touched. -/
def Commanded (i : Instr) (k : Nat) (s t : State) : Prop :=
  ∃ v, effect i { s.blockAt k with touched := true } = .ok v ∧ t = (s.addressed k).setBlock k v

theorem exec_addressed (i : Instr) (k : Nat) (s t : State) (h : exec i (s.addressed k) = .next t) : Commanded i k s t := by
  obtain ⟨v, hv, ht⟩ := exec_next i _ t h
  rw [block_addressed] at hv
  exact ⟨v, hv, ht⟩

/-- Step 4 of `initialize`, called by context `j`: what the checks passed mean, and the state after the binding. -/
def Bound (N P j : Nat) (a : InitArgs) (s t : State) : Prop :=
  0 ≤ a.pin ∧ a.pin.toNat < P ∧ 0 < a.countFrequency ∧ 0 ≤ a.sequencerId ∧ a.sequencerId.toNat < N ∧
    (s.blockAt a.sequencerId.toNat).run = false ∧ (s.blockAt a.sequencerId.toNat).touched = false ∧
    s.pinBoundAt a.pin.toNat = false ∧ (0 ≤ a.maxCount ∧ a.maxCount.toNat ≤ Config.maxCountLimit) ∧
    t = (((s.onContext j fun h => { h with call := some ⟨a.sequencerId.toNat, a.pin.toNat, a.maxCount.toNat, .enqueue⟩ }).bindPin
          a.pin.toNat).addressed a.sequencerId.toNat).setBlock a.sequencerId.toNat
            { s.blockAt a.sequencerId.toNat with touched := true, cfgPin := a.pin.toNat, cfgClk := 2 * a.countFrequency.toNat }

theorem initBegin_cases (N P j : Nat) (a : InitArgs) (s t : State) (h : initBegin N P j a s = .next t) :
    (∃ r, t = s.raiseConfigError j r) ∨ Bound N P j a s t := by
  unfold initBegin at h
  split at h
  · cases h
  · next hpin =>
    split at h
    · cases h
    · next hf =>
      split at h
      · cases h; exact .inl ⟨_, rfl⟩
      · next hid =>
        split at h
        · cases h
        · next hfr =>
          split at h
          · cases h; exact .inl ⟨_, rfl⟩
          · next hb =>
            split at h
            · cases h; exact .inl ⟨_, rfl⟩
            · next hm =>
              right
              have hfr' : (s.blockAt a.sequencerId.toNat).run = false ∧ (s.blockAt a.sequencerId.toNat).touched = false := by
                simpa [Block.fresh] using hfr
              simp only [Decidable.not_not] at hpin hf hid hm
              refine ⟨hpin.1, hpin.2, hf, hid.1, hid.2, hfr'.1, hfr'.2, by simpa using hb, hm, ?_⟩
              simp only [Host.Outcome.next.injEq] at h
              rw [← h]
              simp [State.onBlock]

/-- The instruction a stage of `initialize` executes, and the stage that follows; `finish` executes none. -/
def stageInstr (c : InitCall) : Option (Instr × InitStage) :=
  match c.stage with
  | .enqueue => some (.enqueue (encW c.maxCount), .fetch)
  | .fetch => some (.exec 0x00, .ldper)
  | .ldper => some (.exec 0xC0, .activate)
  | .activate => some (.activate, .finish)
  | .finish => none

/-- The state after step 9 of the call `c` of context `j`. -/
def finished (s : State) (j : Nat) (c : InitCall) : State :=
  (s.onContext j fun h => { h with call := none, result := some .success }).addController ⟨c.sequencerId, c.maxCount, c.pin⟩

/-- A stage of `initialize` executes its instruction, or is the last. -/
theorem initContinue_eq (j : Nat) (c : InitCall) (s : State) :
    (∃ i st, stageInstr c = some (i, st) ∧ initContinue j c s = exec i ((s.reachStage j c st).addressed c.sequencerId)) ∨
      (c.stage = .finish ∧ initContinue j c s = .next (finished s j c)) := by
  unfold initContinue stageInstr
  cases c.stage
  case finish => exact .inr ⟨rfl, rfl⟩
  all_goals exact .inl ⟨_, _, rfl, rfl⟩

theorem initContinue_cases (j : Nat) (c : InitCall) (s t : State) (h : initContinue j c s = .next t) :
    (∃ i st, stageInstr c = some (i, st) ∧ Commanded i c.sequencerId (s.reachStage j c st) t) ∨
      (c.stage = .finish ∧ t = finished s j c) := by
  rcases initContinue_eq j c s with ⟨i, st, hi, he⟩ | ⟨hf, he⟩ <;> rw [he] at h
  · exact .inl ⟨i, st, hi, exec_addressed _ _ _ _ h⟩
  · exact .inr ⟨hf, by simpa using h.symm⟩

/-- What the host's turn in context `j` can do, with `s'` for the state in which the context has taken its next operation. -/
theorem hostTurn_cases (j : Nat) (s t : State) (h : hostTurn j s = .next t) :
    ((s.contextAt j).call = none ∧ (s.contextAt j).ops = [] ∧ t = s) ∨
    (∃ c i st, (s.contextAt j).call = some c ∧ stageInstr c = some (i, st) ∧ Commanded i c.sequencerId (s.reachStage j c st) t) ∨
    (∃ c, (s.contextAt j).call = some c ∧ c.stage = .finish ∧ t = finished s j c) ∨
    (∃ op ops s', (s.contextAt j).call = none ∧ (s.contextAt j).ops = op :: ops ∧ s' = s.onContext j (fun h => { h with ops := ops }) ∧
      ((∃ k w i, op = .command k w ∧ k < Config.nSeq ∧ decodeCommand w = .ok i ∧ Commanded i k s' t) ∨
      (∃ k v c, op = .setDuty k v ∧ s.controllerAt k = some c ∧ Commanded (.enqueue (encW (clamp v c.maxCount))) c.sequencerHandle s' t) ∨
      (∃ a, op = .initChannel a ∧ ((∃ r, t = s'.raiseConfigError j r) ∨ Bound Config.nSeq Config.nPin j a s' t)))) := by
  unfold hostTurn at h
  split at h
  · next c hc =>
    rcases initContinue_cases j c s t h with ⟨i, st, h1, h2⟩ | h2
    · exact .inr (.inl ⟨c, i, st, hc, h1, h2⟩)
    · exact .inr (.inr (.inl ⟨c, hc, h2⟩))
  · next hc =>
    split at h
    · next hh => exact .inl ⟨hc, hh, by simpa using h.symm⟩
    · next op ops hh =>
      refine .inr (.inr (.inr ⟨op, ops, _, hc, hh, rfl, ?_⟩))
      unfold hostOp at h
      split at h
      · next k w =>
        unfold commandTurn at h
        split at h
        · next hk =>
          split at h
          · cases h
          · next i hi => exact .inl ⟨k, w, i, rfl, hk, hi, exec_addressed _ _ _ _ h⟩
        · cases h
      · next k v =>
        unfold setDutyTurn at h
        split at h
        · cases h
        · next c hcon => exact .inr (.inl ⟨k, v, c, rfl, hcon, exec_addressed _ _ _ _ h⟩)
      · next a => exact .inr (.inr ⟨a, rfl, initBegin_cases _ _ _ _ _ _ h⟩)

/-- A step is a sequencer's turn or the host's in one of its contexts, with that turn used up. -/
theorem step_cases (s t : State) (h : step s = .next t) :
    (∃ k, s.turnOf = .seq k ∧ seqTurn k s.turnUsed = .next t) ∨ (∃ j, s.turnOf = .host j ∧ hostTurn j s.turnUsed = .next t) := by
  unfold step systemStep turn at h
  split at h
  · next j hj => exact .inr ⟨j, hj, h⟩
  · next k hk => exact .inl ⟨k, hk, h⟩

theorem turnOf_cons (s : State) (who : Agent) (rest : List Agent) (h : s.schedule = who :: rest) : s.turnOf = who := by
  unfold State.turnOf
  rw [h]

theorem turnOf_nil (s : State) (h : s.schedule = []) : s.turnOf = .seq (rotaNext s.sel) := by
  unfold State.turnOf
  rw [h]

/-! ### Runs of several steps -/

theorem core_run_zero (s : State) : core.run 0 s = .next s := rfl

/-- A run whose first step gives a next state goes on from there. -/
theorem core_run_next (n : Nat) (s t : State) (h : step s = .next t) : core.run (n + 1) s = core.run n t := by
  have h' : core.step s = .next t := h
  simp only [Host.Core.run, h']

end Sys2Proof.Machine
end

