-- ==== Sys2Proof/Tests/Slice0.lean ====
section
/-! SUPPORT. Small tests on fixed values, and for every obligation with hypotheses a concrete case that meets them. Expected values come
from spec/30_encoding.md and from the tables V1 to V9 of spec/95_test_vectors.md. -/

namespace Sys2Proof.Tests

open Sys2Proof.Machine

/-! ### WellFormed: an ill-formed term for each check -/

theorem test_wf_compare_target_6 : (Instr.compare 6 none).wellFormed = false := by decide
theorem test_wf_decrement_target_7 : (Instr.decrement 7 (some true)).wellFormed = false := by decide
theorem test_wf_exec_operation_7 : (Instr.exec 0xE0).wellFormed = false := by decide
theorem test_wf_exec_side_value_without_enable : (Instr.exec 0x08).wellFormed = false := by decide
theorem test_wf_exec_target_without_jump : (Instr.exec 0x21).wellFormed = false := by decide
theorem test_wf_exec_target_6 : (Instr.exec 0x66).wellFormed = false := by decide
theorem test_wf_boundary : (Instr.compare 5 none).wellFormed = true ∧ (Instr.exec 0x65).wellFormed = true := by decide

/-! ### Decoding: words written out bit by bit (R81, R82, R90, R91) -/

theorem test_decode_fetch : decodeMicro 0b000_1_0_000 = .ok (.fetch (some false)) ∧ decodeMicro 0b000_0_0_000 = .ok (.fetch none) ∧
    decodeMicro 0b000_1_1_000 = .ok (.fetch (some true)) := by decide
theorem test_decode_latch : decodeMicro 0b001_0_0_000 = .ok (.latch none) ∧ decodeMicro 0b001_1_1_000 = .ok (.latch (some true)) := by decide
theorem test_decode_reload : decodeMicro 0b010_0_0_000 = .ok (.reload none) ∧ decodeMicro 0b010_1_0_000 = .ok (.reload (some false)) := by decide
theorem test_decode_compare : decodeMicro 0b011_0_0_101 = .ok (.compare 5 none) ∧ decodeMicro 0b011_0_0_000 = .ok (.compare 0 none) := by decide
theorem test_decode_nop : decodeMicro 0b100_1_1_000 = .ok (.nop (some true)) ∧ decodeMicro 0b100_0_0_000 = .ok (.nop none) := by decide
theorem test_decode_decrement : decodeMicro 0b101_0_0_011 = .ok (.decrement 3 none) ∧
    decodeMicro 0b101_1_1_101 = .ok (.decrement 5 (some true)) := by decide
theorem test_decode_ldper : decodeMicro 0b110_0_0_000 = .ok (.ldper none) ∧ decodeMicro 0b110_1_1_000 = .ok (.ldper (some true)) := by decide
theorem test_decode_enqueue : decodeCommand 0b00_00000000_00000000_11111110_00000001 = .ok (.enqueue 65025) := by decide
theorem test_decode_exec : decodeCommand 0b01_00000000_00000000_00000000_10100011 = .ok (.exec 0b10100011) := by decide
theorem test_decode_activate : decodeCommand 0b10_00000000_00000000_00000000_00000000 = .ok .activate := by decide

/-- V1, the reserved words. -/
theorem test_decode_reserved_micro : [0xE0, 0xFF, 0x08, 0x88, 0x21, 0xC5, 0x66, 0xA7].all
    (fun w : Byte => (decodeMicro w).toOption.isNone) = true := by decide

/-- V1, the number of well-formed words. -/
theorem test_decode_51_words : ((List.range 256).filter fun n => microWordOk (BitVec.ofNat 8 n)).length = 51 := by decide

/-- V2, the reserved words. -/
theorem test_decode_reserved_command : [0x1000000E0, 0x100000100, 0x200000001, 0x300000000, 0x3FFFFFFFF].all
    (fun c : CommandWord => (decodeCommand c).toOption.isNone) = true := by decide

/-- V1, V2: encoding. -/
theorem test_encode : encode (.decrement 3 none) = .micro 0xA3 ∧ encode (.nop (some true)) = .micro 0x98 ∧
    encode (.exec 0xC0) = .command 0x1000000C0 ∧ encode (.enqueue 0xFFFFFFFF) = .command 0x0FFFFFFFF ∧
    encode .activate = .command 0x200000000 := by decide

theorem test_decodeTableWord : decodeTableWord 8 0x65 = some (.compare 5 none) ∧ decodeTableWord 40 0x1000000C0 = some (.exec 0xC0) ∧
    decodeTableWord 40 0x0000000A3 = some (.enqueue 0xA3) ∧ decodeTableWord 8 0xE0 = none ∧ decodeTableWord 40 0x400000000 = none := by
  decide

/-- R97, R98: the spelling. -/
theorem test_asm : asm (.decrement 3 none) = some "DECREMENT 3" ∧ asm (.nop (some true)) = some "NOP side 1" ∧
    asm (.exec 0x10) = some "EXEC FETCH side 0" ∧ asm (.enqueue 0xFE01) = some "ENQUEUE 0x0000FE01" := by decide

theorem test_parse : parseMicro ["COMPARE", "5", "side", "1"] = some (.compare 5 (some true)) ∧ parseMicro ["SET_HIGH"] = some (.nop (some true)) ∧
    parseCommand ["EXEC", "FETCH", "side", "0"] = some (.exec 0x10) ∧ parseMicro ["COMPARE", "6"] = none ∧
    parseValue ['0', 'x', 'F', 'e', '0', '1'] = some 65025 ∧ parseValue ['6', '5', '0', '2', '5'] = some 65025 := by decide

/-! ### Instructions, one step each -/

/-- A system whose instance 0 is `u`, with the host's thread about to do `ops`. -/
def one (u : Block) (schedule : List Agent) (ops : List HostOp) : State :=
  { State.reset with blocks := [(0, u)], schedule := schedule, contexts := [(0, { ops := ops, call := none, result := none })] }

theorem one_blockAt (u : Block) (schedule : List Agent) (ops : List HostOp) (k : Nat) :
    (one u schedule ops).blockAt k = if 0 = k then u else Block.reset := rfl

theorem one_contextAt (u : Block) (schedule : List Agent) (ops : List HostOp) (j : Nat) :
    (one u schedule ops).contextAt j = if 0 = j then { ops := ops, call := none, result := none } else HostContext.idle := rfl

/-- The selected instance after a step that gave a next state. -/
def after : Host.Outcome State Fault Refusal → Option Block
  | .next t => some t.block
  | .fault _ => none
  | .refused _ => none

/-- Why a step was refused. -/
def why : Host.Outcome State Fault Refusal → Option Refusal
  | .next _ => none
  | .fault _ => none
  | .refused r => some r

/-- An instance that runs. -/
def live : Block := { Block.reset with run := true, touched := true }

/-- V3, first and second row. -/
theorem test_fetch : after (step (one { live with tqValid := true, tqData := 2, x := 7, scr := 4, pin := true } [.seq 0] [])) =
    some { live with tqValid := false, tqData := 2, x := 7, scr := 2, pin := false, pc := 1 } := by decide
theorem test_fetch_empty : after (step (one { live with tqData := 9, x := 7, scr := 4, pin := true } [.seq 0] [])) =
    some { live with tqData := 9, x := 7, scr := 7, pin := false, pc := 1 } := by decide

/-- V4. -/
theorem test_latch : after (step (one { live with scr := 2, x := 7, pc := 1 } [.seq 0] [])) = some { live with scr := 2, x := 2, pc := 2 } := by decide
theorem test_reload : after (step (one { live with period := 0xFFFF, pc := 2 } [.seq 0] [])) =
    some { live with period := 0xFFFF, y := 0xFFFF, pc := 3 } := by decide
theorem test_nop : after (step (one { live with pc := 4 } [.seq 0] [])) = some { live with pin := true, pc := 5 } := by decide
theorem test_ldper : after (exec (.ldper none) (one { Block.reset with scr := 0xFFFF } [] [])) =
    some { Block.reset with scr := 0xFFFF, period := 0xFFFF } := by decide

/-- V5: all 32 bits are compared; equality falls through. -/
theorem test_compare_differ : after (step (one { live with x := 0x00010001, y := 1, pc := 3 } [.seq 0] [])) =
    some { live with x := 0x00010001, y := 1, pc := 5 } := by decide
theorem test_compare_equal : after (step (one { live with x := 2, y := 2, pc := 3 } [.seq 0] [])) =
    some { live with x := 2, y := 2, pc := 4 } := by decide

/-- V6: the period ends at 1; 0 wraps. -/
theorem test_decrement_last : after (step (one { live with y := 1, pc := 5, pin := true } [.seq 0] [])) =
    some { live with y := 0, pc := 0, pin := true } := by decide
theorem test_decrement_wraps : after (step (one { live with y := 0, pc := 5 } [.seq 0] [])) =
    some { live with y := 0xFFFFFFFF, pc := 3 } := by decide

/-- P1, the rows of the host. -/
theorem test_enqueue : after (step (one Block.reset [.host 0] [.command 0 0x00000FFFF])) =
    some { Block.reset with tqData := 0xFFFF, tqValid := true, touched := true } := by decide
theorem test_exec_fetch : after (step (one { Block.reset with tqData := 0xFFFF, tqValid := true } [.host 0] [.command 0 0x100000000])) =
    some { Block.reset with tqData := 0xFFFF, scr := 0xFFFF, touched := true } := by decide
theorem test_activate : after (step (one Block.reset [.host 0] [.command 0 0x200000000])) = some live := by decide

/-- V2: `EXEC LATCH` decodes and is not admitted; R144: nothing is admitted while the sequencer runs. -/
theorem test_exec_refused : why (step (one Block.reset [.host 0] [.command 0 0x100000020])) = some .execNotAdmitted ∧
    why (step (one live [.host 0] [.command 0 0x100000000])) = some .execWhileRunning ∧
    why (step (one Block.reset [.host 0] [.command 0 0x300000000])) = some .reservedCommand := by decide

/-- The word placed by `withFetchWord` is the one the next step runs, from reset. -/
theorem test_withFetchWord : after (step (State.reset.withFetchWord 8 0x98)) = some { Block.reset with run := true, pin := true, pc := 1 } ∧
    after (step (State.reset.withFetchWord 40 0x0FFFFFFFF)) =
      some { Block.reset with tqData := 0xFFFFFFFF, tqValid := true, touched := true } := by decide

/-! ### Controller operations (V8, V9) -/

theorem test_clamp : clamp (-100) 4 = -1 ∧ clamp 3 4 = 3 ∧ clamp 1000000 4 = 4 ∧ clamp 4294967295 65535 = 65535 := by decide
theorem test_encW : encW (clamp (-5) 65535) = 0xFFFFFFFF ∧ encW (clamp 65025 65535) = 0x0000FE01 := by decide

/-- What a call of `initialize` reports in V9's system. -/
def reported (a : InitArgs) (s : State) : Option InitResult :=
  match initBegin 2 30 0 a s with
  | .next t => (t.contextAt 0).result
  | .fault _ => none
  | .refused _ => none

/-- Pin 5 is bound, as after the sixth call of V9. -/
def bound5 : State := { State.reset with pinBound := [(5, true)] }

theorem test_initialize_errors : reported ⟨2, 5, 100, 1000⟩ State.reset = some .errSeqId ∧ reported ⟨-1, 5, 100, 1000⟩ State.reset = some .errSeqId ∧
    reported ⟨0, 5, 4294967296, 1000⟩ State.reset = some .errMaxCount ∧ reported ⟨0, 5, -1, 1000⟩ State.reset = some .errMaxCount ∧
    reported ⟨7, 5, -1, 1000⟩ State.reset = some .errSeqId ∧ reported ⟨1, 5, 100, 1000⟩ bound5 = some .errPinBound ∧
    reported ⟨1, 5, 4294967296, 1000⟩ bound5 = some .errPinBound ∧ reported ⟨3, 5, 100, 1000⟩ bound5 = some .errSeqId := by decide
theorem test_initialize_binds : after (initBegin 2 30 0 ⟨1, 6, 4294967295, 1000⟩ bound5) =
    some { Block.reset with cfgPin := 6, cfgClk := 2000, touched := true } := by decide

/-- P3, second part: an enqueue, a `FETCH`, and an enqueue one step too late for the period. -/
def p3b : State := one { live with period := 2 } ([.host 0, .seq 0, .host 0] ++ List.replicate 9 (.seq 0))
  [.command 0 0x000000002, .command 0 0x000000001]

/-- P3, second part, rows 1 to 12: what is observed is the sequencer's steps; the enqueue of row 3 is none. -/
theorem test_observed : pinTrace (ownSteps 0 12 p3b) = [false, false, false, false, true, true, true, true, false, false] ∧
    thresholds (ownSteps 0 12 p3b) = [2, 1] ∧ highCounts 2 (ownSteps 0 12 p3b) = [2, 1] := by decide
theorem test_first_period : (firstPeriod (ownSteps 0 12 p3b)).length = periodLength 2 2 ∧
    countLevels (firstPeriod (ownSteps 0 12 p3b)) = [false, true, true] ∧ comparedAt (firstPeriod (ownSteps 0 12 p3b)) = [2, 1] ∧
    matchCount (firstPeriod (ownSteps 0 12 p3b)) = 1 := by decide

/-- R183 at `M = 4`, `T = 2`, and at `T = M + 1`. -/
theorem test_duty : duty 4 2 = 1 / 2 ∧ countStepDuty 4 2 = 2 / 5 ∧ stepDuty 4 2 = 1 / 3 ∧ duty 4 5 = 0 := by
  refine ⟨?_, ?_, ?_, ?_⟩ <;> norm_num [duty, countStepDuty, stepDuty, highSteps, hi, periodLength]

/-- R147: while the thread is in a call of `initialize`, another context sends a command to another instance. -/
theorem test_command_during_call : after (step { one live [.host 1] [] with
      contexts := [(0, { ops := [], call := some ⟨7, 7, 7, .fetch⟩, result := none }), (1, { ops := [.command 0 9], call := none, result := none })] }) =
    some { live with tqData := 9, tqValid := true } := by decide

/-! ### Witnesses: a concrete case that meets the hypotheses of each obligation -/

theorem nSeq_pos : 0 < Config.nSeq := Nat.succ_pos _
theorem nPin_pos : 0 < Config.nPin := Nat.succ_pos _

theorem witness_DecodeOfEncode : (Instr.compare 5 none).wellFormed = true ∧ (Instr.exec 0xBD).wellFormed = true := by decide
theorem witness_EncodeOfDecode : decode (.micro 0xBD) = .ok (.decrement 5 (some true)) ∧
    decode (.command 0x1000000C0) = .ok (.exec 0xC0) := by decide
theorem witness_ProgramSpaceIsFixed : ∃ t, State.reset.prog = State.reset.prog ∧ 6 ≤ 6 ∧ step (one live [.seq 0] []) = .next t :=
  ⟨_, rfl, le_refl 6, rfl⟩
theorem witness_ReloadCopiesPeriodToCounter : encode (.reload none) = .micro 0x40 := by decide
theorem witness_CompareJumpsWhenDifferent : (5 : BitVec 3).toNat < 6 ∧ 6 ≤ (6 : BitVec 3).toNat ∧ encode (.compare 5 none) = .micro 0x65 := by decide
theorem witness_NopOnlyCarriesSideSet : encode (.nop (some true)) = .micro 0x98 := by decide
theorem witness_DecrementCountsAndTestsResult :
    (3 : BitVec 3).toNat < 6 ∧ 6 ≤ (7 : BitVec 3).toNat ∧ encode (.decrement 3 none) = .micro 0xA3 := by decide
theorem witness_ExecFetchOnce : decodeMicro 0x10 = .ok (.fetch (some false)) ∧ State.reset.block.run = false := by decide
theorem witness_ExecLdperOnce : decodeMicro 0xD8 = .ok (.ldper (some true)) ∧ State.reset.block.run = false := by decide
theorem witness_ActivateSetsRun : (one live [] []).block.run = true := rfl

/-- A reserved word has been placed at the `pc`. -/
def misplaced : State := (one live [] []).placeMicro 0xE0

theorem witness_StepRunsDecodedMicro :
    ((one live [.seq 0] []).turnOf = .seq 0 ∧ 0 < Config.nSeq ∧ ((one live [.seq 0] []).blockAt 0).run = true ∧
      (one live [.seq 0] []).romRead ((one live [.seq 0] []).blockAt 0).pc.val = .ok 0x10 ∧ decodeMicro 0x10 = .ok (.fetch (some false))) ∧
    (misplaced.turnOf = .seq 0 ∧ (misplaced.blockAt 0).run = true ∧ misplaced.romRead (misplaced.blockAt 0).pc.val = .ok 0xE0 ∧
      (decodeMicro 0xE0).toOption = none) ∧
    (one live [.seq 0] []).schedule = .seq 0 :: [] ∧ (one live [] []).schedule = [] :=
  ⟨⟨rfl, nSeq_pos, rfl, rfl, by decide⟩, ⟨rfl, rfl, rfl, by decide⟩, rfl, rfl⟩
theorem witness_StepRunsHostCommand : (∀ w, (one live [.host 0] [.command 0 w]).schedule = .host 0 :: [] ∧
      ((one live [.host 0] [.command 0 w]).contextAt 0).call = none ∧
      ((one live [.host 0] [.command 0 w]).contextAt 0).ops = .command 0 w :: []) ∧ 0 < Config.nSeq ∧
    decodeCommand 0x00000FFFF = .ok (.enqueue 0xFFFF) ∧ (decodeCommand 0x300000000).toOption = none :=
  ⟨fun _ => ⟨rfl, rfl, rfl⟩, nSeq_pos, by decide, by decide⟩
theorem witness_IdleTurnsPass : ((one Block.reset [.seq 0] []).turnOf = .seq 0 ∧ 0 < Config.nSeq ∧
      ((one Block.reset [.seq 0] []).blockAt 0).run = false) ∧
    ((one Block.reset [.host 0] []).schedule = .host 0 :: [] ∧ ((one Block.reset [.host 0] []).contextAt 0).call = none ∧
      ((one Block.reset [.host 0] []).contextAt 0).ops = []) :=
  ⟨⟨rfl, nSeq_pos, rfl⟩, rfl, rfl, rfl⟩
theorem witness_SequencerIsTheStateMachine : (one live [.seq 0] []).turnOf = .seq 0 ∧ 0 < Config.nSeq ∧ (one live [.seq 0] []).prog = [] ∧
    ((one live [.seq 0] []).blockAt 0).run = true := ⟨rfl, nSeq_pos, rfl, rfl⟩

theorem witness_StepTouchesOneInstance : ∃ t, step (one live [.seq 0] []) = .next t ∧ 1 ≠ t.sel := ⟨_, rfl, by decide⟩
theorem witness_SequencerReadsOnlyItsInstance : ∃ t, (one live [] []).prog = (one live [.host 0] [.setDuty 0 5]).prog ∧
    (one live [] []).blockAt 0 = (one live [.host 0] [.setDuty 0 5]).blockAt 0 ∧ seqTurn 0 (one live [] []) = .next t := ⟨_, rfl, rfl, rfl⟩
theorem witness_RunPeriodAndThresholdHaveTheirWriters : ∃ t, step (one { live with scr := 2, x := 7, pc := 1 } [.seq 0] []) = .next t ∧
    ((one { live with scr := 2, x := 7, pc := 1 } [.seq 0] []).blockAt 0).run = true ∧
    (one { live with scr := 2, x := 7, pc := 1 } [.seq 0] []).prog = [] ∧
    (t.blockAt 0).x ≠ ((one { live with scr := 2, x := 7, pc := 1 } [.seq 0] []).blockAt 0).x := ⟨_, rfl, rfl, rfl, by decide⟩

/-- Every instance but one is reset, so the phase invariant is a matter of that one. -/
theorem phaseInv_one (u : Block) (schedule : List Agent) (ops : List HostOp) (h : u.PhaseOk) : PhaseInv (one u schedule ops) := by
  refine ⟨rfl, fun k => ?_⟩
  rw [one_blockAt]
  split
  · exact h
  · exact ⟨by decide, by decide, by decide, by decide, by decide, by decide⟩

theorem witness_CounterAndScratchHaveTheirWriters :
    (∃ t, PhaseInv (one { live with period := 4, y := 3, x := 2, pc := 5 } [.seq 0] []) ∧
      step (one { live with period := 4, y := 3, x := 2, pc := 5 } [.seq 0] []) = .next t ∧
      (t.blockAt 0).y ≠ ((one { live with period := 4, y := 3, x := 2, pc := 5 } [.seq 0] []).blockAt 0).y) ∧
    (∃ t, PhaseInv (one { live with period := 4, pc := 2 } [.seq 0] []) ∧ step (one { live with period := 4, pc := 2 } [.seq 0] []) = .next t ∧
      (t.blockAt 0).y ≠ ((one { live with period := 4, pc := 2 } [.seq 0] []).blockAt 0).y) ∧
    ∃ t, PhaseInv (one { live with x := 2 } [.seq 0] []) ∧ step (one { live with x := 2 } [.seq 0] []) = .next t ∧
      (t.blockAt 0).scr ≠ ((one { live with x := 2 } [.seq 0] []).blockAt 0).scr ∧
      ((one { live with x := 2 } [.seq 0] []).blockAt 0).run = true :=
  ⟨⟨_, phaseInv_one _ _ _ ⟨by decide, by decide, by decide, by decide, by decide, by decide⟩, rfl, by decide⟩,
    ⟨_, phaseInv_one _ _ _ ⟨by decide, by decide, by decide, by decide, by decide, by decide⟩, rfl, by decide⟩,
    ⟨_, phaseInv_one _ _ _ ⟨by decide, by decide, by decide, by decide, by decide, by decide⟩, rfl, by decide⟩⟩
theorem witness_EdgesOnlyAtTheirStates :
    (∃ t, (one { live with pc := 4 } [.seq 0] []).prog = [] ∧ step (one { live with pc := 4 } [.seq 0] []) = .next t ∧
      ((one { live with pc := 4 } [.seq 0] []).blockAt 0).run = true ∧ RisingEdge 0 (one { live with pc := 4 } [.seq 0] []) t) ∧
    ∃ t, step (one { live with pin := true } [.seq 0] []) = .next t ∧ FallingEdge 0 (one { live with pin := true } [.seq 0] []) t :=
  ⟨⟨_, rfl, rfl, rfl, rfl, rfl⟩, ⟨_, rfl, rfl, rfl⟩⟩
theorem witness_EachAgentWritesWhatItOwns :
    (∃ t, (one live [.seq 0] []).turnOf = .seq 0 ∧ step (one live [.seq 0] []) = .next t) ∧
    ∃ t, (one live [.host 0] [.command 0 0x00000FFFF]).turnOf = .host 0 ∧ step (one live [.host 0] [.command 0 0x00000FFFF]) = .next t ∧
      ((one live [.host 0] [.command 0 0x00000FFFF]).blockAt 0).run = true ∧ 1 ≠ 0 := ⟨⟨_, rfl, rfl⟩, ⟨_, rfl, rfl, rfl, by decide⟩⟩

/-- P3, first part: two enqueues before a fetch. -/
def p3 : State := one { live with period := 4, x := 1, scr := 1 } [.host 0, .host 0, .seq 0]
  [.command 0 (packCommand 0 3), .command 0 (packCommand 0 2)]

/-- The same, the second of them by another context. -/
def p3two : State := { one { live with period := 4, x := 1, scr := 1 } [.host 0, .host 1, .seq 0] [] with
  contexts := [(0, { ops := [.command 0 (packCommand 0 3)], call := none, result := none }),
    (1, { ops := [.command 0 (packCommand 0 2)], call := none, result := none })] }

theorem witness_FetchSeesLastEnqueue : (0 < Config.nSeq ∧ p3.prog = [] ∧ (p3.contextAt 0).call = none ∧ (p3.blockAt 0).run = true ∧
      (p3.blockAt 0).pc = 0 ∧ (p3.contextAt 0).ops = ([3] ++ [2]).map (fun a => HostOp.command 0 (packCommand 0 a)) ∧
      p3.schedule = List.replicate ([3].length + 1) (Agent.host 0) ++ Agent.seq 0 :: []) ∧
    0 ≠ 1 ∧ p3two.prog = [] ∧ (p3two.contextAt 0).call = none ∧ (p3two.contextAt 1).call = none ∧ (p3two.blockAt 0).run = true ∧
      (p3two.blockAt 0).pc = 0 ∧ (p3two.contextAt 0).ops = .command 0 (packCommand 0 3) :: [] ∧
      (p3two.contextAt 1).ops = .command 0 (packCommand 0 2) :: [] ∧ p3two.schedule = .host 0 :: .host 1 :: .seq 0 :: [] :=
  ⟨⟨nSeq_pos, rfl, rfl, rfl, rfl, rfl, rfl⟩, by decide, rfl, rfl, rfl, rfl, rfl, rfl, rfl, rfl⟩

/-- One enqueue and one turn of the sequencer, in the order `schedule`. -/
def meet (pc : Fin 6) (schedule : List Agent) : State := one { live with period := 4, x := 1, pc := pc } schedule [.command 0 (packCommand 0 2)]

theorem witness_EnqueueAndFetchEitherOrder : 0 < Config.nSeq ∧ (∀ l, (meet 0 l).prog = [] ∧ ((meet 0 l).contextAt 0).call = none ∧
    ((meet 0 l).blockAt 0).run = true ∧ ((meet 0 l).blockAt 0).pc = 0 ∧
    ((meet 0 l).contextAt 0).ops = HostOp.command 0 (packCommand 0 2) :: []) ∧
    (meet 0 [.host 0, .seq 0]).schedule = .host 0 :: .seq 0 :: [] ∧ (meet 0 [.seq 0, .host 0]).schedule = .seq 0 :: .host 0 :: [] :=
  ⟨nSeq_pos, fun _ => ⟨rfl, rfl, rfl, rfl, rfl⟩, rfl, rfl⟩
theorem witness_EnqueueCommutesOutsideFetch : ∃ t, 0 < Config.nSeq ∧ (meet 5 [.host 0, .seq 0]).prog = [] ∧
    ((meet 5 [.host 0, .seq 0]).contextAt 0).call = none ∧ ((meet 5 [.host 0, .seq 0]).blockAt 0).run = true ∧
    ((meet 5 [.host 0, .seq 0]).blockAt 0).pc ≠ 0 ∧
    ((meet 5 [.host 0, .seq 0]).contextAt 0).ops = HostOp.command 0 (packCommand 0 2) :: [] ∧
    (meet 5 [.host 0, .seq 0]).schedule = .host 0 :: .seq 0 :: [] ∧
    meet 5 [.seq 0, .host 0] = { meet 5 [.host 0, .seq 0] with schedule := .seq 0 :: .host 0 :: [] } ∧
    core.run 2 (meet 5 [.host 0, .seq 0]) = .next t :=
  ⟨_, nSeq_pos, rfl, rfl, rfl, by decide, rfl, rfl, rfl, rfl⟩

/-- The start of a period with `PERIOD = M` and the threshold `T` in `X`, the sequencer having the next `n + 1` turns. -/
def begins (M T : Word) (n : Nat) : State := one { live with period := M, x := T } (List.replicate (n + 1) (.seq 0)) []

theorem begins_PeriodBegins (M T : Word) (n : Nat) : PeriodBegins 0 (begins M T n) := ⟨nSeq_pos, rfl, rfl, rfl, rfl⟩
theorem period_1_0_ends : PeriodEnds (ownSteps 0 5 (begins 1 0 4)) := by unfold PeriodEnds; decide
theorem period_1_1_ends : PeriodEnds (ownSteps 0 6 (begins 1 1 5)) := by unfold PeriodEnds; decide

theorem witness_EmptyFetchKeepsThreshold : PeriodBegins 0 (begins 4 2 1) ∧ ((begins 4 2 1).blockAt 0).tqValid = false ∧
    (begins 4 2 1).schedule = .seq 0 :: .seq 0 :: [] := ⟨begins_PeriodBegins 4 2 1, rfl, rfl⟩

/-- The reset system, with the sequencers taking turns. -/
def rota : Nat → State
  | 0 => State.reset
  | n + 1 => { rota n with sel := rotaNext (rota n).sel }

theorem rotaNext_lt (a : Nat) : rotaNext a < Config.nSeq := by
  unfold rotaNext
  split
  · assumption
  · exact nSeq_pos
theorem rota_idle (n : Nat) : (rota n).schedule = [] ∧ (rota n).blocks = [] ∧ (rota n).prog = [] := by
  induction n with
  | zero => exact ⟨rfl, rfl, rfl⟩
  | succ n ih => exact ih
theorem witness_EveryRunIsWeaklyFair : (∀ n, step (rota n) = .next (rota (n + 1))) ∧ State.reset.schedule = [] ∧ State.reset.prog = [] := by
  refine ⟨fun n => ?_, rfl, rfl⟩
  obtain ⟨hs, hb, -⟩ := rota_idle n
  have hu : (rota n).turnUsed = rota n := by
    unfold State.turnUsed
    rw [hs]
    simp only [List.tail_nil]
    rw [← hs]
  have hr : ∀ k, ((rota n).blockAt k).run = false := fun k => by
    unfold State.blockAt
    rw [hb]
    rfl
  have hw : (rota n).turnOf = .seq (rotaNext (rota n).sel) := by
    unfold State.turnOf
    rw [hs]
  unfold step systemStep turn seqTurn
  rw [hw, hu]
  simp only [rotaNext_lt, hr, if_true]
  rfl

/-- Instance 0 of `fairRun`, `PERIOD = 1`: a pending 3 is fetched and latched, and the host enqueues 3 again before every second step. -/
def fairBlock : Nat → Block
  | 0 => { live with period := 1, x := 7, scr := 7, tqData := 3, tqValid := true }
  | 1 => { live with period := 1, x := 7, scr := 7, tqData := 3, tqValid := true }
  | 2 => { live with period := 1, x := 7, scr := 3, tqData := 3, pc := 1 }
  | 3 => { live with period := 1, x := 7, scr := 3, tqData := 3, tqValid := true, pc := 1 }
  | 4 => { live with period := 1, x := 3, scr := 3, tqData := 3, tqValid := true, pc := 2 }
  | 5 => { live with period := 1, x := 3, scr := 3, tqData := 3, tqValid := true, pc := 2 }
  | 6 => { live with period := 1, x := 3, scr := 3, tqData := 3, tqValid := true, y := 1, pc := 3 }
  | 7 => { live with period := 1, x := 3, scr := 3, tqData := 3, tqValid := true, y := 1, pc := 3 }
  | 8 => { live with period := 1, x := 3, scr := 3, tqData := 3, tqValid := true, y := 1, pc := 5 }
  | 9 => { live with period := 1, x := 3, scr := 3, tqData := 3, tqValid := true, y := 1, pc := 5 }
  | 10 => { live with period := 1, x := 3, scr := 3, tqData := 3, tqValid := true }
  | 11 => { live with period := 1, x := 3, scr := 3, tqData := 3, tqValid := true }
  | 12 => { live with period := 1, x := 3, scr := 3, tqData := 3, pc := 1 }
  | 13 => { live with period := 1, x := 3, scr := 3, tqData := 3, tqValid := true, pc := 1 }
  | n + 14 => fairBlock (n + 4)

/-- The host's thread and the sequencer of instance 0 take turns. -/
def fairWho : Nat → Agent
  | 0 => .host 0
  | 1 => .seq 0
  | n + 2 => fairWho n

/-- Before each of its turns the host decides to enqueue 3: it commands for ever. -/
def fairAsks : Nat → List (Nat × HostOp)
  | 0 => [(0, .command 0 (packCommand 0 3))]
  | 1 => []
  | n + 2 => fairAsks n

/-- An infinite execution in which the host commands for ever. -/
def fairRun (n : Nat) : State := { State.reset with blocks := [(0, fairBlock n)] }

theorem fairRun_turn : ∀ n, turn (fairWho n) ((fairRun n).asked (fairAsks n)) = .next (fairRun (n + 1))
  | 0 => rfl
  | 1 => rfl
  | 2 => rfl
  | 3 => rfl
  | 4 => rfl
  | 5 => rfl
  | 6 => rfl
  | 7 => rfl
  | 8 => rfl
  | 9 => rfl
  | 10 => rfl
  | 11 => rfl
  | 12 => rfl
  | 13 => rfl
  | n + 14 => fairRun_turn (n + 4)
theorem fairWho_alternates : ∀ n, fairWho n = .seq 0 ∨ fairWho (n + 1) = .seq 0
  | 0 => .inr rfl
  | 1 => .inl rfl
  | n + 2 => fairWho_alternates n
theorem fairRun_fair : WeaklyFair fairWho fairRun := by
  intro k n _ hr
  have hk : 0 = k := by
    change (if 0 = k then fairBlock n else Block.reset).run = true at hr
    split at hr
    · assumption
    · cases hr
  subst hk
  rcases fairWho_alternates n with h | h
  · exact ⟨n, le_refl n, h⟩
  · exact ⟨n + 1, Nat.le_succ n, h⟩
theorem witness_FairRunsApplyPendingValue : Execution fairWho fairAsks fairRun ∧ WeaklyFair fairWho fairRun ∧
    (fairRun 0).prog = [] ∧ 0 < Config.nSeq ∧ ((fairRun 0).blockAt 0).run = true ∧ ((fairRun 0).blockAt 0).tqValid = true ∧
    ((fairRun 0).blockAt 0).tqData = 3 := ⟨fairRun_turn, fairRun_fair, rfl, nSeq_pos, rfl, rfl, rfl⟩

/-- The boundaries of `1 <= T <= M` at `M = 1`: matched at `T = 1`, not at 0 and at 2. -/
theorem witness_PeriodWaveform : (∀ T n, PeriodBegins 0 (begins 1 T n)) ∧ (∀ T n, ((begins 1 T n).blockAt 0).period ≠ 0) ∧
    PeriodEnds (ownSteps 0 5 (begins 1 0 4)) ∧ PeriodEnds (ownSteps 0 6 (begins 1 1 5)) ∧ PeriodEnds (ownSteps 0 5 (begins 1 2 4)) :=
  ⟨begins_PeriodBegins 1, fun _ _ => by show (1 : Word) ≠ 0; decide, period_1_0_ends, period_1_1_ends, by unfold PeriodEnds; decide⟩
theorem witness_PeriodReturnsToStart : PeriodBegins 0 (begins 1 1 5) ∧ ((begins 1 1 5).blockAt 0).period ≠ 0 ∧
    PeriodEnds (ownSteps 0 6 (begins 1 1 5)) ∧ (firstPeriod (ownSteps 0 6 (begins 1 1 5))).getLast?.isSome = true ∧
    (begins 1 1 5).schedule = List.replicate (periodLength 1 1) (.seq 0) ++ [] :=
  ⟨begins_PeriodBegins 1 1 5, by decide, period_1_1_ends, by decide, rfl⟩
theorem witness_CounterIsComparedDownToOne : PeriodBegins 0 (begins 1 0 4) ∧ ((begins 1 0 4).blockAt 0).period ≠ 0 ∧
    PeriodEnds (ownSteps 0 5 (begins 1 0 4)) := ⟨begins_PeriodBegins 1 0 4, by decide, period_1_0_ends⟩
theorem witness_CountStepLevels : PeriodBegins 0 (begins 1 1 5) ∧ ((begins 1 1 5).blockAt 0).period ≠ 0 ∧
    PeriodEnds (ownSteps 0 6 (begins 1 1 5)) := ⟨begins_PeriodBegins 1 1 5, by decide, period_1_1_ends⟩
theorem witness_DutyIsStrictlyMonotone : PeriodBegins 0 (begins 1 0 4) ∧ PeriodBegins 0 (begins 1 1 5) ∧
    ((begins 1 0 4).blockAt 0).period ≠ 0 ∧ ((begins 1 1 5).blockAt 0).period = ((begins 1 0 4).blockAt 0).period ∧
    PeriodEnds (ownSteps 0 5 (begins 1 0 4)) ∧ PeriodEnds (ownSteps 0 6 (begins 1 1 5)) ∧
    ((begins 1 0 4).blockAt 0).nextThreshold.toNat < ((begins 1 1 5).blockAt 0).nextThreshold.toNat ∧
    ((begins 1 1 5).blockAt 0).nextThreshold.toNat ≤ ((begins 1 0 4).blockAt 0).period.toNat :=
  ⟨begins_PeriodBegins 1 0 4, begins_PeriodBegins 1 1 5, by decide, rfl, period_1_0_ends, period_1_1_ends, by decide, by decide⟩
theorem witness_OffSentinelStaysLow : PeriodBegins 0 (begins 65535 0xFFFFFFFF 3) ∧
    1 ≤ ((begins 65535 0xFFFFFFFF 3).blockAt 0).period.toNat ∧ ((begins 65535 0xFFFFFFFF 3).blockAt 0).period.toNat ≤ 2 ^ 32 - 2 ∧
    thresholds (ownSteps 0 4 (begins 65535 0xFFFFFFFF 3)) = [BitVec.ofNat 32 (2 ^ 32 - 1)] :=
  ⟨begins_PeriodBegins _ _ _, by decide, by decide, by decide⟩
theorem witness_ZeroPeriodWaveform : (∀ T, PeriodBegins 0 (begins 0 T (2 * 2 ^ 32 + 3)) ∧ ((begins 0 T (2 * 2 ^ 32 + 3)).blockAt 0).period = 0 ∧
    (begins 0 T (2 * 2 ^ 32 + 3)).schedule = List.replicate (2 * 2 ^ 32 + 4) (.seq 0) ++ []) ∧
    ((begins 0 0 0).blockAt 0).nextThreshold = 0 ∧ ((begins 0 1 0).blockAt 0).nextThreshold ≠ 0 :=
  ⟨fun T => ⟨begins_PeriodBegins 0 T _, rfl, (List.append_nil _).symm⟩, rfl, by decide⟩

theorem witness_ClampIsBothBounds : (0 : Int) ≤ 0 ∧ (-2 : Int) < -1 ∧ ((-1 : Int) ≤ -1 ∧ (-1 : Int) ≤ 0) ∧ (0 : Int) < 1 := by decide
theorem witness_ClampLaws : (0 : Int) ≤ 4 ∧ (-1 : Int) ≤ 4 := by decide
theorem witness_EncodingOfRequestsIsInjectiveIff : 2 ^ 32 - 1 < 2 ^ 32 ∧ (-1 : Int) ≤ -1 ∧ (-1 : Int) ≤ (4 : Nat) ∧ 4 ≤ 2 ^ 32 - 2 := by decide

/-- An instance initialised with `max_count = 1` on pin 0, and the host's thread about to do `ops`. -/
def owned (schedule : List Agent) (ops : List HostOp) : State :=
  { one { live with period := 1, scr := 1 } schedule ops with controllers := [(0, some ⟨0, 1, 0⟩)], pinBound := [(0, true)] }

theorem owned_controllerAt (schedule : List Agent) (ops : List HostOp) (k : Nat) (c : Controller)
    (h : (owned schedule ops).controllerAt k = some c) : k = 0 ∧ c = ⟨0, 1, 0⟩ := by
  have h' : (if 0 = k then some (⟨0, 1, 0⟩ : Controller) else none) = some c := h
  split at h'
  · next hk => exact ⟨hk.symm, by simpa using h'.symm⟩
  · cases h'
theorem owned_handles (schedule : List Agent) (ops : List HostOp) (j : Nat) (c : Controller)
    (h : (owned schedule ops).controllerAt j = some c) : c.sequencerHandle = j := by
  obtain ⟨rfl, rfl⟩ := owned_controllerAt _ _ _ _ h
  rfl
theorem owned_contextAt (schedule : List Agent) (ops : List HostOp) (j : Nat) :
    (owned schedule ops).contextAt j = if 0 = j then { ops := ops, call := none, result := none } else HostContext.idle := rfl

/-- The host only calls `set_duty`. -/
def duties (schedule : List Agent) (requests : List Int) : State := owned schedule (requests.map (HostOp.setDuty 0))

theorem duties_commands (schedule : List Agent) (requests : List Int) (j k : Nat) : ¬((duties schedule requests).contextAt j).commands k := by
  rintro ⟨w, h⟩
  unfold duties at h
  rw [owned_contextAt] at h
  split at h
  · simp at h
  · cases h
theorem duties_initialises (schedule : List Agent) (requests : List Int) (j k : Nat) :
    ¬((duties schedule requests).contextAt j).initialises k := by
  unfold duties
  rw [owned_contextAt]
  rintro (⟨c, h, -⟩ | ⟨a, h, -⟩) <;> split at h <;> first | cases h | simp at h
theorem duties_call (schedule : List Agent) (requests : List Int) (j : Nat) (c : InitCall) :
    ((duties schedule requests).contextAt j).call ≠ some c := by
  unfold duties
  rw [owned_contextAt]
  split <;> exact fun h => by cases h
theorem duties_ThroughController (schedule : List Agent) (requests : List Int) : ThroughController 0 (duties schedule requests) :=
  fun j => ⟨duties_commands _ _ j 0, fun c h => absurd h (duties_call _ _ j c)⟩

theorem witness_ThresholdSequence : PeriodBegins 0 (duties [.seq 0, .host 0] [0, 9]) ∧
    ((duties [.seq 0, .host 0] [0, 9]).blockAt 0).period ≠ 0 ∧ (duties [.seq 0, .host 0] [0, 9]).controllerAt 0 = some ⟨0, 1, 0⟩ ∧
    (∀ i d, (duties [.seq 0, .host 0] [0, 9]).controllerAt i = some d → d.sequencerHandle = i) ∧
    ThroughController 0 (duties [.seq 0, .host 0] [0, 9]) ∧ ((duties [.seq 0, .host 0] [0, 9]).contextAt 0).call = none ∧
    ((duties [.seq 0, .host 0] [0, 9]).contextAt 0).ops = [0, 9].map (HostOp.setDuty 0) ∧
    ∀ i, i ≠ 0 → ∀ v, HostOp.setDuty 0 v ∉ ((duties [.seq 0, .host 0] [0, 9]).contextAt i).ops := by
  refine ⟨⟨nSeq_pos, rfl, rfl, rfl, rfl⟩, by decide, rfl, owned_handles _ _, duties_ThroughController _ _, rfl, rfl, ?_⟩
  intro i hi v h
  unfold duties at h
  rw [owned_contextAt, if_neg (Ne.symm hi)] at h
  cases h

theorem witness_SetDutyEnqueuesClampedRequest : (owned [.host 0] [.setDuty 0 (-7)]).schedule = .host 0 :: [] ∧
    ((owned [.host 0] [.setDuty 0 (-7)]).contextAt 0).call = none ∧
    ((owned [.host 0] [.setDuty 0 (-7)]).contextAt 0).ops = .setDuty 0 (-7) :: [] ∧
    (owned [.host 0] [.setDuty 0 (-7)]).controllerAt 0 = some ⟨0, 1, 0⟩ :=
  ⟨rfl, rfl, rfl, rfl⟩

/-- `set_duty(v)` just before a period. -/
def shows (v : Int) : State := owned (.host 0 :: .seq 0 :: List.replicate 5 (.seq 0)) [.setDuty 0 v]

theorem witness_SetDutyShowsInNextPeriod : (∀ v, (shows v).schedule = .host 0 :: .seq 0 :: List.replicate 5 (.seq 0) ∧
      ((shows v).contextAt 0).call = none ∧ ((shows v).contextAt 0).ops = .setDuty 0 v :: [] ∧ 0 < Config.nSeq ∧ (shows v).prog = [] ∧
      ((shows v).blockAt 0).run = true ∧ ((shows v).blockAt 0).pc = 0 ∧ (shows v).controllerAt 0 = some ⟨0, 1, 0⟩ ∧
      (⟨0, 1, 0⟩ : Controller).sequencerHandle = 0 ∧ 1 ≤ (⟨0, 1, 0⟩ : Controller).maxCount ∧
      (⟨0, 1, 0⟩ : Controller).maxCount ≤ 2 ^ 32 - 2 ∧ ((shows v).blockAt 0).period = BitVec.ofNat 32 1) ∧
    (∃ t, step (shows 1) = .next t ∧ PeriodEnds (ownSteps 0 6 t) ∧ (0 : Int) ≤ 1 ∧ (1 : Int) ≤ (1 : Nat)) ∧
    ∃ t, step (shows 0) = .next t ∧ PeriodEnds (ownSteps 0 5 t) ∧ (0 : Int) ≤ 0 ∧ (0 : Int) ≤ (1 : Nat) := by
  refine ⟨fun v => ⟨rfl, rfl, rfl, nSeq_pos, rfl, rfl, rfl, rfl, rfl, by decide, by decide, rfl⟩, ⟨_, rfl, ?_, by decide, by decide⟩,
    ⟨_, rfl, ?_, by decide, by decide⟩⟩ <;> unfold PeriodEnds <;> decide

theorem witness_ConfigErrorsInOrderChangeNothing :
    ((0 : Int) ≤ 29 ∧ (29 : Int) < (30 : Nat) ∧ (0 : Int) < 1) ∧ ((-1 : Int) < 0 ∧ ((2 : Nat) : Int) ≤ 2) ∧
    ((1 : Int) = (1 : Nat) ∧ 1 < 2 ∧ (bound5.blockAt 1).run = false ∧ (bound5.blockAt 1).touched = false) ∧
    (bound5.pinBoundAt (5 : Int).toNat = true ∧ bound5.pinBoundAt (29 : Int).toNat = false ∧ (2 ^ 32 - 1 : Int) < 2 ^ 32) := by decide
theorem witness_InitializeRefusals : ((-1 : Int) < 0 ∧ 30 ≤ (30 : Int)) ∧ ((0 : Int) ≤ 0 ∧ (0 : Int) < (30 : Nat) ∧ (0 : Int) ≤ 0) ∧
    ((0 : Int) < 1 ∧ (0 : Int) = (0 : Nat) ∧ 0 < 2 ∧ ((one live [] []).blockAt 0).run = true ∧
      ((one { Block.reset with touched := true } [] []).blockAt 0).touched = true) := by decide

/-- A call of `initialize` on instance 0. -/
def call0 : HostOp := .initChannel ⟨(0 : Nat), (0 : Nat), (4 : Nat), (1 : Nat)⟩

/-- A reset system with a draw of its own, whose host's thread is about to initialise instance 0. -/
def boots : State := one { Block.reset with x := 7, y := 9 } (List.replicate 6 (Agent.host 0) ++ []) [call0]

theorem boots_AtReset (k : Nat) : (boots.blockAt k).AtReset := by
  unfold boots
  rw [one_blockAt]
  split <;> exact ⟨rfl, rfl, rfl, rfl, rfl⟩
theorem boots_quiet (j : Nat) : (boots.contextAt j).call = none ∧ (boots.contextAt j).result = none ∧ ∀ k, ¬(boots.contextAt j).commands k := by
  unfold boots
  rw [one_contextAt]
  refine ⟨?_, ?_, fun k => ?_⟩ <;> split <;> first | rfl | (rintro ⟨w, h⟩; simp [HostContext.idle, call0] at h)
theorem boots_reset : boots.AtReset := ⟨boots_AtReset, fun _ => rfl, fun _ => rfl, rfl, fun j => ⟨(boots_quiet j).1, (boots_quiet j).2.1⟩⟩
theorem boots_undisturbed : PrimingUndisturbed boots := fun _ j k _ _ => (boots_quiet j).2.2 k

theorem witness_InitializePrimesAndActivates : 0 < Config.nSeq ∧ 0 < Config.nPin ∧ 4 ≤ 2 ^ 32 - 1 ∧ 0 < 1 ∧ (boots.blockAt 0).AtReset ∧
    boots.pinBoundAt 0 = false ∧ (boots.contextAt 0).call = none ∧ (boots.contextAt 0).ops = call0 :: [] ∧
    boots.schedule = List.replicate 6 (Agent.host 0) ++ [] := ⟨nSeq_pos, nPin_pos, by decide, by decide, boots_AtReset 0, rfl, rfl, rfl, rfl⟩
theorem witness_InitializedHasThresholdInv : (0 < Config.nSeq ∧ 0 < Config.nPin ∧ 4 ≤ 2 ^ 32 - 1 ∧ 0 < 1 ∧ (boots.blockAt 0).AtReset ∧
      boots.pinBoundAt 0 = false ∧ (boots.contextAt 0).call = none ∧ (boots.contextAt 0).ops = call0 :: [] ∧
      boots.schedule = List.replicate 6 (Agent.host 0) ++ []) ∧ boots.prog = [] ∧ (∀ w, HostOp.command 0 w ∉ ([] : List HostOp)) ∧
    (∀ i, i ≠ 0 → ¬(boots.contextAt i).commands 0 ∧ ∀ c, (boots.contextAt i).call = some c → c.sequencerId ≠ 0) ∧
    ∀ i c, boots.controllerAt i = some c → c.sequencerHandle = i :=
  ⟨witness_InitializePrimesAndActivates, rfl, fun w h => (by cases h),
    fun i _ => ⟨(boots_quiet i).2.2 0, fun c h => absurd ((boots_quiet i).1.symm.trans h) (by simp)⟩, fun i c h => by cases h⟩

/-- The same system, with another context about to enqueue 9 to the instance after the call's own enqueue. -/
def disturbed : State := { boots with
  contexts := [(0, { ops := [call0], call := none, result := none }), (1, { ops := [.command 0 (packCommand 0 9)], call := none, result := none })]
  schedule := [.host 0, .host 0, .host 1, .host 0, .host 0, .host 0, .host 0] ++ [] }

theorem boots_ChannelInv : ChannelInv boots :=
  ⟨rfl, ⟨fun k c h => (by cases h), fun j k c d h => (by cases h)⟩,
    ⟨fun j c h => absurd ((boots_quiet j).1.symm.trans h) (by simp), fun i j c d _ h => absurd ((boots_quiet i).1.symm.trans h) (by simp)⟩, boots_undisturbed⟩
theorem witness_InterferenceWithPriming : (1 ≠ 0 ∧ 0 < Config.nSeq ∧ 0 < Config.nPin ∧ 4 ≤ 2 ^ 32 - 1 ∧ 0 < 1 ∧ (disturbed.blockAt 0).AtReset ∧
      disturbed.pinBoundAt 0 = false ∧ (disturbed.contextAt 1).call = none ∧
      (disturbed.contextAt 1).ops = .command 0 (packCommand 0 9) :: [] ∧ (disturbed.contextAt 0).call = none ∧
      (disturbed.contextAt 0).ops = call0 :: [] ∧
      disturbed.schedule = [.host 0, .host 0, .host 1, .host 0, .host 0, .host 0, .host 0] ++ []) ∧
    ∃ t, ChannelInv boots ∧ boots.contextAt 0 = { ops := [call0], call := none, result := none } ∧ core.run 6 boots = .next t ∧
      (t.contextAt 0).result = some .success :=
  ⟨⟨by decide, nSeq_pos, nPin_pos, by decide, by decide, boots_AtReset 0, rfl, rfl, rfl, rfl, rfl, rfl⟩, _, boots_ChannelInv, rfl, rfl, rfl⟩

theorem witness_ResetMeetsTheInvariants : boots.AtReset ∧ PrimingUndisturbed boots := ⟨boots_reset, boots_undisturbed⟩
theorem witness_StepKeepsCanonicalForm : ∃ t, (duties [.host 0] [9]).wf = true ∧ step (duties [.host 0] [9]) = .next t := ⟨_, rfl, rfl⟩
theorem witness_StepKeepsPhaseInv : ∃ t, PhaseInv (one { live with period := 4, y := 2, x := 2, pc := 4 } [.seq 0] []) ∧
    step (one { live with period := 4, y := 2, x := 2, pc := 4 } [.seq 0] []) = .next t :=
  ⟨_, phaseInv_one _ _ _ ⟨by decide, by decide, by decide, by decide, by decide, by decide⟩, rfl⟩
theorem duties_ChannelInv (schedule : List Agent) (requests : List Int) : ChannelInv (duties schedule requests) := by
  refine ⟨rfl, ⟨?_, ?_⟩, ⟨fun j c h => absurd h (duties_call _ _ j c), fun i j c d _ h => absurd h (duties_call _ _ i c)⟩,
    fun i j k _ h => absurd h (duties_initialises _ _ i k)⟩
  · intro k c h
    obtain ⟨rfl, rfl⟩ := owned_controllerAt _ _ _ _ h
    exact ⟨rfl, by decide, rfl, rfl, rfl, rfl, rfl⟩
  · intro j k c d hc hd _
    rw [(owned_controllerAt _ _ _ _ hc).1, (owned_controllerAt _ _ _ _ hd).1]
theorem witness_StepKeepsChannelInv : ∃ t, ChannelInv (duties [.host 0] [9]) ∧ step (duties [.host 0] [9]) = .next t :=
  ⟨_, duties_ChannelInv _ _, rfl⟩
theorem witness_StepKeepsThresholdInv : ∃ t, ThresholdInv 0 1 7 (duties [.host 0] [9]) ∧ step (duties [.host 0] [9]) = .next t :=
  ⟨_, ⟨rfl, rfl, duties_ThroughController _ _, owned_handles _ _, fun c h => by rw [(owned_controllerAt _ _ _ _ h).2], .inl (.inr (by decide)),
    .inl (.inr (by decide)), fun h => by cases h⟩, rfl⟩

end Sys2Proof.Tests
end

section
/-! PROOFS. No turn of either agent ends in a fault (R12, R209): the one fault there is, a read of program space above address 5, asks for a
`pc` that does not exist (R26, R51). -/

namespace Sys2Proof.Machine

/-- A `pc` is below the program's length (R26), so the read at it succeeds. -/
theorem romRead_pc (s : State) (pc : Fin 6) : s.romRead pc.val = .ok (Sparse.get romImage s.prog pc.val) :=
  Memory.read_of_lt s.prog pc.val pc.isLt

/-- An instruction changes its instance or is refused (R122). -/
theorem exec_ne_fault (i : Instr) (s : State) (f : Fault) : exec i s ≠ .fault f := by
  rw [exec_eq_effect]
  cases effect i s.block <;> simp

theorem seqTurn_ne_fault (k : Nat) (s : State) (f : Fault) : seqTurn k s ≠ .fault f := by
  unfold seqTurn
  rw [romRead_pc]
  dsimp only
  split_ifs with hk hrun
  · cases decodeMicro (Sparse.get romImage s.prog (s.blockAt k).pc.val) with
    | error e => simp
    | ok i => exact exec_ne_fault i _ f
  · simp
  · simp

theorem commandTurn_ne_fault (k : Nat) (w : CommandWord) (s : State) (f : Fault) : commandTurn k w s ≠ .fault f := by
  unfold commandTurn
  split_ifs with hk
  · cases decodeCommand w with
    | error e => simp
    | ok i => exact exec_ne_fault i _ f
  · simp

theorem setDutyTurn_ne_fault (k : Nat) (value : Int) (s : State) (f : Fault) : setDutyTurn k value s ≠ .fault f := by
  unfold setDutyTurn
  cases s.controllerAt k with
  | none => simp
  | some c => exact exec_ne_fault _ _ f

/-- Each check of `initialize` refuses, raises a configuration error as a value (R209), or lets the call go on. -/
theorem initBegin_ne_fault (nSeq nPin j : Nat) (a : InitArgs) (s : State) (f : Fault) :
    initBegin nSeq nPin j a s ≠ .fault f := by
  unfold initBegin
  split_ifs <;> simp

theorem initContinue_ne_fault (j : Nat) (c : InitCall) (s : State) (f : Fault) : initContinue j c s ≠ .fault f := by
  obtain ⟨i, stage, -, hexec⟩ | ⟨-, hfinish⟩ := initContinue_eq j c s
  · rw [hexec]
    exact exec_ne_fault i _ f
  · simp [hfinish]

theorem hostOp_ne_fault (j : Nat) (op : HostOp) (s : State) (f : Fault) : hostOp j op s ≠ .fault f := by
  cases op with
  | command k w => exact commandTurn_ne_fault k w s f
  | setDuty k value => exact setDutyTurn_ne_fault k value s f
  | initChannel a => exact initBegin_ne_fault _ _ j a s f

theorem hostTurn_ne_fault (j : Nat) (s : State) (f : Fault) : hostTurn j s ≠ .fault f := by
  unfold hostTurn
  cases (s.contextAt j).call with
  | some c => exact initContinue_ne_fault j c s f
  | none =>
    cases (s.contextAt j).ops with
    | nil => simp
    | cons op rest => exact hostOp_ne_fault j op _ f

theorem turn_ne_fault (who : Agent) (s : State) (f : Fault) : turn who s ≠ .fault f := by
  cases who with
  | host j => exact hostTurn_ne_fault j s f
  | seq k => exact seqTurn_ne_fault k s f

/-- Settles O24: a step is the turn of one agent, and no turn ends in a fault. -/
theorem noStepFaults : Obligations.NoStepFaults :=
  fun s f => turn_ne_fault s.turnOf s.turnUsed f

end Sys2Proof.Machine
end

section
/-! PROOFS. What the turns of the two agents do to each part of the state. -/

namespace Sys2Proof.Machine

/-! ### A turn is made of the named updates -/

/-- From `s` to `t` only the named operations over the state have been at work, those over a context on the context `j` alone. -/
inductive Updates (j : Nat) (s : State) : State → Prop
  | refl : Updates j s s
  | onContext {t : State} (f : HostContext → HostContext) : Updates j s t → Updates j s (t.onContext j f)
  | select {t : State} (k : Nat) : Updates j s t → Updates j s (t.select k)
  | setBlock {t : State} (k : Nat) (u : Block) : Updates j s t → Updates j s (t.setBlock k u)
  | bindPin {t : State} (p : Nat) : Updates j s t → Updates j s (t.bindPin p)
  | addController {t : State} (c : Controller) : Updates j s t → Updates j s (t.addController c)

namespace Updates

variable {j : Nat} {s t : State}

theorem addressed (k : Nat) (h : Updates j s t) : Updates j s (t.addressed k) :=
  (h.select k).setBlock _ _

theorem acted {i : Instr} {k : Nat} (h : Acted i k s t) : Updates j s t := by
  obtain ⟨v, -, rfl⟩ := h
  exact (Updates.refl.select k).setBlock k v

theorem commanded {i : Instr} {k : Nat} {s' : State} (hs : Updates j s s') (h : Commanded i k s' t) : Updates j s t := by
  obtain ⟨v, -, rfl⟩ := h
  exact (hs.addressed k).setBlock k v

theorem of_seqTurn {k : Nat} (h : seqTurn k s = .next t) : Updates j s t := by
  obtain ⟨-, ⟨-, rfl⟩ | ⟨-, w, i, -, -, hact⟩⟩ := seqTurn_cases k s t h
  · exact .select k .refl
  · exact acted hact

theorem of_hostTurn (h : hostTurn j s = .next t) : Updates j s t := by
  obtain ⟨-, -, rfl⟩ | ⟨c, i, st, -, -, hcom⟩ | ⟨c, -, -, rfl⟩ | ⟨op, ops, s', -, -, rfl, hop⟩ := hostTurn_cases j s t h
  · exact .refl
  · exact commanded (.onContext _ .refl) hcom
  · exact .addController _ (.onContext _ .refl)
  · obtain ⟨k, w, i, -, -, -, hcom⟩ | ⟨k, v, c, -, -, hcom⟩ | ⟨a, -, ⟨r, rfl⟩ | hbound⟩ := hop
    · exact commanded (.onContext _ .refl) hcom
    · exact commanded (.onContext _ .refl) hcom
    · exact .onContext _ (.onContext _ .refl)
    · obtain ⟨-, -, -, -, -, -, -, -, -, rfl⟩ := hbound
      exact .setBlock _ _ (addressed _ (.bindPin _ (.onContext _ (.onContext _ .refl))))

theorem of_step (h : step s = .next t) : ∃ j, Updates j s.turnUsed t := by
  obtain ⟨k, -, hk⟩ | ⟨j, -, hj⟩ := step_cases s t h
  · exact ⟨0, of_seqTurn hk⟩
  · exact ⟨j, of_hostTurn hj⟩

/-- The program is a constant (R37): no named update of a turn writes program space. -/
theorem prog (h : Updates j s t) : t.prog = s.prog := by
  induction h with
  | refl => rfl
  | onContext f _ ih => exact ih
  | select k _ ih => exact ih
  | setBlock k u _ ih => exact ih
  | bindPin p _ ih => exact ih
  | addController c _ ih => exact ih

theorem wf (h : Updates j s t) (hs : s.wf = true) : t.wf = true := by
  induction h with
  | refl => exact hs
  | onContext f _ ih => exact State.wf_onContext _ _ _ ih
  | select k _ ih => exact ih
  | setBlock k u _ ih => exact State.wf_setBlock _ _ _ ih
  | bindPin p _ ih => exact State.wf_bindPin _ _ ih
  | addController c _ ih => exact State.wf_addController _ _ ih

/-- A pin once bound stays bound: releasing a pin is out of scope (R5). -/
theorem pinBoundAt (h : Updates j s t) {p : Nat} (hp : s.pinBoundAt p = true) : t.pinBoundAt p = true := by
  induction h with
  | refl => exact hp
  | onContext f _ ih => exact ih
  | select k _ ih => exact ih
  | setBlock k u _ ih => exact ih
  | bindPin q _ ih => rw [pinBoundAt_bindPin, ih, ite_self]
  | addController c _ ih => exact ih

theorem contextAt_ne (h : Updates j s t) {i : Nat} (hi : i ≠ j) : t.contextAt i = s.contextAt i := by
  induction h with
  | refl => rfl
  | onContext f _ ih => rw [contextAt_onContext, if_neg hi, ih]
  | select k _ ih => exact ih
  | setBlock k u _ ih => exact ih
  | bindPin p _ ih => exact ih
  | addController c _ ih => exact ih

end Updates

theorem step_prog {s t : State} (h : step s = .next t) : t.prog = s.prog := by
  obtain ⟨j, hu⟩ := Updates.of_step h
  exact hu.prog

/-- A bound pin stays bound. -/
theorem step_pinBoundAt {s t : State} (h : step s = .next t) {p : Nat} (hp : s.pinBoundAt p = true) :
    t.pinBoundAt p = true := by
  obtain ⟨j, hu⟩ := Updates.of_step h
  exact hu.pinBoundAt hp

/-! ### What a sequencer's turn does to an instance -/

/-- A micro-operation leaves the host's fields of its instance alone, and the queue's data (R37, R57). -/
theorem effect_micro_hostFields {i : Instr} {u v : Block} (hi : i.isMicro = true) (h : effect i u = .ok v) :
    v.run = u.run ∧ v.cfgPin = u.cfgPin ∧ v.cfgClk = u.cfgClk ∧ v.tqData = u.tqData ∧ v.touched = u.touched := by
  cases i with
  | fetch ss | latch ss | reload ss | nop ss | ldper ss =>
    cases h
    exact ⟨rfl, rfl, rfl, rfl, rfl⟩
  | compare tgt ss | decrement tgt ss =>
    unfold effect at h
    cases htgt : target tgt with
    | none => simp [htgt] at h
    | some a =>
      simp only [htgt, Except.ok.injEq] at h
      subst h
      exact ⟨rfl, rfl, rfl, rfl, rfl⟩
  | enqueue v | exec w | activate => cases hi

/-- A sequencer's turn writes the instances alone, and of those its own. -/
theorem seqTurn_frame {k : Nat} {s t : State} (h : seqTurn k s = .next t) :
    t.pinBound = s.pinBound ∧ t.controllers = s.controllers ∧ t.contexts = s.contexts ∧
      ∀ m, m ≠ k → t.blockAt m = s.blockAt m := by
  obtain ⟨-, ⟨-, rfl⟩ | ⟨-, w, i, -, -, v, -, rfl⟩⟩ := seqTurn_cases k s t h
  · exact ⟨rfl, rfl, rfl, fun m _ => rfl⟩
  · exact ⟨rfl, rfl, rfl, fun m hm => by rw [blockAt_setBlock, if_neg hm, select_blockAt]⟩

/-- Its own instance is left as it is, or the sequencer runs and takes the effect of the word at its `pc`. -/
theorem seqTurn_blockAt_self {k : Nat} {s t : State} (h : seqTurn k s = .next t) :
    t.blockAt k = s.blockAt k ∨ (s.blockAt k).run = true ∧ ∃ i,
      decodeMicro (Sparse.get romImage s.prog (s.blockAt k).pc.val) = .ok i ∧ effect i (s.blockAt k) = .ok (t.blockAt k) := by
  obtain ⟨-, ⟨-, rfl⟩ | ⟨hrun, w, i, hw, hi, v, hv, rfl⟩⟩ := seqTurn_cases k s t h
  · exact .inl rfl
  · rw [romRead_pc, Except.ok.injEq] at hw
    rw [← hw] at hi
    exact .inr ⟨hrun, i, hi, by rw [blockAt_setBlock_self, hv]⟩

theorem seqTurn_hostFields {k : Nat} {s t : State} (h : seqTurn k s = .next t) (m : Nat) :
    (t.blockAt m).run = (s.blockAt m).run ∧ (t.blockAt m).cfgPin = (s.blockAt m).cfgPin ∧
      (t.blockAt m).cfgClk = (s.blockAt m).cfgClk ∧ (t.blockAt m).tqData = (s.blockAt m).tqData ∧
      (t.blockAt m).touched = (s.blockAt m).touched := by
  obtain ⟨-, -, -, hne⟩ := seqTurn_frame h
  by_cases hm : m = k
  · subst hm
    obtain heq | ⟨-, i, hi, he⟩ := seqTurn_blockAt_self h
    · rw [heq]; exact ⟨rfl, rfl, rfl, rfl, rfl⟩
    · exact effect_micro_hostFields (decodeMicro_isMicro _ i hi) he
  · rw [hne m hm]; exact ⟨rfl, rfl, rfl, rfl, rfl⟩

/-! ### The fixed program -/

namespace Block

variable (u : Block)

/-! One equation for each state of R124. -/

theorem machineStep_fetch (h : u.pc = 0) :
    u.machineStep = { u with scr := u.nextThreshold, tqValid := false, pin := false, pc := 1 } := by
  simp [machineStep, SeqState.ofPc, h]

theorem machineStep_latch (h : u.pc = 1) : u.machineStep = { u with x := u.scr, pc := 2 } := by
  simp [machineStep, SeqState.ofPc, h]

theorem machineStep_reload (h : u.pc = 2) : u.machineStep = { u with y := u.period, pc := 3 } := by
  simp [machineStep, SeqState.ofPc, h]

theorem machineStep_compare (h : u.pc = 3) : u.machineStep = { u with pc := if u.x = u.y then 4 else 5 } := by
  simp [machineStep, SeqState.ofPc, h]

theorem machineStep_setHigh (h : u.pc = 4) : u.machineStep = { u with pin := true, pc := 5 } := by
  simp [machineStep, SeqState.ofPc, h]

theorem machineStep_decrement (h : u.pc = 5) :
    u.machineStep = { u with y := u.y - 1, pc := if u.y - 1 = 0 then 0 else 3 } := by
  simp [machineStep, SeqState.ofPc, h]

/-- The program counter stands at one of the six states (R26). -/
theorem pc_cases : u.pc = 0 ∨ u.pc = 1 ∨ u.pc = 2 ∨ u.pc = 3 ∨ u.pc = 4 ∨ u.pc = 5 := by
  have h : ∀ n : Fin 6, n = 0 ∨ n = 1 ∨ n = 2 ∨ n = 3 ∨ n = 4 ∨ n = 5 := by decide
  exact h u.pc

/-! Who writes each register (R21, R22, R24, R25). -/

@[simp] theorem machineStep_period : u.machineStep.period = u.period := by
  unfold machineStep; split <;> rfl

@[simp] theorem machineStep_run : u.machineStep.run = u.run := by
  unfold machineStep; split <;> rfl

@[simp] theorem machineStep_cfgPin : u.machineStep.cfgPin = u.cfgPin := by
  unfold machineStep; split <;> rfl

@[simp] theorem machineStep_touched : u.machineStep.touched = u.touched := by
  unfold machineStep; split <;> rfl

theorem machineStep_x : u.machineStep.x = if u.pc = 1 then u.scr else u.x := by
  obtain h | h | h | h | h | h := u.pc_cases <;>
    simp [h, machineStep_fetch, machineStep_latch, machineStep_reload, machineStep_compare, machineStep_setHigh,
      machineStep_decrement]

theorem machineStep_y : u.machineStep.y = if u.pc = 2 then u.period else if u.pc = 5 then u.y - 1 else u.y := by
  obtain h | h | h | h | h | h := u.pc_cases <;>
    simp [h, machineStep_fetch, machineStep_latch, machineStep_reload, machineStep_compare, machineStep_setHigh,
      machineStep_decrement]

theorem machineStep_scr : u.machineStep.scr = if u.pc = 0 then u.nextThreshold else u.scr := by
  obtain h | h | h | h | h | h := u.pc_cases <;>
    simp [h, machineStep_fetch, machineStep_latch, machineStep_reload, machineStep_compare, machineStep_setHigh,
      machineStep_decrement]

end Block

/-- The six words of the fixed program (R88). -/
theorem decodeMicro_romImage : decodeMicro (romImage 0) = .ok (.fetch (some false)) ∧ decodeMicro (romImage 1) = .ok (.latch none) ∧
    decodeMicro (romImage 2) = .ok (.reload none) ∧ decodeMicro (romImage 3) = .ok (.compare 5 none) ∧
    decodeMicro (romImage 4) = .ok (.nop (some true)) ∧ decodeMicro (romImage 5) = .ok (.decrement 3 none) := by
  decide

/-- The word of the fixed program at `pc` does what the state machine of R124 does in that state. -/
theorem effect_romImage {i : Instr} (u : Block) (h : decodeMicro (romImage u.pc.val) = .ok i) :
    effect i u = .ok u.machineStep := by
  obtain ⟨h0, h1, h2, h3, h4, h5⟩ := decodeMicro_romImage
  have htarget5 : target 5#3 = some 5 := rfl
  have htarget3 : target 3#3 = some 3 := rfl
  obtain hpc | hpc | hpc | hpc | hpc | hpc := u.pc_cases <;> rw [hpc] at h
  · obtain rfl : Instr.fetch (some false) = i := Except.ok.inj (h0.symm.trans h)
    simp [effect, u.machineStep_fetch hpc, Block.nextThreshold, hpc]
  · obtain rfl : Instr.latch none = i := Except.ok.inj (h1.symm.trans h)
    simp [effect, u.machineStep_latch hpc, hpc]
  · obtain rfl : Instr.reload none = i := Except.ok.inj (h2.symm.trans h)
    simp [effect, u.machineStep_reload hpc, hpc]
  · obtain rfl : Instr.compare 5 none = i := Except.ok.inj (h3.symm.trans h)
    simp [effect, u.machineStep_compare hpc, hpc, htarget5]
  · obtain rfl : Instr.nop (some true) = i := Except.ok.inj (h4.symm.trans h)
    simp [effect, u.machineStep_setHigh hpc, hpc]
  · obtain rfl : Instr.decrement 3 none = i := Except.ok.inj (h5.symm.trans h)
    simp [effect, u.machineStep_decrement hpc, hpc, htarget3]

/-! ### What the host's turn does to an instance -/

/-- What one turn of the host can make of an instance `u` it writes to: the result of `ENQUEUE` (R140), of the two one-shot instructions,
admitted while the sequencer is idle (R143, R145), of `ACTIVATE` (R146), and of step 4 of `initialize` on an idle instance (R160). -/
inductive HostWrite (u : Block) : Block → Prop
  | enqueue (v : Word) : HostWrite u { u with tqData := v, tqValid := true, touched := true }
  | fetch (ss : SideSet) : u.run = false →
      HostWrite u { u with scr := u.nextThreshold, tqValid := false, pin := ss.getD u.pin, touched := true }
  | ldper (ss : SideSet) : u.run = false → HostWrite u { u with period := u.scr, pin := ss.getD u.pin, touched := true }
  | activate : HostWrite u { u with run := true, touched := true }
  | bind (p f : Nat) : u.run = false → HostWrite u { u with touched := true, cfgPin := p, cfgClk := f }

/-- The three host commands are such writes. -/
theorem hostWrite_of_effect {i : Instr} {u v : Block} (hi : i.isMicro = false) (h : effect i { u with touched := true } = .ok v) :
    HostWrite u v := by
  cases i with
  | fetch ss | latch ss | reload ss | nop ss | ldper ss | compare tgt ss | decrement tgt ss => cases hi
  | enqueue d => cases h; exact .enqueue d
  | activate => cases h; exact .activate
  | exec w =>
    simp only [effect] at h
    cases hop : decodeMicro w with
    | error e => simp [hop] at h
    | ok op =>
      cases hact : oneShot op with
      | none => simp [hop, hact] at h
      | some act =>
        simp only [hop, hact] at h
        split at h
        · cases h
        · next hrun =>
          rw [Bool.not_eq_true] at hrun
          cases h
          obtain ⟨ss, -, rfl⟩ | ⟨ss, -, rfl⟩ := oneShot_cases op act hact
          · simp only [Block.sideSet_eq, Block.fetchQueue_eq]
            exact .fetch ss hrun
          · simp only [Block.sideSet_eq, Block.loadPeriod_eq]
            exact .ldper ss hrun

theorem stageInstr_isMicro {c : InitCall} {i : Instr} {st : InitStage} (h : stageInstr c = some (i, st)) : i.isMicro = false := by
  unfold stageInstr at h
  cases hst : c.stage <;> simp only [hst, Option.some.injEq, Prod.mk.injEq, reduceCtorEq] at h <;> rw [← h.1] <;> rfl

theorem decodeCommand_isMicro {c : CommandWord} {i : Instr} (h : decodeCommand c = .ok i) : i.isMicro = false := by
  obtain ⟨v, rfl⟩ | ⟨w, rfl⟩ | rfl := decodeCommand_cases c i h <;> rfl

namespace Commanded

variable {i : Instr} {k : Nat} {s t : State}

theorem frame (h : Commanded i k s t) : t.controllers = s.controllers ∧ t.pinBound = s.pinBound ∧ t.contexts = s.contexts := by
  obtain ⟨v, -, rfl⟩ := h
  exact ⟨rfl, rfl, rfl⟩

theorem blockAt_ne (h : Commanded i k s t) {m : Nat} (hm : m ≠ k) : t.blockAt m = s.blockAt m := by
  obtain ⟨v, -, rfl⟩ := h
  rw [blockAt_setBlock, if_neg hm, blockAt_addressed, if_neg hm]

theorem effect_eq (h : Commanded i k s t) : effect i { s.blockAt k with touched := true } = .ok (t.blockAt k) := by
  obtain ⟨v, hv, rfl⟩ := h
  rw [blockAt_setBlock_self, hv]

theorem blockAt_cases (h : Commanded i k s t) (hi : i.isMicro = false) (m : Nat) :
    t.blockAt m = s.blockAt m ∨ HostWrite (s.blockAt m) (t.blockAt m) := by
  by_cases hm : m = k
  · subst hm
    exact .inr (hostWrite_of_effect hi h.effect_eq)
  · exact .inl (h.blockAt_ne hm)

end Commanded

theorem Bound.blockAt_eq {N P j : Nat} {a : InitArgs} {s t : State} (h : Bound N P j a s t) (m : Nat) :
    t.blockAt m = if m = a.sequencerId.toNat then
      { s.blockAt m with touched := true, cfgPin := a.pin.toNat, cfgClk := 2 * a.countFrequency.toNat } else s.blockAt m := by
  obtain ⟨-, -, -, -, -, -, -, -, -, rfl⟩ := h
  rw [blockAt_setBlock]
  split
  · next hm => rw [hm]
  · next hm => rw [blockAt_addressed, if_neg hm, bindPin_blockAt, onContext_blockAt]

theorem hostTurn_blockAt_cases {j : Nat} {s t : State} (h : hostTurn j s = .next t) (m : Nat) :
    t.blockAt m = s.blockAt m ∨ HostWrite (s.blockAt m) (t.blockAt m) := by
  obtain ⟨-, -, rfl⟩ | ⟨c, i, st, -, hst, hcom⟩ | ⟨c, -, -, rfl⟩ | ⟨op, ops, s', -, -, rfl, hop⟩ := hostTurn_cases j s t h
  · exact .inl rfl
  · exact hcom.blockAt_cases (stageInstr_isMicro hst) m
  · exact .inl rfl
  · obtain ⟨k, w, i, -, -, hi, hcom⟩ | ⟨k, v, c, -, -, hcom⟩ | ⟨a, -, ⟨r, rfl⟩ | hbound⟩ := hop
    · exact hcom.blockAt_cases (decodeCommand_isMicro hi) m
    · exact hcom.blockAt_cases rfl m
    · exact .inl rfl
    · rw [hbound.blockAt_eq m]
      obtain ⟨-, -, -, -, -, hrun, -⟩ := hbound
      split
      · next hm => exact .inr (.bind _ _ (by rw [hm]; exact hrun))
      · exact .inl rfl

namespace HostWrite

variable {u v : Block}

/-- To an instance that runs, the host's writes reach the queue alone (R37, R144). -/
theorem eq_of_run (h : HostWrite u v) (hrun : u.run = true) :
    ∃ d b, v = { u with tqData := d, tqValid := b, touched := true } := by
  cases h with
  | enqueue d => exact ⟨d, true, rfl⟩
  | activate => exact ⟨u.tqData, u.tqValid, by rw [← hrun]⟩
  | fetch ss hidle | ldper ss hidle | bind p f hidle => exact absurd (hidle.symm.trans hrun) Bool.false_ne_true

theorem x_eq (h : HostWrite u v) : v.x = u.x := by cases h <;> rfl

theorem y_eq (h : HostWrite u v) : v.y = u.y := by cases h <;> rfl

theorem pc_eq (h : HostWrite u v) : v.pc = u.pc := by cases h <;> rfl

/-- The host writes `SCR` through the one-shot `FETCH` of an idle sequencer alone (R143). -/
theorem scr_cases (h : HostWrite u v) : v.scr = u.scr ∨ u.run = false ∧ v.scr = u.nextThreshold := by
  cases h with
  | fetch ss hidle => exact .inr ⟨hidle, rfl⟩
  | enqueue d | ldper ss hidle | activate | bind p f hidle => exact .inl rfl

end HostWrite

/-! ### What a step does to an instance -/

/-- What a step can do to an instance: nothing; run the word at the instance's `pc`, in a turn of its own running sequencer; or be a write of
the host. -/
theorem step_blockAt_cases {s t : State} (h : step s = .next t) (k : Nat) :
    t.blockAt k = s.blockAt k ∨
    (s.turnOf = .seq k ∧ (s.blockAt k).run = true ∧ ∃ i,
      decodeMicro (Sparse.get romImage s.prog (s.blockAt k).pc.val) = .ok i ∧ effect i (s.blockAt k) = .ok (t.blockAt k)) ∨
    HostWrite (s.blockAt k) (t.blockAt k) := by
  obtain ⟨m, hm, hturn⟩ | ⟨j, -, hturn⟩ := step_cases s t h
  · by_cases hk : k = m
    · subst hk
      exact (seqTurn_blockAt_self hturn).imp id fun hown => .inl ⟨hm, hown⟩
    · obtain ⟨-, -, -, hne⟩ := seqTurn_frame hturn
      exact .inl (hne k hk)
  · exact (hostTurn_blockAt_cases hturn k).imp id .inr

/-- With the fixed program the sequencer's step is one of the state machine of R124. -/
theorem step_blockAt_fixed {s t : State} (hprog : s.prog = []) (h : step s = .next t) (k : Nat) :
    t.blockAt k = s.blockAt k ∨
    (s.turnOf = .seq k ∧ (s.blockAt k).run = true ∧ t.blockAt k = (s.blockAt k).machineStep) ∨
    HostWrite (s.blockAt k) (t.blockAt k) := by
  obtain heq | ⟨hturn, hrun, i, hi, he⟩ | hw := step_blockAt_cases h k
  · exact .inl heq
  · rw [hprog] at hi
    exact .inr (.inl ⟨hturn, hrun, Except.ok.inj (he.symm.trans (effect_romImage _ hi))⟩)
  · exact .inr (.inr hw)

/-- Nothing clears `run` (R29). -/
theorem step_run {s t : State} (h : step s = .next t) {k : Nat} (hrun : (s.blockAt k).run = true) : (t.blockAt k).run = true := by
  obtain heq | ⟨-, -, i, hi, he⟩ | hw := step_blockAt_cases h k
  · rw [heq, hrun]
  · rw [(effect_micro_hostFields (decodeMicro_isMicro _ i hi) he).1, hrun]
  · obtain ⟨d, b, hv⟩ := hw.eq_of_run hrun
    rw [hv, hrun]

/-- What a step leaves alone of an instance that runs the fixed program (R35 (i)). -/
theorem step_running {s t : State} (hprog : s.prog = []) (h : step s = .next t) {k : Nat} (hrun : (s.blockAt k).run = true) :
    (t.blockAt k).period = (s.blockAt k).period ∧ (t.blockAt k).cfgPin = (s.blockAt k).cfgPin ∧
      ((s.blockAt k).touched = true → (t.blockAt k).touched = true) := by
  obtain heq | ⟨-, -, heq⟩ | hw := step_blockAt_fixed hprog h k
  · rw [heq]; exact ⟨rfl, rfl, id⟩
  · rw [heq]; simp
  · obtain ⟨d, b, hv⟩ := hw.eq_of_run hrun
    rw [hv]; exact ⟨rfl, rfl, fun _ => rfl⟩

end Sys2Proof.Machine
end

section
/-! PROOFS. The state (spec/10_state.md): its registers, what reset leaves in it, and who writes what of it. -/

namespace Sys2Proof.Machine

/-- Settles O6: the names of R20 read off the definitions; `Block.get_put` is the law of the register file. -/
theorem registersHoldAndDoNotAlias : Obligations.RegistersHoldAndDoNotAlias :=
  ⟨⟨rfl, rfl, rfl, rfl⟩, fun _ => ⟨rfl, rfl, rfl, rfl⟩, Block.get_put⟩

/-! ### Reset -/

theorem blockAt_reset (k : Nat) : State.reset.blockAt k = Block.reset := rfl

theorem pinBoundAt_reset (p : Nat) : State.reset.pinBoundAt p = false := rfl

theorem controllerAt_reset (k : Nat) : State.reset.controllerAt k = none := rfl

/-- Settles O7: every instance reads as `Block.reset`, and the two tables are empty. -/
theorem resetLeaves : Obligations.ResetLeaves := by
  refine ⟨fun k => ?_, pinBoundAt_reset, controllerAt_reset⟩
  rw [blockAt_reset]
  exact ⟨rfl, rfl, rfl, rfl⟩

theorem Block.reset_atReset : Block.reset.AtReset := ⟨rfl, rfl, rfl, rfl, rfl⟩

/-- An instance that stands at `FETCH` is in no countdown, and its pin may have either level. -/
theorem Block.phaseOk_of_pc_eq_zero {u : Block} (h : u.pc = 0) : u.PhaseOk := by
  simp [Block.PhaseOk, h]

theorem State.reset_atReset : State.reset.AtReset :=
  ⟨fun _ => Block.reset_atReset, pinBoundAt_reset, controllerAt_reset, rfl, fun _ => ⟨rfl, rfl⟩⟩

theorem State.reset_primingUndisturbed : PrimingUndisturbed State.reset := by
  rintro i j k - - ⟨w, hw⟩
  cases hw

/-- With no controller and no call in progress the channel invariant says nothing but that the host keeps to R160. -/
theorem State.AtReset.channelInv {s : State} (h : s.AtReset) (hpriming : PrimingUndisturbed s) : ChannelInv s := by
  obtain ⟨-, -, hcontroller, hprog, hcontext⟩ := h
  refine ⟨hprog, ⟨fun k c hc => ?_, fun j k c d hc => ?_⟩, ⟨fun j c hc => ?_, fun i j c d _ hc => ?_⟩, hpriming⟩
  · rw [hcontroller] at hc; cases hc
  · rw [hcontroller] at hc; cases hc
  · rw [(hcontext j).1] at hc; cases hc
  · rw [(hcontext i).1] at hc; cases hc

/-- Settles O56: a reset instance stands at FETCH, and no controller and no call is there to be in order. -/
theorem resetMeetsTheInvariants : Obligations.ResetMeetsTheInvariants := by
  refine ⟨State.reset_wf, State.reset_atReset, State.reset_primingUndisturbed, fun s h => ⟨?_, h.channelInv⟩⟩
  obtain ⟨hblock, -, -, hprog, -⟩ := h
  refine ⟨hprog, fun k => ?_⟩
  obtain ⟨-, hpc, -⟩ := hblock k
  exact Block.phaseOk_of_pc_eq_zero hpc

/-! ### Turns of idle agents, the canonical form -/

theorem seqTurn_of_idle {s : State} {k : Nat} (hk : k < Config.nSeq) (hidle : (s.blockAt k).run = false) :
    seqTurn k s = .next (s.select k) := by
  simp [seqTurn, hk, hidle]

theorem hostTurn_of_idle {s : State} {j : Nat} (hcall : (s.contextAt j).call = none) (hops : (s.contextAt j).ops = []) :
    hostTurn j s = .next s := by
  simp [hostTurn, hcall, hops]

theorem step_of_turnOf {s : State} {who : Agent} (h : s.turnOf = who) : step s = turn who s.turnUsed := by
  rw [← h]; rfl

/-- Settles O23: both turns take the branch that passes. -/
theorem idleTurnsPass : Obligations.IdleTurnsPass := by
  refine ⟨fun s k hturn hk hidle => ?_, fun s j rest hschedule hcall hops => ?_⟩
  · rw [step_of_turnOf hturn]
    exact seqTurn_of_idle hk hidle
  · have hused : s.turnUsed = { s with schedule := rest } := by rw [State.turnUsed, hschedule, List.tail_cons]
    rw [step_of_turnOf (turnOf_cons s _ rest hschedule), ← hused]
    exact hostTurn_of_idle hcall hops

/-- Settles O55: each named update keeps the canonical form, and a step is made of them. -/
theorem stepKeepsCanonicalForm : Obligations.StepKeepsCanonicalForm := by
  intro s t hs h
  obtain ⟨j, hu⟩ := Updates.of_step h
  exact hu.wf hs

/-! ### Who writes what -/

/-- Settles O28: the fixed program writes `X` at LATCH alone, and the host never does. -/
theorem runPeriodAndThresholdHaveTheirWriters : Obligations.RunPeriodAndThresholdHaveTheirWriters := by
  intro s t k h
  refine ⟨step_run h, fun hprog hrun => (step_running hprog h hrun).1, fun hprog hx => ?_⟩
  obtain heq | ⟨hturn, hrun, heq⟩ | hw := step_blockAt_fixed hprog h k
  · exact absurd (congrArg Block.x heq) hx
  · rw [heq, Block.machineStep_x] at hx ⊢
    split at hx
    · next hpc => exact ⟨hturn, hrun, hpc, if_pos hpc⟩
    · exact absurd rfl hx
  · exact absurd hw.x_eq hx

/-- Settles O29: `Block.machineStep_y` and `Block.machineStep_scr` name the states that write, and an idle instance, the only one that a host's
`FETCH` reaches, stands at `pc = 0`. -/
theorem counterAndScratchHaveTheirWriters : Obligations.CounterAndScratchHaveTheirWriters := by
  rintro s t k ⟨hprog, hphase⟩ h
  obtain heq | ⟨hturn, hrun, heq⟩ | hw := step_blockAt_fixed hprog h k
  · exact ⟨fun hy => absurd (congrArg Block.y heq) hy, fun hscr => absurd (congrArg Block.scr heq) hscr⟩
  · rw [heq, Block.machineStep_y, Block.machineStep_scr]
    refine ⟨fun hy => ⟨hturn, hrun, ?_⟩, fun hscr => ?_⟩
    · split at hy
      · next hpc => exact .inl ⟨hpc, if_pos hpc⟩
      · next hpc2 =>
        split at hy
        · next hpc => exact .inr ⟨hpc, by rw [if_neg hpc2, if_pos hpc]⟩
        · exact absurd rfl hy
    · split at hscr
      · next hpc => exact ⟨hpc, if_pos hpc, fun _ => hturn⟩
      · exact absurd rfl hscr
  · refine ⟨fun hy => absurd hw.y_eq hy, fun hscr => ?_⟩
    obtain hsame | ⟨hidle, hfetched⟩ := hw.scr_cases
    · exact absurd hsame hscr
    · exact ⟨(hphase k).1 hidle, hfetched, fun hrun => absurd (hidle.symm.trans hrun) Bool.false_ne_true⟩

/-- Settles O31: `seqTurn_hostFields` for the sequencer's turn, `HostWrite.eq_of_run` for the host's. -/
theorem eachAgentWritesWhatItOwns : Obligations.EachAgentWritesWhatItOwns := by
  refine ⟨fun s t k hturn h => ?_, fun s t j hturn h => ⟨fun k hrun => ?_, fun i hi => ?_⟩⟩
  · have hseq : seqTurn k s.turnUsed = .next t := (step_of_turnOf hturn).symm.trans h
    obtain ⟨hpins, hcontrollers, hcontexts, -⟩ := seqTurn_frame hseq
    exact ⟨fun j => seqTurn_hostFields hseq j, hpins, hcontrollers, hcontexts⟩
  · obtain heq | hw := hostTurn_blockAt_cases ((step_of_turnOf hturn).symm.trans h) k
    · rw [heq]; exact ⟨rfl, rfl, rfl, rfl, rfl, rfl⟩
    · obtain ⟨d, b, hv⟩ := hw.eq_of_run hrun
      rw [hv]; exact ⟨rfl, rfl, rfl, rfl, rfl, rfl⟩
  · exact (Updates.of_hostTurn ((step_of_turnOf hturn).symm.trans h)).contextAt_ne hi

end Sys2Proof.Machine
end

section
/-! PROOFS. The phase invariant (R35 (iii), (v)) is inductive. -/

namespace Sys2Proof.Machine

theorem toNat_sub_one {y : Word} (hy : 1 ≤ y.toNat) : (y - 1).toNat = y.toNat - 1 := by
  bv_omega

theorem one_le_toNat {y : Word} (h : y ≠ 0) : 1 ≤ y.toNat := by
  bv_omega

namespace Block

variable {u : Block}

/-! What `PhaseOk` says at each state (with `phaseOk_of_pc_eq_zero` for FETCH). -/

theorem phaseOk_iff_of_latch (h : u.pc = 1) : u.PhaseOk ↔ u.run = true ∧ (u.pin = true → u.period = 0) := by
  simp [PhaseOk, h]

theorem phaseOk_iff_of_reload (h : u.pc = 2) : u.PhaseOk ↔ u.run = true ∧ (u.pin = true → u.period = 0) := by
  simp [PhaseOk, h]

theorem phaseOk_iff_of_compare (h : u.pc = 3) : u.PhaseOk ↔ u.run = true ∧ (u.period ≠ 0 →
    (1 ≤ u.y.toNat ∧ u.y.toNat ≤ u.period.toNat) ∧ (u.pin = true → u.y.toNat < u.x.toNat)) := by
  simp [PhaseOk, h, forall_and]

theorem phaseOk_iff_of_setHigh (h : u.pc = 4) : u.PhaseOk ↔ u.run = true ∧ (u.pin = true → u.period = 0) ∧
    (u.period ≠ 0 → 1 ≤ u.y.toNat ∧ u.y.toNat ≤ u.period.toNat) ∧ u.x = u.y := by
  simp [PhaseOk, h]

theorem phaseOk_iff_of_decrement (h : u.pc = 5) : u.PhaseOk ↔ u.run = true ∧ (u.period ≠ 0 →
    (1 ≤ u.y.toNat ∧ u.y.toNat ≤ u.period.toNat) ∧ (u.pin = true → u.y.toNat ≤ u.x.toNat)) := by
  simp [PhaseOk, h, forall_and]

/-- The counter is in its range when the countdown begins with `RELOAD`, the match `X = Y` is what leads to SET_HIGH, and from there on the
counter only falls. -/
theorem PhaseOk.machineStep (hrun : u.run = true) (h : u.PhaseOk) : u.machineStep.PhaseOk := by
  obtain hpc | hpc | hpc | hpc | hpc | hpc := u.pc_cases
  · rw [u.machineStep_fetch hpc, phaseOk_iff_of_latch rfl]
    exact ⟨hrun, fun hpin => absurd hpin Bool.false_ne_true⟩
  · rw [u.machineStep_latch hpc, phaseOk_iff_of_reload rfl]
    exact (phaseOk_iff_of_latch hpc).1 h
  · rw [u.machineStep_reload hpc, phaseOk_iff_of_compare rfl]
    obtain ⟨-, hlow⟩ := (phaseOk_iff_of_reload hpc).1 h
    exact ⟨hrun, fun hperiod => ⟨⟨one_le_toNat hperiod, le_rfl⟩, fun hpin => absurd (hlow hpin) hperiod⟩⟩
  · rw [u.machineStep_compare hpc]
    obtain ⟨-, hcount⟩ := (phaseOk_iff_of_compare hpc).1 h
    by_cases hxy : u.x = u.y
    · rw [if_pos hxy, phaseOk_iff_of_setHigh rfl]
      refine ⟨hrun, fun hpin => ?_, fun hperiod => (hcount hperiod).1, hxy⟩
      by_contra hperiod
      exact absurd (hxy ▸ (hcount hperiod).2 hpin) (lt_irrefl _)
    · rw [if_neg hxy, phaseOk_iff_of_decrement rfl]
      exact ⟨hrun, fun hperiod => ⟨(hcount hperiod).1, fun hpin => ((hcount hperiod).2 hpin).le⟩⟩
  · rw [u.machineStep_setHigh hpc, phaseOk_iff_of_decrement rfl]
    obtain ⟨-, -, hcount, hxy⟩ := (phaseOk_iff_of_setHigh hpc).1 h
    exact ⟨hrun, fun hperiod => ⟨hcount hperiod, fun _ => hxy ▸ le_rfl⟩⟩
  · rw [u.machineStep_decrement hpc]
    obtain ⟨-, hcount⟩ := (phaseOk_iff_of_decrement hpc).1 h
    by_cases hlast : u.y - 1 = 0
    · rw [if_pos hlast]
      exact phaseOk_of_pc_eq_zero rfl
    · rw [if_neg hlast, phaseOk_iff_of_compare rfl]
      refine ⟨hrun, fun hperiod => ?_⟩
      obtain ⟨⟨hlow, hle⟩, hpin⟩ := hcount hperiod
      have hy : (u.y - 1).toNat = u.y.toNat - 1 := toNat_sub_one hlow
      refine ⟨⟨one_le_toNat hlast, ?_⟩, fun hhigh => ?_⟩
      · show (u.y - 1).toNat ≤ u.period.toNat
        omega
      · have hreached : u.y.toNat ≤ u.x.toNat := hpin hhigh
        show (u.y - 1).toNat < u.x.toNat
        omega

end Block

theorem HostWrite.phaseOk {u v : Block} (hw : HostWrite u v) (h : u.PhaseOk) : v.PhaseOk := by
  cases hrun : u.run with
  | false => exact Block.phaseOk_of_pc_eq_zero (hw.pc_eq.trans (h.1 hrun))
  | true =>
    obtain ⟨d, b, rfl⟩ := hw.eq_of_run hrun
    exact h

/-- Settles O57: an instance is left alone, takes a step of the state machine, or is written to by the host. -/
theorem stepKeepsPhaseInv : Obligations.StepKeepsPhaseInv := by
  rintro s t ⟨hprog, hphase⟩ h
  refine ⟨(step_prog h).trans hprog, fun k => ?_⟩
  have hok : (s.blockAt k).PhaseOk := hphase k
  obtain heq | ⟨-, hrun, heq⟩ | hw := step_blockAt_fixed hprog h k
  · rw [heq]; exact hok
  · rw [heq]; exact hok.machineStep hrun
  · exact hw.phaseOk hok

end Sys2Proof.Machine
end

section
/-! PROOFS. The channel invariant (R35 (i), R21, R32, R202) is inductive, for a host that keeps to R160. -/

namespace Sys2Proof.Machine

/-! ### One call of `initialize` -/

/-- What `CallOk` says of one call in progress. -/
def InitCall.Ok (s : State) (c : InitCall) : Prop :=
  s.controllerAt c.sequencerId = none ∧ c.maxCount ≤ Config.maxCountLimit ∧ (s.blockAt c.sequencerId).touched = true ∧
    (s.blockAt c.sequencerId).cfgPin = c.pin ∧ s.pinBoundAt c.pin = true ∧ c.Reached (s.blockAt c.sequencerId) ∧
    ∀ k d, s.controllerAt k = some d → d.pinBinding ≠ c.pin

/-- Two calls that concern two instances and two pins. -/
def InitCall.Apart (c d : InitCall) : Prop := c.sequencerId ≠ d.sequencerId ∧ c.pin ≠ d.pin

theorem callOk_iff (s : State) :
    CallOk s ↔ (∀ j c, (s.contextAt j).call = some c → c.Ok s) ∧
      ∀ i j c d, i ≠ j → (s.contextAt i).call = some c → (s.contextAt j).call = some d → c.Apart d :=
  Iff.rfl

theorem encW_natCast (n : Nat) : encW n = BitVec.ofNat 32 n := BitVec.ofInt_natCast 32 n

/-- A call whose instance runs stands before its last step, which asks no more of the instance than that it runs with its `PERIOD`. -/
theorem InitCall.Reached.of_running {c : InitCall} {u v : Block} (h : c.Reached u) (hu : u.run = true) (hv : v.run = true)
    (hperiod : v.period = u.period) : c.Reached v := by
  unfold InitCall.Reached at h ⊢
  cases hstage : c.stage <;> simp only [hstage, hu, Bool.true_eq_false, false_and] at h ⊢
  case finish => exact ⟨hv, hperiod.trans h.2⟩

/-- The instruction of a stage brings the call to the next one (R160, steps 5 to 8), and leaves the pin of step 4. -/
theorem InitCall.Reached.next {c : InitCall} {u v : Block} {i : Instr} {st : InitStage} (h : c.Reached u)
    (hstage : stageInstr c = some (i, st)) (he : effect i { u with touched := true } = .ok v) :
    ({ c with stage := st } : InitCall).Reached v ∧ v.touched = true ∧ v.cfgPin = u.cfgPin := by
  have hfetch : decodeMicro 0x00 = .ok (.fetch none) := by decide
  have hldper : decodeMicro 0xC0 = .ok (.ldper none) := by decide
  unfold InitCall.Reached at h ⊢
  unfold stageInstr at hstage
  cases hst : c.stage <;> simp only [hst, Option.some.injEq, Prod.mk.injEq, reduceCtorEq] at h hstage <;>
    obtain ⟨rfl, rfl⟩ := hstage
  case enqueue =>
    cases he
    exact ⟨⟨h, rfl, encW_natCast _⟩, rfl, rfl⟩
  case fetch =>
    obtain ⟨hidle, hvalid, hdata⟩ := h
    simp only [effect, hfetch, oneShot, hidle, Block.fetchQueue_eq, hvalid] at he
    cases he
    exact ⟨⟨rfl, hdata⟩, rfl, rfl⟩
  case ldper =>
    obtain ⟨hidle, hscr⟩ := h
    simp only [effect, hldper, oneShot, hidle, Block.loadPeriod_eq] at he
    cases he
    exact ⟨⟨rfl, hscr⟩, rfl, rfl⟩
  case activate =>
    cases he
    exact ⟨⟨rfl, h.2⟩, rfl, rfl⟩

/-- An instance that is left alone, or that runs and goes on with its `PERIOD` and its pin. -/
def Block.GoesOn (u v : Block) : Prop :=
  v = u ∨ u.run = true ∧ v.run = true ∧ v.period = u.period ∧ v.cfgPin = u.cfgPin ∧ (u.touched = true → v.touched = true)

theorem step_goesOn {s t : State} (hprog : s.prog = []) (h : step s = .next t) {k : Nat} (hrun : (s.blockAt k).run = true) :
    (s.blockAt k).GoesOn (t.blockAt k) :=
  .inr ⟨hrun, step_run h hrun, step_running hprog h hrun⟩

/-- A call stays in order when no controller comes or goes, and its instance goes on. -/
theorem InitCall.Ok.of_frame {c : InitCall} {s t : State} (h : c.Ok s) (hcontrollers : t.controllers = s.controllers)
    (hpin : ∀ p, s.pinBoundAt p = true → t.pinBoundAt p = true)
    (hblock : (s.blockAt c.sequencerId).GoesOn (t.blockAt c.sequencerId)) : c.Ok t := by
  have hcontroller (k : Nat) : t.controllerAt k = s.controllerAt k := by rw [State.controllerAt, hcontrollers, State.controllerAt]
  obtain ⟨hnone, hmax, htouched, hcfg, hbound, hreached, hothers⟩ := h
  simp only [InitCall.Ok, hcontroller]
  obtain heq | ⟨hrun, hrun', hperiod, hcfg', htouched'⟩ := hblock
  · rw [heq]
    exact ⟨hnone, hmax, htouched, hcfg, hpin _ hbound, hreached, hothers⟩
  · exact ⟨hnone, hmax, htouched' htouched, hcfg'.trans hcfg, hpin _ hbound, hreached.of_running hrun hrun' hperiod, hothers⟩

/-! ### The calls in progress -/

/-- Only the call of context `j` changes: it is enough to look at that one, and that the others stay in order. -/
theorem CallOk.of_one_context {s t : State} {j : Nat} (h : CallOk s)
    (hcontext : ∀ i, i ≠ j → (t.contextAt i).call = (s.contextAt i).call)
    (hothers : ∀ i c, i ≠ j → (s.contextAt i).call = some c → c.Ok t)
    (hown : ∀ c, (t.contextAt j).call = some c →
      c.Ok t ∧ ∀ i d, i ≠ j → (s.contextAt i).call = some d → c.Apart d) : CallOk t := by
  obtain ⟨-, hapart⟩ := h
  refine (callOk_iff t).2 ⟨fun i c hc => ?_, fun i m c d him hc hd => ?_⟩
  · by_cases hi : i = j
    · subst hi
      exact (hown c hc).1
    · rw [hcontext i hi] at hc
      exact hothers i c hi hc
  · by_cases hi : i = j
    · subst hi
      rw [hcontext m him.symm] at hd
      exact (hown c hc).2 m d him.symm hd
    · rw [hcontext i hi] at hc
      by_cases hm : m = j
      · subst hm
        obtain ⟨hid, hpin⟩ := (hown d hd).2 i c hi hc
        exact ⟨hid.symm, hpin.symm⟩
      · rw [hcontext m hm] at hd
        exact hapart i m c d him hc hd

/-! ### What the host's turn does to the calls and the controllers -/

/-- The call that context `j` begins with its operation `a` (R160, step 4). -/
def InitArgs.call (a : InitArgs) : InitCall := ⟨a.sequencerId.toNat, a.pin.toNat, a.maxCount.toNat, .enqueue⟩

namespace Bound

variable {N P j : Nat} {a : InitArgs} {s t : State}

theorem contextAt_self (h : Bound N P j a s t) : t.contextAt j = { s.contextAt j with call := some a.call } := by
  obtain ⟨-, -, -, -, -, -, -, -, -, rfl⟩ := h
  simp [contextAt_onContext, InitArgs.call]

theorem controllers_eq (h : Bound N P j a s t) : t.controllers = s.controllers := by
  obtain ⟨-, -, -, -, -, -, -, -, -, rfl⟩ := h
  rfl

theorem pinBoundAt_self (h : Bound N P j a s t) : t.pinBoundAt a.pin.toNat = true := by
  obtain ⟨-, -, -, -, -, -, -, -, -, rfl⟩ := h
  simp [pinBoundAt_bindPin]

end Bound

theorem contextAt_finished (s : State) (j : Nat) (c : InitCall) :
    (finished s j c).contextAt j = { s.contextAt j with call := none, result := some .success } := by
  simp [finished, contextAt_onContext]

theorem controllerAt_finished (s : State) (j : Nat) (c : InitCall) (k : Nat) :
    (finished s j c).controllerAt k =
      if k = c.sequencerId then some ⟨c.sequencerId, c.maxCount, c.pin⟩ else s.controllerAt k := by
  simp [finished, controllerAt_addController]

theorem Commanded.contextAt_eq {i : Instr} {k : Nat} {s t : State} (h : Commanded i k s t) (m : Nat) :
    t.contextAt m = s.contextAt m := by
  rw [State.contextAt, h.frame.2.2, State.contextAt]

section HostTurn

variable {j : Nat} {s t : State}

/-- A controller comes into existence with the last step of a call, and in no other way (R158). -/
theorem hostTurn_controllers (h : hostTurn j s = .next t) :
    t.controllers = s.controllers ∨ ∃ c, (s.contextAt j).call = some c ∧ c.stage = .finish ∧ t = finished s j c := by
  obtain ⟨-, -, rfl⟩ | ⟨c, i, st, -, -, hcom⟩ | ⟨c, hc, hfinish, rfl⟩ | ⟨op, ops, s', -, -, rfl, hop⟩ := hostTurn_cases j s t h
  · exact .inl rfl
  · exact .inl hcom.frame.1
  · exact .inr ⟨c, hc, hfinish, rfl⟩
  · obtain ⟨k, w, i, -, -, -, hcom⟩ | ⟨k, v, c, -, -, hcom⟩ | ⟨a, -, ⟨r, rfl⟩ | hbound⟩ := hop
    · exact .inl hcom.frame.1
    · exact .inl hcom.frame.1
    · exact .inl rfl
    · exact .inl hbound.controllers_eq

/-- The context whose turn it was is in a call afterwards: a call that has come to its next stage, or one that the turn began. -/
theorem hostTurn_call_cases (h : hostTurn j s = .next t) {c : InitCall} (hc : (t.contextAt j).call = some c) :
    (∃ d i st, (s.contextAt j).call = some d ∧ stageInstr d = some (i, st) ∧
      Commanded i d.sequencerId (s.reachStage j d st) t ∧ c = { d with stage := st }) ∨
    ∃ a ops, (s.contextAt j).ops = .initChannel a :: ops ∧ c = a.call ∧
      Bound Config.nSeq Config.nPin j a (s.onContext j fun h => { h with ops := ops }) t := by
  obtain ⟨hnone, -, rfl⟩ | ⟨d, i, st, hd, hst, hcom⟩ | ⟨d, hd, -, rfl⟩ | ⟨op, ops, s', hnone, hops, rfl, hop⟩ := hostTurn_cases j s t h
  · rw [hnone] at hc; cases hc
  · refine .inl ⟨d, i, st, hd, hst, hcom, ?_⟩
    rw [hcom.contextAt_eq, contextAt_reachStage, if_pos rfl] at hc
    exact (Option.some.inj hc).symm
  · rw [contextAt_finished] at hc; cases hc
  · obtain ⟨k, w, i, -, -, -, hcom⟩ | ⟨k, v, d, -, -, hcom⟩ | ⟨a, rfl, ⟨r, rfl⟩ | hbound⟩ := hop
    · rw [hcom.contextAt_eq, contextAt_onContext, if_pos rfl, hnone] at hc; cases hc
    · rw [hcom.contextAt_eq, contextAt_onContext, if_pos rfl, hnone] at hc; cases hc
    · rw [contextAt_raiseConfigError, if_pos rfl, contextAt_onContext, if_pos rfl, hnone] at hc; cases hc
    · rw [hbound.contextAt_self] at hc
      exact .inr ⟨a, ops, hops, (Option.some.inj hc).symm, hbound⟩

/-- A turn uses up an operation of its context, or none. -/
theorem hostTurn_ops_subset (h : hostTurn j s = .next t) : (t.contextAt j).ops ⊆ (s.contextAt j).ops := by
  obtain ⟨-, -, rfl⟩ | ⟨d, i, st, -, -, hcom⟩ | ⟨d, -, -, rfl⟩ | ⟨op, ops, s', -, hops, rfl, hop⟩ := hostTurn_cases j s t h
  · exact fun _ ho => ho
  · simp [hcom.contextAt_eq, contextAt_reachStage]
  · simp [contextAt_finished]
  · have hrest : (t.contextAt j).ops = ops := by
      obtain ⟨k, w, i, -, -, -, hcom⟩ | ⟨k, v, d, -, -, hcom⟩ | ⟨a, -, ⟨r, rfl⟩ | hbound⟩ := hop
      · simp [hcom.contextAt_eq, contextAt_onContext]
      · simp [hcom.contextAt_eq, contextAt_onContext]
      · simp [contextAt_raiseConfigError, contextAt_onContext]
      · simp [hbound.contextAt_self, contextAt_onContext]
    rw [hrest, hops]
    exact List.subset_cons_self op ops

/-- A context that initialises an instance after its turn did so before it. -/
theorem hostTurn_initialises (h : hostTurn j s = .next t) {k : Nat} (hk : (t.contextAt j).initialises k) :
    (s.contextAt j).initialises k := by
  obtain ⟨c, hc, rfl⟩ | ⟨a, ha, hid⟩ := hk
  · obtain ⟨d, i, st, hd, -, -, rfl⟩ | ⟨a, ops, hops, rfl, hbound⟩ := hostTurn_call_cases h hc
    · exact .inl ⟨d, hd, rfl⟩
    · obtain ⟨-, -, -, hid, -⟩ := hbound
      exact .inr ⟨a, by rw [hops]; exact List.mem_cons_self, (Int.toNat_of_nonneg hid).symm⟩
  · exact .inr ⟨a, hostTurn_ops_subset h ha, hid⟩

/-- R160 goes on to be kept: a context's turn adds neither a command nor a call to what the context was about to do. -/
theorem hostTurn_primingUndisturbed (h : hostTurn j s = .next t) (hs : PrimingUndisturbed s) : PrimingUndisturbed t := by
  have hother (i : Nat) (hi : i ≠ j) : t.contextAt i = s.contextAt i := (Updates.of_hostTurn h).contextAt_ne hi
  have hinit (i k : Nat) (hik : (t.contextAt i).initialises k) : (s.contextAt i).initialises k := by
    by_cases hi : i = j
    · subst hi
      exact hostTurn_initialises h hik
    · rwa [hother i hi] at hik
  have hcommands (i k : Nat) (hik : (t.contextAt i).commands k) : (s.contextAt i).commands k := by
    by_cases hi : i = j
    · subst hi
      obtain ⟨w, hw⟩ := hik
      exact ⟨w, hostTurn_ops_subset h hw⟩
    · rwa [hother i hi] at hik
  exact fun i m k him hi hm => hs i m k him (hinit i k hi) (hcommands m k hm)

/-- The turn of another context writes to no instance that is being initialised: its own call concerns another instance, it sends no
command there (R160), `set_duty` reaches an instance with a controller, and a new call begins on a fresh instance. -/
theorem hostTurn_spares_call (hcontrollers : ControllersOk s) (hcalls : CallOk s) (hpriming : PrimingUndisturbed s)
    (h : hostTurn j s = .next t) {i : Nat} {c : InitCall} (hi : i ≠ j) (hc : (s.contextAt i).call = some c) :
    t.blockAt c.sequencerId = s.blockAt c.sequencerId := by
  obtain ⟨hok, hapart⟩ := (callOk_iff s).1 hcalls
  obtain ⟨hnone, -, htouched, -⟩ := hok i c hc
  obtain ⟨-, -, rfl⟩ | ⟨d, ins, st, hd, -, hcom⟩ | ⟨d, hd, -, rfl⟩ | ⟨op, ops, s', -, hops, rfl, hop⟩ := hostTurn_cases j s t h
  · rfl
  · exact hcom.blockAt_ne (hapart i j c d hi hc hd).1
  · rfl
  · obtain ⟨k, w, ins, rfl, -, -, hcom⟩ | ⟨k, v, d, -, hd, hcom⟩ | ⟨a, -, ⟨r, rfl⟩ | hbound⟩ := hop
    · refine hcom.blockAt_ne fun hk => ?_
      exact hpriming i j k hi (.inl ⟨c, hc, hk⟩) ⟨w, by rw [hops]; exact List.mem_cons_self⟩
    · refine hcom.blockAt_ne fun hk => ?_
      have hhandle : d.sequencerHandle = k := (hcontrollers.1 k d hd).1
      rw [hk, hhandle, hd] at hnone
      cases hnone
    · rfl
    · rw [hbound.blockAt_eq, if_neg, onContext_blockAt]
      intro hk
      obtain ⟨-, -, -, -, -, -, hfresh, -⟩ := hbound
      rw [← hk, onContext_blockAt, htouched] at hfresh
      cases hfresh

/-- So it leaves every call of the other contexts in order. -/
theorem hostTurn_other_call_ok (hcontrollers : ControllersOk s) (hcalls : CallOk s) (hpriming : PrimingUndisturbed s)
    (h : hostTurn j s = .next t) {i : Nat} {c : InitCall} (hi : i ≠ j) (hc : (s.contextAt i).call = some c) : c.Ok t := by
  obtain ⟨hok, hapart⟩ := (callOk_iff s).1 hcalls
  obtain hsame | ⟨d, hd, -, rfl⟩ := hostTurn_controllers h
  · exact (hok i c hc).of_frame hsame (fun _ => (Updates.of_hostTurn h).pinBoundAt)
      (.inl (hostTurn_spares_call hcontrollers hcalls hpriming h hi hc))
  · obtain ⟨hid, hpin⟩ := hapart i j c d hi hc hd
    obtain ⟨hnone, hmax, htouched, hcfg, hbound, hreached, hothers⟩ := hok i c hc
    refine ⟨?_, hmax, htouched, hcfg, hbound, hreached, fun k e he => ?_⟩
    · rw [controllerAt_finished, if_neg hid, hnone]
    · rw [controllerAt_finished] at he
      split at he
      · cases he; exact hpin.symm
      · exact hothers k e he

/-- The call of the context whose turn it was is in order, and apart from the others. -/
theorem hostTurn_own_call_ok (hcontrollers : ControllersOk s) (hcalls : CallOk s) (h : hostTurn j s = .next t) {c : InitCall}
    (hc : (t.contextAt j).call = some c) :
    c.Ok t ∧ ∀ i d, i ≠ j → (s.contextAt i).call = some d → c.Apart d := by
  obtain ⟨hok, hapart⟩ := (callOk_iff s).1 hcalls
  obtain ⟨d, ins, st, hd, hst, hcom, rfl⟩ | ⟨a, ops, -, rfl, hbound⟩ := hostTurn_call_cases h hc
  · refine ⟨?_, fun i e hi he => hapart j i d e hi.symm hd he⟩
    obtain ⟨hnone, hmax, -, hcfg, hpin, hreached, hothers⟩ := hok j d hd
    obtain ⟨hnext, htouched, hcfg'⟩ := hreached.next hst hcom.effect_eq
    obtain ⟨hcs, hpins, -⟩ := hcom.frame
    have hcontroller (k : Nat) : t.controllerAt k = s.controllerAt k := by rw [State.controllerAt, hcs]; rfl
    simp only [InitCall.Ok, hcontroller]
    exact ⟨hnone, hmax, htouched, hcfg'.trans hcfg, (Updates.of_hostTurn h).pinBoundAt hpin, hnext, hothers⟩
  · have hcontroller (k : Nat) : t.controllerAt k = s.controllerAt k := by
      rw [State.controllerAt, hbound.controllers_eq]; rfl
    have hself := hbound.blockAt_eq a.sequencerId.toNat
    have hpin := hbound.pinBoundAt_self
    rw [if_pos rfl] at hself
    obtain ⟨-, -, -, -, -, hidle, hfresh, hfree, ⟨-, hmax⟩, -⟩ := hbound
    rw [onContext_blockAt] at hidle hfresh
    rw [onContext_pinBoundAt] at hfree
    refine ⟨?_, fun i d hi hd => ⟨fun hid => ?_, fun hpins => ?_⟩⟩
    · simp only [InitCall.Ok, hcontroller, InitArgs.call, hself, hpin, InitCall.Reached, onContext_blockAt]
      refine ⟨?_, hmax, trivial, trivial, trivial, hidle, fun k d hd hpins => ?_⟩
      · cases hcon : s.controllerAt a.sequencerId.toNat with
        | none => rfl
        | some d =>
          obtain ⟨-, -, hrun, -⟩ := hcontrollers.1 _ d hcon
          exact absurd (hidle.symm.trans hrun) Bool.false_ne_true
      · obtain ⟨-, -, -, -, -, -, hbound⟩ := hcontrollers.1 k d hd
        rw [hpins, hfree] at hbound
        cases hbound
    · obtain ⟨-, -, htouched, -⟩ := hok i d hd
      rw [← hid] at htouched
      exact absurd (hfresh.symm.trans htouched) Bool.false_ne_true
    · obtain ⟨-, -, -, -, hbound, -⟩ := hok i d hd
      rw [← hpins] at hbound
      exact absurd (hfree.symm.trans hbound) Bool.false_ne_true

theorem hostTurn_callOk (hcontrollers : ControllersOk s) (hcalls : CallOk s) (hpriming : PrimingUndisturbed s)
    (h : hostTurn j s = .next t) : CallOk t :=
  hcalls.of_one_context (fun i hi => by rw [(Updates.of_hostTurn h).contextAt_ne hi])
    (fun _ _ hi hc => hostTurn_other_call_ok hcontrollers hcalls hpriming h hi hc)
    (fun _ hc => hostTurn_own_call_ok hcontrollers hcalls h hc)

end HostTurn

/-! ### The three parts of the invariant -/

section Step

variable {s t : State}

theorem step_controllers (h : step s = .next t) :
    t.controllers = s.controllers ∨ ∃ j c, (s.contextAt j).call = some c ∧ c.stage = .finish ∧ t = finished s.turnUsed j c := by
  obtain ⟨k, -, hturn⟩ | ⟨j, -, hturn⟩ := step_cases s t h
  · exact .inl (seqTurn_frame hturn).2.1
  · exact (hostTurn_controllers hturn).imp id fun ⟨c, hc⟩ => ⟨j, c, hc⟩

/-- A controller's instance runs, so it goes on; and a new controller takes over the instance and the pin of the call that made it. -/
theorem step_controllersOk (hprog : s.prog = []) (hcontrollers : ControllersOk s) (hcalls : CallOk s) (h : step s = .next t) :
    ControllersOk t := by
  obtain ⟨hown, hpins⟩ := hcontrollers
  have hold (k : Nat) (c : Controller) (hc : s.controllerAt k = some c) : c.sequencerHandle = k ∧
      c.maxCount ≤ Config.maxCountLimit ∧ (t.blockAt k).run = true ∧ (t.blockAt k).touched = true ∧
      (t.blockAt k).period = BitVec.ofNat 32 c.maxCount ∧ (t.blockAt k).cfgPin = c.pinBinding ∧
      t.pinBoundAt c.pinBinding = true := by
    obtain ⟨hhandle, hmax, hrun, htouched, hperiod, hcfg, hbound⟩ := hown k c hc
    obtain ⟨hperiod', hcfg', htouched'⟩ := step_running hprog h hrun
    exact ⟨hhandle, hmax, step_run h hrun, htouched' htouched, hperiod'.trans hperiod, hcfg'.trans hcfg,
      step_pinBoundAt h hbound⟩
  obtain hsame | ⟨j, d, hd, hfinish, rfl⟩ := step_controllers h
  · have hcontroller (k : Nat) : t.controllerAt k = s.controllerAt k := by rw [State.controllerAt, hsame, State.controllerAt]
    simp only [ControllersOk, hcontroller]
    exact ⟨hold, hpins⟩
  · obtain ⟨-, hmax, htouched, hcfg, hbound, hreached, hothers⟩ := hcalls.1 j d hd
    simp only [InitCall.Reached, hfinish] at hreached
    refine ⟨fun k c hc => ?_, fun k m c e hc he hpin => ?_⟩
    · rw [controllerAt_finished] at hc
      split at hc
      · next hk =>
        cases hc
        subst hk
        exact ⟨rfl, hmax, hreached.1, htouched, hreached.2, hcfg, hbound⟩
      · exact hold k c hc
    · rw [controllerAt_finished] at hc he
      split at hc <;> split at he
      · next hk hm => rw [hk, hm]
      · cases hc; exact absurd hpin.symm (hothers m e he)
      · cases he; exact absurd hpin (hothers k c hc)
      · exact hpins k m c e hc he hpin

/-- A running sequencer goes on, and a call is advanced by its own context alone. -/
theorem step_callOk (h : step s = .next t) (hs : ChannelInv s) : CallOk t := by
  obtain ⟨hprog, hcontrollers, hcalls, hpriming⟩ := hs
  obtain ⟨k, -, hturn⟩ | ⟨j, -, hturn⟩ := step_cases s t h
  · obtain ⟨hpins, hcs, hcontexts, hne⟩ := seqTurn_frame hturn
    have hcontext (i : Nat) : t.contextAt i = s.contextAt i := by rw [State.contextAt, hcontexts]; rfl
    obtain ⟨hok, hapart⟩ := (callOk_iff s).1 hcalls
    refine (callOk_iff t).2 ⟨fun i c hc => ?_, by simpa only [hcontext] using hapart⟩
    rw [hcontext] at hc
    refine (hok i c hc).of_frame hcs (fun _ => step_pinBoundAt h) ?_
    by_cases hk : c.sequencerId = k
    · subst hk
      obtain heq | ⟨hrun, -⟩ := seqTurn_blockAt_self hturn
      · exact .inl heq
      · exact step_goesOn hprog h hrun
    · exact .inl (hne _ hk)
  · exact hostTurn_callOk (s := s.turnUsed) hcontrollers hcalls hpriming hturn

theorem step_primingUndisturbed (h : step s = .next t) (hs : PrimingUndisturbed s) : PrimingUndisturbed t := by
  obtain ⟨k, -, hturn⟩ | ⟨j, -, hturn⟩ := step_cases s t h
  · obtain ⟨-, -, hcontexts, -⟩ := seqTurn_frame hturn
    have hcontext (i : Nat) : t.contextAt i = s.contextAt i := by rw [State.contextAt, hcontexts]; rfl
    simpa only [PrimingUndisturbed, hcontext] using hs
  · exact hostTurn_primingUndisturbed hturn hs

end Step

/-- Settles O58, part by part: what a step does to the controllers, to the calls in progress, and to what the contexts are about to do. -/
theorem stepKeepsChannelInv : Obligations.StepKeepsChannelInv := by
  intro s t hs h
  have hcalls : CallOk t := step_callOk h hs
  obtain ⟨hprog, hcontrollers, hcalls', hpriming⟩ := hs
  exact ⟨(step_prog h).trans hprog, step_controllersOk hprog hcontrollers hcalls' h, hcalls, step_primingUndisturbed h hpriming⟩

end Sys2Proof.Machine
end

section
/-! PROOFS. Turns taken from the schedule: a host command is the decoded instruction executed (R53, R93), a step of the fixed program is one of
the state machine (R124); and the Transfer Queue between the two agents (R60 to R66). -/

namespace Sys2Proof.Machine

/-! ### The turn at the head of the schedule -/

theorem turnUsed_of_schedule {s : State} {who : Agent} {rest : List Agent} (h : s.schedule = who :: rest) :
    s.turnUsed = { s with schedule := rest } := by
  rw [State.turnUsed, h, List.tail_cons]

theorem step_of_schedule {s : State} {who : Agent} {rest : List Agent} (h : s.schedule = who :: rest) :
    step s = turn who { s with schedule := rest } := by
  rw [step_of_turnOf (turnOf_cons s who rest h), turnUsed_of_schedule h]

/-! ### The host's turn with a command word -/

theorem commandTurn_of_ok {k : Nat} {w : CommandWord} {i : Instr} (s : State) (hk : k < Config.nSeq)
    (hi : decodeCommand w = .ok i) : commandTurn k w s = exec i (s.addressed k) := by
  simp [commandTurn, hk, hi]

theorem commandTurn_of_error {k : Nat} {w : CommandWord} {e : DecodeError} (s : State) (hk : k < Config.nSeq)
    (he : decodeCommand w = .error e) : commandTurn k w s = .refused .reservedCommand := by
  simp [commandTurn, hk, he]

theorem hostTurn_of_command {s : State} {j k : Nat} {w : CommandWord} {ops : List HostOp}
    (hcall : (s.contextAt j).call = none) (hops : (s.contextAt j).ops = .command k w :: ops) :
    hostTurn j s = commandTurn k w (s.onContext j fun h => { h with ops := ops }) := by
  simp [hostTurn, hcall, hops, hostOp]

theorem step_of_command {s : State} {j k : Nat} {w : CommandWord} {ops : List HostOp} {rest : List Agent}
    (hschedule : s.schedule = .host j :: rest) (hcall : (s.contextAt j).call = none)
    (hops : (s.contextAt j).ops = .command k w :: ops) :
    step s = commandTurn k w (({ s with schedule := rest } : State).onContext j fun h => { h with ops := ops }) :=
  (step_of_schedule hschedule).trans (hostTurn_of_command hcall hops)

/-- Settles O22: the host's turn is the command's, whose word is decoded. -/
theorem stepRunsHostCommand : Obligations.StepRunsHostCommand := by
  intro s j k w ops rest hschedule hcall hops hk
  rw [step_of_command hschedule hcall hops]
  exact ⟨fun i hi => commandTurn_of_ok _ hk hi, fun e he => commandTurn_of_error _ hk he⟩

/-! ### An enqueue -/

/-- The command code of `ENQUEUE` is 0 (R91), so its word is its data. -/
theorem packCommand_zero (v : Word) : packCommand 0 v = v.setWidth 34 := by
  simp [packCommand]

/-- The word of `ENQUEUE v` decodes to it (R93). -/
theorem decodeCommand_enqueue (v : Word) : decodeCommand (packCommand 0 v) = .ok (.enqueue v) := by
  have hv : v.toNat < 2 ^ 32 := v.isLt
  have hcmd : (cmdField (packCommand 0 v)).toNat = 0 := by
    rw [cmdField, packCommand_zero, BitVec.extractLsb'_toNat, BitVec.toNat_setWidth, Nat.shiftRight_eq_div_pow]
    omega
  have hdata : dataField (packCommand 0 v) = v := by
    apply BitVec.eq_of_toNat_eq
    rw [dataField, packCommand_zero, BitVec.extractLsb'_toNat, BitVec.toNat_setWidth, Nat.shiftRight_zero]
    omega
  simp only [decodeCommand, hcmd, hdata]

/-- The host's turn with an enqueue next (R140, R56): the value is pending, the operation and the turn are used up. -/
theorem step_enqueue {s : State} {j k : Nat} {v : Word} {ops : List HostOp} {rest : List Agent} (hk : k < Config.nSeq)
    (hcall : (s.contextAt j).call = none) (hops : (s.contextAt j).ops = .command k (packCommand 0 v) :: ops)
    (hschedule : s.schedule = .host j :: rest) :
    ∃ t, step s = .next t ∧ t.schedule = rest ∧ t.prog = s.prog ∧
      t.blockAt k = { s.blockAt k with tqData := v, tqValid := true, touched := true } ∧
      t.contextAt j = { s.contextAt j with ops := ops } ∧ ∀ i, i ≠ j → t.contextAt i = s.contextAt i := by
  rw [step_of_command hschedule hcall hops, commandTurn_of_ok _ hk (decodeCommand_enqueue v), exec_eq_effect, block_addressed]
  refine ⟨_, rfl, rfl, rfl, blockAt_setBlock_self _ k _, ?_, fun i hi => ?_⟩
  · rw [setBlock_contextAt, addressed_contextAt, contextAt_onContext, if_pos rfl]
    rfl
  · rw [setBlock_contextAt, addressed_contextAt, contextAt_onContext, if_neg hi]
    rfl

/-! ### A step of the fixed program -/

/-- No word of the fixed program is reserved. -/
theorem exists_decodeMicro_romImage (u : Block) : ∃ i, decodeMicro (romImage u.pc.val) = .ok i := by
  obtain ⟨h0, h1, h2, h3, h4, h5⟩ := decodeMicro_romImage
  obtain hpc | hpc | hpc | hpc | hpc | hpc := u.pc_cases <;> rw [hpc]
  exacts [⟨_, h0⟩, ⟨_, h1⟩, ⟨_, h2⟩, ⟨_, h3⟩, ⟨_, h4⟩, ⟨_, h5⟩]

/-- The turn of a running sequencer with the fixed program is one transition of the state machine of R124. -/
theorem seqTurn_fixed {s : State} {k : Nat} (hk : k < Config.nSeq) (hprog : s.prog = []) (hrun : (s.blockAt k).run = true) :
    seqTurn k s = .next ((s.select k).setBlock k (s.blockAt k).machineStep) := by
  have hread : s.romRead (s.blockAt k).pc.val = .ok (romImage (s.blockAt k).pc.val) := by
    rw [romRead_pc, hprog, Sparse.get]
  obtain ⟨i, hi⟩ := exists_decodeMicro_romImage (s.blockAt k)
  simp [seqTurn, hk, hrun, hread, hi, exec_eq_effect, effect_romImage _ hi]

theorem step_fixed {s : State} {k : Nat} {rest : List Agent} (hk : k < Config.nSeq) (hprog : s.prog = [])
    (hrun : (s.blockAt k).run = true) (hschedule : s.schedule = .seq k :: rest) :
    ∃ t, step s = .next t ∧ t.schedule = rest ∧ t.blockAt k = (s.blockAt k).machineStep ∧ t.contexts = s.contexts :=
  ⟨_, (step_of_schedule hschedule).trans (seqTurn_fixed (s := { s with schedule := rest }) hk hprog hrun), rfl,
    blockAt_setBlock_self _ k _, rfl⟩

/-! ### Enqueues and the fetch -/

section Queue

variable {s : State} {j k : Nat} {v : Word} {rest : List Agent}

/-- An enqueue, then the fetch: it returns the value. -/
theorem run_enqueue_fetch {ops : List HostOp} (hk : k < Config.nSeq) (hprog : s.prog = []) (hcall : (s.contextAt j).call = none)
    (hrun : (s.blockAt k).run = true) (hpc : (s.blockAt k).pc = 0)
    (hops : (s.contextAt j).ops = .command k (packCommand 0 v) :: ops) (hschedule : s.schedule = .host j :: .seq k :: rest) :
    ∃ t, core.run 2 s = .next t ∧ (t.blockAt k).scr = v ∧ (t.blockAt k).tqValid = false := by
  obtain ⟨t₁, hstep₁, hschedule₁, hprog₁, hblock₁, -⟩ := step_enqueue hk hcall hops hschedule
  obtain ⟨t₂, hstep₂, -, hblock₂, -⟩ :=
    step_fixed hk (hprog₁.trans hprog) (by rw [hblock₁]; exact hrun) hschedule₁
  have hpc₁ : (t₁.blockAt k).pc = 0 := by rw [hblock₁]; exact hpc
  refine ⟨t₂, by rw [core_run_next 1 s t₁ hstep₁, core_run_next 0 t₁ t₂ hstep₂, core_run_zero], ?_⟩
  rw [hblock₂, Block.machineStep_fetch _ hpc₁, hblock₁]
  exact ⟨rfl, rfl⟩

/-- The fetch, then an enqueue: the value stays pending. -/
theorem run_fetch_enqueue {ops : List HostOp} (hk : k < Config.nSeq) (hprog : s.prog = []) (hcall : (s.contextAt j).call = none)
    (hrun : (s.blockAt k).run = true) (hpc : (s.blockAt k).pc = 0)
    (hops : (s.contextAt j).ops = .command k (packCommand 0 v) :: ops) (hschedule : s.schedule = .seq k :: .host j :: rest) :
    ∃ t, core.run 2 s = .next t ∧ (t.blockAt k).scr = (s.blockAt k).nextThreshold ∧ (t.blockAt k).tqValid = true ∧
      (t.blockAt k).tqData = v := by
  obtain ⟨t₁, hstep₁, hschedule₁, hblock₁, hcontexts₁⟩ := step_fixed hk hprog hrun hschedule
  have hcontext : t₁.contextAt j = s.contextAt j := by rw [State.contextAt, hcontexts₁, State.contextAt]
  obtain ⟨t₂, hstep₂, -, -, hblock₂, -⟩ :=
    step_enqueue hk (by rw [hcontext]; exact hcall) (by rw [hcontext]; exact hops) hschedule₁
  refine ⟨t₂, by rw [core_run_next 1 s t₁ hstep₁, core_run_next 0 t₁ t₂ hstep₂, core_run_zero], ?_⟩
  rw [hblock₂, hblock₁, Block.machineStep_fetch _ hpc]
  exact ⟨rfl, rfl, rfl⟩

/-- Any number of enqueues of one context, then the fetch: it returns the last value, each enqueue overwriting the one before (R62). -/
theorem run_enqueues_fetch (vs : List Word) (hk : k < Config.nSeq) (hprog : s.prog = []) (hcall : (s.contextAt j).call = none)
    (hrun : (s.blockAt k).run = true) (hpc : (s.blockAt k).pc = 0)
    (hops : (s.contextAt j).ops = (vs ++ [v]).map fun a => HostOp.command k (packCommand 0 a))
    (hschedule : s.schedule = List.replicate (vs.length + 1) (Agent.host j) ++ Agent.seq k :: rest) :
    ∃ t, core.run (vs.length + 2) s = .next t ∧ (t.blockAt k).scr = v ∧ (t.blockAt k).tqValid = false := by
  induction vs generalizing s with
  | nil => exact run_enqueue_fetch hk hprog hcall hrun hpc hops hschedule
  | cons a vs ih =>
    obtain ⟨t, hstep, hschedule', hprog', hblock, hcontext, -⟩ := step_enqueue hk hcall hops hschedule
    rw [List.length_cons, core_run_next _ s t hstep]
    exact ih (hprog'.trans hprog) (by rw [hcontext]; exact hcall) (by rw [hblock]; exact hrun) (by rw [hblock]; exact hpc)
      (by rw [hcontext]; rfl) hschedule'

end Queue

/-- Settles O32: the enqueues of one context by induction on their number; of two contexts the earlier one leaves the later as it stands. -/
theorem fetchSeesLastEnqueue : Obligations.FetchSeesLastEnqueue := by
  refine ⟨fun s j k vs v rest hk hprog hcall hrun hpc hops hschedule =>
    run_enqueues_fetch vs hk hprog hcall hrun hpc hops hschedule, ?_⟩
  intro s i j k v w opsI opsJ rest hij hk hprog hcallI hcallJ hrun hpc hopsI hopsJ hschedule
  obtain ⟨t, hstep, hschedule', hprog', hblock, -, hothers⟩ := step_enqueue hk hcallI hopsI hschedule
  have hcontext : t.contextAt j = s.contextAt j := hothers j hij.symm
  rw [core_run_next 2 s t hstep]
  exact run_enqueue_fetch hk (hprog'.trans hprog) (by rw [hcontext]; exact hcallJ) (by rw [hblock]; exact hrun)
    (by rw [hblock]; exact hpc) (by rw [hcontext]; exact hopsJ) hschedule'

/-- Settles O33: the two orders are the two lemmas above. -/
theorem enqueueAndFetchEitherOrder : Obligations.EnqueueAndFetchEitherOrder :=
  fun _ _ _ _ _ _ hk hprog hcall hrun hpc hops =>
    ⟨run_enqueue_fetch hk hprog hcall hrun hpc hops, run_fetch_enqueue hk hprog hcall hrun hpc hops⟩

end Sys2Proof.Machine
end

section
/-! PROOFS. The sequencers keep stepping (R68, R252): every infinite run of `step` is weakly fair, because the schedule runs out and the rota reaches
every sequencer; and in a weakly fair execution a running sequencer keeps coming back to `FETCH`, where it takes what is pending. -/

namespace Sys2Proof.Machine

/-! ### The schedule and the rota -/

theorem Updates.schedule {j : Nat} {s t : State} (h : Updates j s t) : t.schedule = s.schedule := by
  induction h with
  | refl => rfl
  | onContext f _ ih => exact ih
  | select k _ ih => exact ih
  | setBlock k u _ ih => exact ih
  | bindPin p _ ih => exact ih
  | addController c _ ih => exact ih

/-- A step uses up one turn of the schedule, and no step adds one. -/
theorem step_schedule {s t : State} (h : step s = .next t) : t.schedule = s.schedule.tail := by
  obtain ⟨j, hu⟩ := Updates.of_step h
  exact hu.schedule

theorem seqTurn_sel {k : Nat} {s t : State} (h : seqTurn k s = .next t) : t.sel = k := by
  obtain ⟨-, ⟨-, rfl⟩ | ⟨-, w, i, -, -, v, -, rfl⟩⟩ := seqTurn_cases k s t h <;> rfl

/-- When the schedule has run out, a step goes on in rota. -/
theorem step_sel_of_schedule_nil {s t : State} (hschedule : s.schedule = []) (h : step s = .next t) : t.sel = rotaNext s.sel :=
  seqTurn_sel ((step_of_turnOf (turnOf_nil s hschedule)).symm.trans h)

theorem rotaNext_lt_nSeq (a : Nat) : rotaNext a < Config.nSeq := by
  unfold rotaNext
  split
  · assumption
  · exact Nat.succ_pos _

theorem rotaNext_iterate_of_lt {a i : Nat} (h : a + i < Config.nSeq) : rotaNext^[i] a = a + i := by
  induction i with
  | zero => rfl
  | succ i ih => rw [Function.iterate_succ_apply', ih (by omega), rotaNext, if_pos (by omega), Nat.add_assoc]

/-- From any number the rota comes to sequencer 0 ... -/
theorem rotaNext_iterate_eq_zero (a : Nat) : rotaNext^[Config.nSeq - 1 - a + 1] a = 0 := by
  have hlast : Config.nSeq ≤ rotaNext^[Config.nSeq - 1 - a] a + 1 := by
    by_cases ha : a < Config.nSeq
    · rw [rotaNext_iterate_of_lt (by omega)]
      omega
    · rw [show Config.nSeq - 1 - a = 0 by omega]
      exact Nat.le_succ_of_le (not_lt.mp ha)
  rw [Function.iterate_succ_apply', rotaNext, if_neg (by omega)]

/-- ... and so to every sequencer there is. -/
theorem exists_rotaNext_iterate (a : Nat) {k : Nat} (hk : k < Config.nSeq) : ∃ i, rotaNext^[i + 1] a = k := by
  refine ⟨k + (Config.nSeq - 1 - a), ?_⟩
  rw [Nat.add_assoc, Function.iterate_add_apply, rotaNext_iterate_eq_zero, rotaNext_iterate_of_lt (by omega), Nat.zero_add]

/-! ### Infinite runs of `step` -/

section Run

variable {e : Nat → State} (he : ∀ n, step (e n) = .next (e (n + 1)))
include he

theorem run_schedule (n i : Nat) : (e (n + i)).schedule = (e n).schedule.drop i := by
  induction i with
  | zero => rfl
  | succ i ih => rw [← Nat.add_assoc, step_schedule (he (n + i)), ih, List.tail_drop]

/-- Once the schedule has run out, whoever moves is who the rota says. -/
theorem run_turnOf_of_schedule_nil {n : Nat} (hnil : (e n).schedule = []) (i : Nat) :
    (e (n + i)).turnOf = .seq (rotaNext^[i + 1] (e n).sel) := by
  have hnil' (i : Nat) : (e (n + i)).schedule = [] := by rw [run_schedule he, hnil, List.drop_nil]
  have hsel : (e (n + i)).sel = rotaNext^[i] (e n).sel := by
    induction i with
    | zero => rfl
    | succ i ih => rw [Function.iterate_succ_apply', ← ih]; exact step_sel_of_schedule_nil (hnil' i) (he (n + i))
  rw [turnOf_nil _ (hnil' i), hsel, Function.iterate_succ_apply']

theorem run_weaklyFair : WeaklyFair (fun n => (e n).turnOf) e := by
  intro k n hk _
  have hnil : (e (n + (e n).schedule.length)).schedule = [] := by rw [run_schedule he, List.drop_length]
  obtain ⟨i, hi⟩ := exists_rotaNext_iterate (e (n + (e n).schedule.length)).sel hk
  exact ⟨n + (e n).schedule.length + i, by omega, (run_turnOf_of_schedule_nil he hnil i).trans (by rw [hi])⟩

end Run

/-- The turn of any sequencer with the fixed program completes, whether it runs or is idle. -/
theorem exists_seqTurn_fixed {s : State} {k : Nat} (hk : k < Config.nSeq) (hprog : s.prog = []) : ∃ t, seqTurn k s = .next t := by
  cases hrun : (s.blockAt k).run with
  | false => exact ⟨_, seqTurn_of_idle hk hrun⟩
  | true => exact ⟨_, seqTurn_fixed hk hprog hrun⟩

/-- Settles O36: the rota reaches every sequencer, running or not, and its turns complete. -/
theorem everyRunIsWeaklyFair : Obligations.EveryRunIsWeaklyFair := by
  refine ⟨fun e he => run_weaklyFair he, fun s => rfl, fun s hschedule hprog => ?_⟩
  obtain ⟨t, ht⟩ := exists_seqTurn_fixed (s := s.turnUsed) (rotaNext_lt_nSeq s.sel) hprog
  have hstep : step s = .next t := (step_of_turnOf (turnOf_nil s hschedule)).trans ht
  exact ⟨t, hstep, by rw [step_schedule hstep, hschedule, List.tail_nil], (step_prog hstep).trans hprog⟩

/-! ### One running instance in a weakly fair execution -/

/-- The instance less what the host writes of a running one: the queue, and the model's own `touched`. -/
def Block.forgetQueue (u : Block) : Block := { u with tqValid := false, tqData := 0, touched := false }

/-- To an instance that runs, the host's writes reach the queue alone (R37, R144), and never empty it. -/
theorem HostWrite.queue_only {u v : Block} (h : HostWrite u v) (hrun : u.run = true) :
    v.forgetQueue = u.forgetQueue ∧ (u.tqValid = true → v.tqValid = true) := by
  cases h with
  | enqueue d => exact ⟨rfl, fun _ => rfl⟩
  | activate => exact ⟨by rw [← hrun]; rfl, id⟩
  | fetch ss hidle | ldper ss hidle | bind p f hidle => exact absurd (hidle.symm.trans hrun) Bool.false_ne_true

/-- A bound on how many steps of its own an instance is from `FETCH`: the countdown takes at most three for each value of `Y`, a counter of 0
standing for `2^W` (R117). -/
def Block.stepsToFetch (u : Block) : Nat :=
  match SeqState.ofPc u.pc with
  | .FETCH => 0
  | .LATCH => 3 * (u.period - 1).toNat + 5
  | .RELOAD => 3 * (u.period - 1).toNat + 4
  | .COMPARE => 3 * (u.y - 1).toNat + 3
  | .SET_HIGH => 3 * (u.y - 1).toNat + 2
  | .DECREMENT => 3 * (u.y - 1).toNat + 1

theorem Block.stepsToFetch_forgetQueue (u : Block) : u.forgetQueue.stepsToFetch = u.stepsToFetch := rfl

theorem Block.stepsToFetch_machineStep_lt {u : Block} (h : u.pc ≠ 0) : u.machineStep.stepsToFetch < u.stepsToFetch := by
  obtain hpc | hpc | hpc | hpc | hpc | hpc := u.pc_cases
  · exact absurd hpc h
  · rw [u.machineStep_latch hpc]
    simp [stepsToFetch, SeqState.ofPc, hpc]
  · rw [u.machineStep_reload hpc]
    simp [stepsToFetch, SeqState.ofPc, hpc]
  · rw [u.machineStep_compare hpc]
    by_cases hxy : u.x = u.y <;> simp [stepsToFetch, SeqState.ofPc, hpc, hxy]
  · rw [u.machineStep_setHigh hpc]
    simp [stepsToFetch, SeqState.ofPc, hpc]
  · rw [u.machineStep_decrement hpc]
    by_cases hlast : u.y - 1 = 0
    · rw [if_pos hlast]
      simp [stepsToFetch, SeqState.ofPc, hpc]
    · have hy : (u.y - 1 - 1).toNat = (u.y - 1).toNat - 1 := toNat_sub_one (one_le_toNat hlast)
      have hpos : 1 ≤ (u.y - 1).toNat := one_le_toNat hlast
      rw [if_neg hlast]
      simp only [stepsToFetch, SeqState.ofPc, hpc, hy]
      show 3 * ((u.y - 1).toNat - 1) + 3 < 3 * (u.y - 1).toNat + 1
      omega

/-- Only `FETCH` empties the queue (R57). -/
theorem Block.machineStep_tqValid {u : Block} (h : u.pc ≠ 0) : u.machineStep.tqValid = u.tqValid := by
  obtain hpc | hpc | hpc | hpc | hpc | hpc := u.pc_cases
  · exact absurd hpc h
  all_goals simp [hpc, machineStep_latch, machineStep_reload, machineStep_compare, machineStep_setHigh, machineStep_decrement]

/-- The life of a running instance `u 0, u 1, ...`: its sequencer makes the steps `own`, which recur, and at the others nothing happens to it or the
host writes to it. -/
structure InstanceRun (own : Nat → Prop) (u : Nat → Block) : Prop where
  running : ∀ n, (u n).run = true
  of_own : ∀ n, own n → u (n + 1) = (u n).machineStep
  of_not_own : ∀ n, ¬own n → u (n + 1) = u n ∨ HostWrite (u n) (u (n + 1))
  recurs : ∀ n, ∃ m, n ≤ m ∧ own m

namespace InstanceRun

variable {own : Nat → Prop} {u : Nat → Block} (h : InstanceRun own u)
include h

theorem queue_only_of_not_own {n : Nat} (hn : ¬own n) :
    (u (n + 1)).forgetQueue = (u n).forgetQueue ∧ ((u n).tqValid = true → (u (n + 1)).tqValid = true) := by
  obtain heq | hw := h.of_not_own n hn
  · rw [heq]; exact ⟨rfl, id⟩
  · exact hw.queue_only (h.running n)

/-- Up to the sequencer's next step only the queue changes, and a pending value stays pending. -/
theorem exists_next_own (n : Nat) : ∃ m, n ≤ m ∧ own m ∧ (u m).forgetQueue = (u n).forgetQueue ∧
    ((u n).tqValid = true → (u m).tqValid = true) := by
  obtain ⟨m, hnm, hm⟩ := h.recurs n
  induction hnm using Nat.decreasingInduction with
  | self => exact ⟨m, le_rfl, hm, rfl, id⟩
  | of_succ n hn ih =>
    by_cases hown : own n
    · exact ⟨n, le_rfl, hown, rfl, id⟩
    · obtain ⟨m', hle, hm', hsame, hpending⟩ := ih
      obtain ⟨hsame₁, hpending₁⟩ := h.queue_only_of_not_own hown
      exact ⟨m', (Nat.le_succ n).trans hle, hm', hsame.trans hsame₁, hpending ∘ hpending₁⟩

/-- The sequencer comes to `FETCH` (R68), and a value pending until then is pending there. -/
theorem exists_fetch (n : Nat) : ∃ m, n ≤ m ∧ own m ∧ (u m).pc = 0 ∧ ((u n).tqValid = true → (u m).tqValid = true) := by
  induction hsteps : (u n).stepsToFetch using Nat.strong_induction_on generalizing n with
  | _ steps ih =>
    obtain ⟨m, hnm, hown, hsame, hpending⟩ := h.exists_next_own n
    by_cases hpc : (u m).pc = 0
    · exact ⟨m, hnm, hown, hpc, hpending⟩
    · have hlt : (u (m + 1)).stepsToFetch < steps := by
        rw [h.of_own m hown, ← hsteps, ← (u n).stepsToFetch_forgetQueue, ← hsame]
        exact Block.stepsToFetch_machineStep_lt hpc
      obtain ⟨m', hle, hown', hpc', hpending'⟩ := ih _ hlt (m + 1) rfl
      rw [h.of_own m hown, Block.machineStep_tqValid hpc] at hpending'
      exact ⟨m', by omega, hown', hpc', hpending' ∘ hpending⟩

/-- The fetch takes what is then pending to `SCR`, and the sequencer's next step latches it into `X` (R112, R113). -/
theorem exists_latched {n : Nat} (hown : own n) (hpc : (u n).pc = 0) : ∃ m, (u m).x = (u n).nextThreshold := by
  have hfetched : u (n + 1) = _ := (h.of_own n hown).trans (Block.machineStep_fetch _ hpc)
  obtain ⟨m, -, hown', hsame, -⟩ := h.exists_next_own (n + 1)
  have hpc' : (u m).pc = 1 := (congrArg Block.pc hsame).trans (by rw [hfetched]; rfl)
  have hscr : (u m).scr = (u n).nextThreshold := (congrArg Block.scr hsame).trans (by rw [hfetched]; rfl)
  exact ⟨m + 1, by rw [h.of_own m hown', Block.machineStep_latch _ hpc', hscr]⟩

/-- A pending value reaches `X`, or another takes its place in the queue (R62). -/
theorem pending_reaches_x (hvalid : (u 0).tqValid = true) (v : Word) : ∃ n, (u n).x = v ∨ (u n).tqData ≠ v := by
  obtain ⟨m, -, hown, hpc, hpending⟩ := h.exists_fetch 0
  by_cases hdata : (u m).tqData = v
  · obtain ⟨n, hx⟩ := h.exists_latched hown hpc
    exact ⟨n, .inl (by rw [hx, Block.nextThreshold, if_pos (hpending hvalid), hdata])⟩
  · exact ⟨m, .inr hdata⟩

end InstanceRun

/-! ### Executions -/

section Turn

variable {who : Agent} {s t : State}

/-- The state in which `who` moves next. -/
def State.scheduled (s : State) (who : Agent) : State := { s with schedule := who :: s.schedule }

/-- A turn is the step of the system whose schedule it heads, so what is known of steps holds of turns. -/
theorem step_of_turn (h : turn who s = .next t) : step (s.scheduled who) = .next t := h

theorem turn_prog (h : turn who s = .next t) : t.prog = s.prog :=
  step_prog (s := s.scheduled who) (step_of_turn h)

theorem turn_run (h : turn who s = .next t) {k : Nat} (hrun : (s.blockAt k).run = true) : (t.blockAt k).run = true :=
  step_run (step_of_turn h) hrun

/-- To an instance whose sequencer does not have the turn nothing happens, or the host writes to it. -/
theorem turn_blockAt_of_ne (hprog : s.prog = []) (h : turn who s = .next t) {k : Nat} (hwho : who ≠ .seq k) :
    t.blockAt k = s.blockAt k ∨ HostWrite (s.blockAt k) (t.blockAt k) := by
  obtain heq | ⟨hturn, -⟩ | hw := step_blockAt_fixed (s := s.scheduled who) hprog (step_of_turn h) k
  · exact .inl heq
  · exact absurd hturn hwho
  · exact .inr hw

theorem turn_blockAt_own (hprog : s.prog = []) {k : Nat} (hk : k < Config.nSeq) (hrun : (s.blockAt k).run = true)
    (h : turn (.seq k) s = .next t) : t.blockAt k = (s.blockAt k).machineStep := by
  rw [turn, seqTurn_fixed hk hprog hrun, Host.Outcome.next.injEq] at h
  rw [← h, blockAt_setBlock_self]

end Turn

section Execution

variable {who : Nat → Agent} {asks : Nat → List (Nat × HostOp)} {e : Nat → State} (he : Execution who asks e)
include he

theorem Execution.prog_eq (hprog : (e 0).prog = []) (n : Nat) : (e n).prog = [] := by
  induction n with
  | zero => exact hprog
  | succ n ih => rw [turn_prog (he n), asked_prog, ih]

/-- Nothing clears `run` (R29). -/
theorem Execution.run_eq {k : Nat} (hrun : ((e 0).blockAt k).run = true) (n : Nat) : ((e n).blockAt k).run = true := by
  induction n with
  | zero => exact hrun
  | succ n ih => exact turn_run (he n) (by rw [asked_blockAt, ih])

/-- In a weakly fair execution with the fixed program each running instance lives as `InstanceRun` says. -/
theorem Execution.instanceRun (hfair : WeaklyFair who e) (hprog : (e 0).prog = []) {k : Nat} (hk : k < Config.nSeq)
    (hrun : ((e 0).blockAt k).run = true) : InstanceRun (fun n => who n = .seq k) fun n => (e n).blockAt k where
  running := he.run_eq hrun
  of_own n hown := by
    have hturn : turn (.seq k) ((e n).asked (asks n)) = .next (e (n + 1)) := hown ▸ he n
    rw [turn_blockAt_own (by rw [asked_prog, he.prog_eq hprog]) hk (by rw [asked_blockAt, he.run_eq hrun]) hturn, asked_blockAt]
  of_not_own n hown := by
    have hcases := turn_blockAt_of_ne (by rw [asked_prog, he.prog_eq hprog]) (he n) hown
    rwa [asked_blockAt] at hcases
  recurs n := hfair k n hk (he.run_eq hrun n)

end Execution

/-- Settles O37: what `InstanceRun` says of the instance, which `Execution.instanceRun` gives. -/
theorem fairRunsApplyPendingValue : Obligations.FairRunsApplyPendingValue := by
  intro who asks e k he hfair hprog hk hrun
  have hlife : InstanceRun (fun n => who n = .seq k) fun n => (e n).blockAt k := he.instanceRun hfair hprog hk hrun
  refine ⟨fun n => ?_, fun v hvalid _ => hlife.pending_reaches_x hvalid v⟩
  obtain ⟨m, hnm, hown, hpc, -⟩ := hlife.exists_fetch n
  exact ⟨m, hnm, hown, hpc⟩

end Sys2Proof.Machine
end

section
/-! PROOFS. Encoding (spec/30_encoding.md): what decodes is exactly what is well formed, and decoding and encoding are inverse to each other
(`decode_eq_ok_iff`); the words that are reserved; the words the spec writes out. And program space (spec/20_memory.md), which no step writes. -/

namespace Sys2Proof.Machine

/-! ### The fields of a word

A word is its fields side by side, so a field is read off it by the library's lemmas about `++` and `extractLsb'`. -/

/-- The layout of format M (R81). -/
theorem packMicro_eq_append (op : BitVec 3) (ss : SideSet) (tgt : BitVec 3) :
    packMicro op ss tgt = op ++ encodeSideSet ss ++ tgt := by
  revert op tgt
  rcases ss with _ | _ | _ <;> decide

theorem opField_packMicro (op : BitVec 3) (ss : SideSet) (tgt : BitVec 3) : opField (packMicro op ss tgt) = op := by
  rw [opField, packMicro_eq_append, BitVec.extractLsb'_append_eq_of_le (by decide), BitVec.extractLsb'_append_eq_left]

theorem tgtField_packMicro (op : BitVec 3) (ss : SideSet) (tgt : BitVec 3) : tgtField (packMicro op ss tgt) = tgt := by
  rw [tgtField, packMicro_eq_append, BitVec.extractLsb'_append_eq_right]

theorem decodeSideSet_packMicro (op : BitVec 3) (ss : SideSet) (tgt : BitVec 3) :
    decodeSideSet ((packMicro op ss tgt).getLsbD 4) ((packMicro op ss tgt).getLsbD 3) = .ok ss := by
  simp only [packMicro_eq_append, BitVec.getLsbD_append]
  rcases ss with _ | _ | _ <;> rfl

/-- A side-set that decodes has for its code the two bits it was decoded from (R83). -/
theorem encodeSideSet_of_decodeSideSet {w : Byte} {ss : SideSet} (h : decodeSideSet (w.getLsbD 4) (w.getLsbD 3) = .ok ss) :
    encodeSideSet ss = w.extractLsb' 3 2 := by
  have hbits : w.extractLsb' 3 2 = BitVec.ofBool (w.getLsbD 4) ++ BitVec.ofBool (w.getLsbD 3) := by
    clear h
    revert w
    decide
  rw [hbits]
  cases hen : w.getLsbD 4 <;> cases hval : w.getLsbD 3 <;> rw [hen, hval] at h <;> cases h <;> rfl

/-- A format-M word whose side-set decodes is made of its three fields: no bit of it is in none of them (R81). -/
theorem packMicro_fields {w : Byte} {ss : SideSet} (h : decodeSideSet (w.getLsbD 4) (w.getLsbD 3) = .ok ss) :
    packMicro (opField w) ss (tgtField w) = w := by
  rw [packMicro_eq_append, encodeSideSet_of_decodeSideSet h, opField, tgtField,
    BitVec.extractLsb'_append_extractLsb'_eq_extractLsb' (start₁ := 3) (len₁ := 2) rfl]
  exact BitVec.extractLsb'_append_extractLsb' (w := 5) (len := 3)

/-- The layout of format H (R90). -/
theorem packCommand_eq_append (cmd : BitVec 2) (data : Word) : packCommand cmd data = cmd ++ data := by
  apply BitVec.eq_of_getLsbD_eq
  intro i hi
  simp only [packCommand, BitVec.getLsbD_or, BitVec.getLsbD_shiftLeft, BitVec.getLsbD_setWidth, BitVec.getLsbD_append]
  by_cases h : i < 32
  · simp [h, hi]
  · have hcmd : i - 32 < 34 := by omega
    simp [h, hi, hcmd, data.getLsbD_of_ge i (by omega)]

theorem cmdField_packCommand (cmd : BitVec 2) (data : Word) : cmdField (packCommand cmd data) = cmd := by
  rw [cmdField, packCommand_eq_append, BitVec.extractLsb'_append_eq_left]

theorem dataField_packCommand (cmd : BitVec 2) (data : Word) : dataField (packCommand cmd data) = data := by
  rw [dataField, packCommand_eq_append, BitVec.extractLsb'_append_eq_right]

theorem packCommand_fields (c : CommandWord) : packCommand (cmdField c) (dataField c) = c := by
  rw [packCommand_eq_append]
  exact BitVec.extractLsb'_append_extractLsb' (w := 2) (len := 32)

/-! ### Decoding format M -/

theorem targetOk_iff (tgt : BitVec 3) : targetOk tgt = true ↔ tgt.toNat ≤ 5 := by
  simp only [targetOk, decide_eq_true_eq]
  exact Nat.lt_succ_iff

theorem withoutTarget_eq_ok_iff {tgt : BitVec 3} {i j : Instr} : withoutTarget tgt i = .ok j ↔ tgt = 0 ∧ i = j := by
  unfold withoutTarget
  split
  · next h => simp [h]
  · next h => exact iff_of_false nofun fun hi => h hi.1

theorem withTarget_eq_ok_iff {tgt : BitVec 3} {i j : Instr} : withTarget tgt i = .ok j ↔ targetOk tgt = true ∧ i = j := by
  unfold withTarget
  split
  · next h => simp [h]
  · next h => exact iff_of_false nofun fun hi => h hi.1

theorem exists_withoutTarget_iff {tgt : BitVec 3} {i : Instr} : (∃ j, withoutTarget tgt i = .ok j) ↔ tgt = 0 := by
  simp [withoutTarget_eq_ok_iff]

theorem exists_withTarget_iff {tgt : BitVec 3} {i : Instr} : (∃ j, withTarget tgt i = .ok j) ↔ tgt.toNat ≤ 5 := by
  simp [withTarget_eq_ok_iff, targetOk_iff]

/-- The eight operation codes of R82: the reserved one, the two jumps, the operations without a target. -/
theorem op_cases (op : BitVec 3) : op = 7 ∨ (op = 3 ∨ op = 5) ∨ (op = 0 ∨ op = 1 ∨ op = 2 ∨ op = 4 ∨ op = 6) := by
  revert op
  decide

theorem decodeMicro_packMicro (op : BitVec 3) (ss : SideSet) (tgt : BitVec 3) :
    decodeMicro (packMicro op ss tgt) = decodeOperation op tgt ss := by
  simp only [decodeMicro, decodeSideSet_packMicro, opField_packMicro, tgtField_packMicro]

theorem decodeMicro_eq_ok_iff_fields {w : Byte} {i : Instr} : decodeMicro w = .ok i ↔
    ∃ ss, decodeSideSet (w.getLsbD 4) (w.getLsbD 3) = .ok ss ∧ decodeOperation (opField w) (tgtField w) ss = .ok i := by
  unfold decodeMicro
  cases decodeSideSet (w.getLsbD 4) (w.getLsbD 3) <;> simp

/-- What the fields decode to is well formed, and its word is made of them (R82). -/
theorem wellFormed_encode_of_decodeOperation {op tgt : BitVec 3} {ss : SideSet} {i : Instr}
    (h : decodeOperation op tgt ss = .ok i) : i.wellFormed = true ∧ encode i = .micro (packMicro op ss tgt) := by
  obtain rfl | hjump | hplain := op_cases op
  · cases h
  · rcases hjump with rfl | rfl
    all_goals
      obtain ⟨htgt, rfl⟩ := withTarget_eq_ok_iff.mp h
      exact ⟨htgt, rfl⟩
  · rcases hplain with rfl | rfl | rfl | rfl | rfl
    all_goals
      obtain ⟨rfl, rfl⟩ := withoutTarget_eq_ok_iff.mp h
      exact ⟨rfl, rfl⟩

/-- Format M: a word decodes to `i` exactly when it is the word of `i` and `i` is well formed (R85, R86). -/
theorem decodeMicro_eq_ok_iff {w : Byte} {i : Instr} : decodeMicro w = .ok i ↔ i.wellFormed = true ∧ encode i = .micro w := by
  constructor
  · intro h
    obtain ⟨ss, hss, hop⟩ := decodeMicro_eq_ok_iff_fields.mp h
    have hi := wellFormed_encode_of_decodeOperation hop
    rwa [packMicro_fields hss] at hi
  · rintro ⟨hwf, henc⟩
    cases i with
    | enqueue v | exec b | activate => cases henc
    | fetch ss | latch ss | reload ss | nop ss | ldper ss =>
      cases henc
      rw [decodeMicro_packMicro]
      rfl
    | compare tgt ss | decrement tgt ss =>
      cases henc
      rw [decodeMicro_packMicro]
      exact withTarget_eq_ok_iff.mpr ⟨hwf, rfl⟩

/-! ### Which words of format M decode -/

theorem exists_decodeSideSet_iff {en val : Bool} : (∃ ss, decodeSideSet en val = .ok ss) ↔ (en = false → val = false) := by
  cases en <;> cases val <;> simp [decodeSideSet]

theorem exists_decodeOperation_iff {op tgt : BitVec 3} {ss : SideSet} : (∃ i, decodeOperation op tgt ss = .ok i) ↔
    op ≠ 7 ∧ (op ≠ 3 ∧ op ≠ 5 → tgt = 0) ∧ (op = 3 ∨ op = 5 → tgt.toNat ≤ 5) := by
  obtain rfl | hjump | hplain := op_cases op
  · simp [decodeOperation]
  · rcases hjump with rfl | rfl <;> simp [decodeOperation, exists_withTarget_iff]
  · rcases hplain with rfl | rfl | rfl | rfl | rfl <;> simp [decodeOperation, exists_withoutTarget_iff]

/-- The four conditions of R85. -/
theorem exists_decodeMicro_iff (w : Byte) : (∃ i, decodeMicro w = .ok i) ↔
    opField w ≠ 7 ∧ (w.getLsbD 4 = false → w.getLsbD 3 = false) ∧ (opField w ≠ 3 ∧ opField w ≠ 5 → tgtField w = 0) ∧
      (opField w = 3 ∨ opField w = 5 → (tgtField w).toNat ≤ 5) := by
  calc (∃ i, decodeMicro w = .ok i)
    _ ↔ ∃ ss, decodeSideSet (w.getLsbD 4) (w.getLsbD 3) = .ok ss ∧ ∃ i, decodeOperation (opField w) (tgtField w) ss = .ok i := by
      simp only [decodeMicro_eq_ok_iff_fields, ← exists_and_left]
      exact exists_comm
    _ ↔ _ := by
      simp only [exists_decodeOperation_iff, exists_and_right, exists_decodeSideSet_iff]
      exact and_left_comm

/-- The model's own reading of R85, `microWordOk`, is that of the decoder. -/
theorem microWordOk_iff (w : Byte) : microWordOk w = true ↔ ∃ i, decodeMicro w = .ok i := by
  have hfields : microWordOk w = (opField w != 7 && (w.getLsbD 4 || !w.getLsbD 3) &&
      ((opField w == 3 || opField w == 5) || tgtField w == 0) && (!(opField w == 3 || opField w == 5) || targetOk (tgtField w))) := rfl
  rw [hfields, exists_decodeMicro_iff]
  simp only [Bool.and_eq_true, Bool.or_eq_true, Bool.not_eq_true', bne_iff_ne, beq_iff_eq, Bool.or_eq_false_iff, beq_eq_false_iff_ne,
    targetOk_iff]
  cases w.getLsbD 4 <;> cases w.getLsbD 3 <;> tauto

/-- Settles O3: `exists_decodeMicro_iff`, and the count by running the decoder on the 256 words. -/
theorem microWordDecodesIffWellFormed : Obligations.MicroWordDecodesIffWellFormed :=
  ⟨exists_decodeMicro_iff, by decide⟩

/-! ### Decoding format H -/

/-- The four command codes of R91. -/
theorem cmdField_cases (c : CommandWord) : cmdField c = 0 ∨ cmdField c = 1 ∨ cmdField c = 2 ∨ cmdField c = 3 := by
  have hcmd : ∀ cmd : BitVec 2, cmd = 0 ∨ cmd = 1 ∨ cmd = 2 ∨ cmd = 3 := by decide
  exact hcmd (cmdField c)

section Command

variable {c : CommandWord}

theorem decodeCommand_of_cmd_zero (h : cmdField c = 0) : decodeCommand c = .ok (.enqueue (dataField c)) := by
  simp [decodeCommand, h]

theorem decodeCommand_of_cmd_one (h : cmdField c = 1) : decodeCommand c = decodeExec (dataField c) := by
  simp [decodeCommand, h]

theorem decodeCommand_of_cmd_two (h : cmdField c = 2) :
    decodeCommand c = if dataField c = 0 then .ok .activate else .error .activateData := by
  simp [decodeCommand, h]

theorem decodeCommand_of_cmd_three (h : cmdField c = 3) : decodeCommand c = .error .reservedCommandCode := by
  simp [decodeCommand, h]

end Command

/-- The data of an `EXEC` is 24 zeros and the instruction word (R93). -/
theorem setWidth_eq_zero_append (b : Byte) : b.setWidth 32 = 0#24 ++ b :=
  BitVec.setWidth_eq_append (by decide)

theorem decodeExec_setWidth {b : Byte} (h : microWordOk b = true) : decodeExec (b.setWidth 32) = .ok (.exec b) := by
  obtain ⟨op, hop⟩ := (microWordOk_iff b).mp h
  have hupper : (0#24 ++ b).extractLsb' 8 24 = 0 := BitVec.extractLsb'_append_eq_left
  have hlower : (0#24 ++ b).extractLsb' 0 8 = b := BitVec.extractLsb'_append_eq_right
  simp only [decodeExec, setWidth_eq_zero_append, hupper, hlower, hop, if_true]

/-- An `EXEC` that decodes carries a word that is not reserved, and nothing else (R93). -/
theorem exec_of_decodeExec {data : Word} {i : Instr} (h : decodeExec data = .ok i) :
    ∃ b : Byte, i = .exec b ∧ microWordOk b = true ∧ data = b.setWidth 32 := by
  unfold decodeExec at h
  split at h
  · next hupper =>
    split at h
    · next op hop =>
      cases h
      refine ⟨_, rfl, (microWordOk_iff _).mpr ⟨op, hop⟩, ?_⟩
      have hdata : data.extractLsb' 8 24 ++ data.extractLsb' 0 8 = data := BitVec.extractLsb'_append_extractLsb'
      rw [hupper] at hdata
      exact hdata.symm.trans (setWidth_eq_zero_append _).symm
    · cases h
  · cases h

theorem exists_decodeExec_error_iff (data : Word) : (∃ e, decodeExec data = .error e) ↔
    data.extractLsb' 8 24 ≠ 0 ∨ ∃ e, decodeMicro (data.extractLsb' 0 8) = .error e := by
  unfold decodeExec
  split
  · next hupper => cases decodeMicro (data.extractLsb' 0 8) <;> simp [hupper]
  · next hupper => exact iff_of_true ⟨_, rfl⟩ (.inl hupper)

/-- Settles O4: by the command code, with the decoder's equation for each. -/
theorem commandWordReservedIff : Obligations.CommandWordReservedIff := by
  intro c
  obtain h | h | h | h := cmdField_cases c
  · simp [decodeCommand_of_cmd_zero h, h]
  · simp [decodeCommand_of_cmd_one h, h, exists_decodeExec_error_iff]
  · rw [decodeCommand_of_cmd_two h]
    split
    · next hdata => simp [h, hdata]
    · next hdata => exact iff_of_true ⟨_, rfl⟩ (.inr (.inr (.inr ⟨h, hdata⟩)))
  · simp [decodeCommand_of_cmd_three h, h]

/-- Format H: a word decodes to `i` exactly when it is the word of `i` and `i` is well formed (R93). -/
theorem decodeCommand_eq_ok_iff {c : CommandWord} {i : Instr} :
    decodeCommand c = .ok i ↔ i.wellFormed = true ∧ encode i = .command c := by
  constructor
  · intro hi
    have hc : packCommand (cmdField c) (dataField c) = c := packCommand_fields c
    obtain h | h | h | h := cmdField_cases c <;> rw [h] at hc
    · rw [decodeCommand_of_cmd_zero h] at hi
      cases hi
      exact ⟨rfl, congrArg Code.command hc⟩
    · rw [decodeCommand_of_cmd_one h] at hi
      obtain ⟨b, rfl, hb, hdata⟩ := exec_of_decodeExec hi
      rw [hdata] at hc
      exact ⟨hb, congrArg Code.command hc⟩
    · rw [decodeCommand_of_cmd_two h] at hi
      split at hi
      · next hdata =>
        cases hi
        rw [hdata] at hc
        exact ⟨rfl, congrArg Code.command hc⟩
      · cases hi
    · rw [decodeCommand_of_cmd_three h] at hi
      cases hi
  · rintro ⟨hwf, henc⟩
    cases i with
    | fetch ss | latch ss | reload ss | nop ss | ldper ss | compare tgt ss | decrement tgt ss => cases henc
    | enqueue v =>
      cases henc
      exact decodeCommand_enqueue v
    | exec b =>
      cases henc
      rw [decodeCommand_of_cmd_one (cmdField_packCommand _ _), dataField_packCommand]
      exact decodeExec_setWidth hwf
    | activate =>
      cases henc
      rw [decodeCommand_of_cmd_two (cmdField_packCommand _ _), dataField_packCommand, if_pos rfl]

/-! ### Both formats -/

theorem decode_eq_ok_iff {c : Code} {i : Instr} : decode c = .ok i ↔ i.wellFormed = true ∧ encode i = c := by
  cases c with
  | micro w => exact decodeMicro_eq_ok_iff
  | command w => exact decodeCommand_eq_ok_iff

/-- Settles O1: the word of a well-formed instruction decodes to it. -/
theorem decodeOfEncode : Obligations.DecodeOfEncode :=
  fun _ hwf => decode_eq_ok_iff.mpr ⟨hwf, rfl⟩

/-- Settles O2: the other direction of `decode_eq_ok_iff`. -/
theorem encodeOfDecode : Obligations.EncodeOfDecode :=
  fun _ _ h => decode_eq_ok_iff.mp h

/-- Settles O5: the first six words are those of the fixed program. -/
theorem specWordsDecode : Obligations.SpecWordsDecode := by
  obtain ⟨h0, h1, h2, h3, h4, h5⟩ := decodeMicro_romImage
  exact ⟨h0, h1, h2, h3, h4, h5, by decide, by decide, by decide, by decide, by decide, by decide, by decide⟩

/-! ### Program space -/

theorem Memory.read_of_ge (m : Memory) (a : Nat) (h : 6 ≤ a) : Memory.read m a = .error (.noSuchProgramWord a) := by
  simp [Memory.read, h]

/-- Settles O8: with nothing listed, program space reads as the fixed image; and `step_prog`. -/
theorem programSpaceIsFixed : Obligations.ProgramSpaceIsFixed := by
  refine ⟨fun s hprog => ?_, fun s t h => step_prog h⟩
  simp only [State.romRead, hprog]
  exact ⟨rfl, rfl, rfl, rfl, rfl, rfl, Memory.read_of_ge _⟩

end Sys2Proof.Machine
end

section
/-! PROOFS. The micro-operations (spec/40_sequencer_program.md R112 to R120), one by one, and the turn of a running sequencer that executes them
(R110, R124). -/

namespace Sys2Proof.Machine

/-! ### An instruction by its effect -/

/-- Writing the instance the step acts on leaves everything else alone. -/
theorem sameButBlock_setBlock (s : State) (v : Block) : SameButBlock s (s.setBlock s.sel v) :=
  ⟨rfl, fun k hk => by rw [blockAt_setBlock, if_neg hk], rfl, rfl, rfl, rfl, rfl⟩

theorem completesWith_of_effect {i : Instr} {s : State} {f : Block → Block} (h : effect i s.block = .ok (f s.block)) :
    CompletesWith i s f := by
  have hexec : exec i s = .next (s.setBlock s.sel (f s.block)) := by rw [exec_eq_effect, h]
  exact ⟨_, hexec, blockAt_setBlock_self s s.sel _, sameButBlock_setBlock s _⟩

theorem refusedAs_of_effect {i : Instr} {s : State} {r : Refusal} (h : effect i s.block = .error r) : RefusedAs i s r := by
  rw [RefusedAs, exec_eq_effect, h]

/-- `EXEC` of the word of an operation that has no one-shot form is refused, whether or not the sequencer runs (R144). -/
theorem refusedAs_exec_of_oneShot_eq_none {i : Instr} {w : Byte} (s : State) (hwf : i.wellFormed = true)
    (henc : encode i = .micro w) (h : oneShot i = none) : RefusedAs (.exec w) s .execNotAdmitted := by
  have hdecode : decodeMicro w = .ok i := decodeMicro_eq_ok_iff.mpr ⟨hwf, henc⟩
  exact refusedAs_of_effect (by simp only [effect, hdecode, h])

/-- A jump with a target of the program is well formed (R84, R85). -/
theorem targetOk_of_lt {tgt : BitVec 3} (h : tgt.toNat < 6) : targetOk tgt = true :=
  (targetOk_iff tgt).mpr (Nat.lt_succ_iff.mp h)

/-! ### The seven micro-operations -/

/-- Settles O9: `effect` of a `FETCH`. -/
theorem fetchTakesPendingOrThreshold : Obligations.FetchTakesPendingOrThreshold :=
  fun _ _ => completesWith_of_effect rfl

/-- Settles O10: `effect` of a `LATCH`. -/
theorem latchCopiesScratchToThreshold : Obligations.LatchCopiesScratchToThreshold :=
  fun _ _ => completesWith_of_effect rfl

/-- Settles O11: `effect` of a `RELOAD`, its word in the reset program, and its want of a one-shot form. -/
theorem reloadCopiesPeriodToCounter : Obligations.ReloadCopiesPeriodToCounter :=
  ⟨fun _ _ => completesWith_of_effect rfl, ⟨rfl, rfl⟩, fun _ _ s henc => refusedAs_exec_of_oneShot_eq_none s rfl henc rfl⟩

/-- Settles O12: by whether the target lies in the program. -/
theorem compareJumpsWhenDifferent : Obligations.CompareJumpsWhenDifferent := by
  refine ⟨fun tgt ss s h => ?_, fun tgt ss s h => ?_, ⟨rfl, rfl⟩, fun tgt ss w s h henc => ?_⟩
  · exact completesWith_of_effect (by simp only [effect, target_eq_some tgt h])
  · exact refusedAs_of_effect (by simp only [effect, (target_eq_none tgt).mpr h])
  · exact refusedAs_exec_of_oneShot_eq_none (i := .compare tgt ss) s (targetOk_of_lt h) henc rfl

/-- Settles O13: `effect` of a `NOP`, its word in the reset program, and its want of a one-shot form. -/
theorem nopOnlyCarriesSideSet : Obligations.NopOnlyCarriesSideSet :=
  ⟨fun _ _ => completesWith_of_effect rfl, ⟨rfl, rfl⟩, fun _ _ s henc => refusedAs_exec_of_oneShot_eq_none s rfl henc rfl⟩

/-- The result of the decrement is 0 when the counter was 1 (R117). -/
theorem sub_one_eq_zero_iff (y : Word) : y - 1 = 0 ↔ y.toNat = 1 := by
  bv_omega

/-- The decrement wraps at 0 (R9, R117). -/
theorem toNat_sub_one_eq_ite (y : Word) : (y - 1).toNat = if y.toNat = 0 then 2 ^ 32 - 1 else y.toNat - 1 := by
  split
  · bv_omega
  · exact toNat_sub_one (by omega)

/-- Settles O14: by whether the target lies in the program, with the test on the result said of the counter before it. -/
theorem decrementCountsAndTestsResult : Obligations.DecrementCountsAndTestsResult := by
  refine ⟨fun tgt ss s h => ?_, toNat_sub_one_eq_ite, fun tgt ss s h => ?_, ⟨rfl, rfl, rfl⟩, fun tgt ss w s h henc => ?_⟩
  · exact completesWith_of_effect (by simp only [effect, target_eq_some tgt h, sub_one_eq_zero_iff])
  · exact refusedAs_of_effect (by simp only [effect, (target_eq_none tgt).mpr h])
  · exact refusedAs_exec_of_oneShot_eq_none (i := .decrement tgt ss) s (targetOk_of_lt h) henc rfl

/-- Settles O15: `effect` of an `LDPER`. -/
theorem ldperCopiesScratchToPeriod : Obligations.LdperCopiesScratchToPeriod :=
  fun _ _ => completesWith_of_effect rfl

/-! ### The turn of a running sequencer -/

section SeqTurn

variable {s : State} {k : Nat} {w : Byte} (hk : k < Config.nSeq) (hrun : (s.blockAt k).run = true)
  (hread : s.romRead (s.blockAt k).pc.val = .ok w)
include hk hrun hread

theorem seqTurn_of_decode_ok {i : Instr} (hi : decodeMicro w = .ok i) : seqTurn k s = exec i (s.select k) := by
  simp [seqTurn, hk, hrun, hread, hi]

theorem seqTurn_of_decode_error {e : DecodeError} (he : decodeMicro w = .error e) : seqTurn k s = .refused .reservedMicroWord := by
  simp [seqTurn, hk, hrun, hread, he]

end SeqTurn

/-- Settles O21: the step is the turn of `turnOf`, a sequencer's turn goes by what the word at its `pc` decodes to, and `turnOf` and `turnUsed`
read the schedule. -/
theorem stepRunsDecodedMicro : Obligations.StepRunsDecodedMicro := by
  refine ⟨fun s k w hturn hk hrun hread => ?_, fun s => ⟨fun who rest h => ⟨turnOf_cons s who rest h, turnUsed_of_schedule h⟩, fun h => ?_⟩⟩
  · rw [step_of_turnOf hturn]
    exact ⟨fun i hi => seqTurn_of_decode_ok (s := s.turnUsed) hk hrun hread hi,
      fun e he => seqTurn_of_decode_error (s := s.turnUsed) hk hrun hread he⟩
  · refine ⟨turnOf_nil s h, ?_⟩
    rw [State.turnUsed, h, List.tail_nil, ← h]

/-- Settles O25: `seqTurn_fixed`, in the state with the turn used up. -/
theorem sequencerIsTheStateMachine : Obligations.SequencerIsTheStateMachine := by
  intro s k hturn hk hprog hrun
  have hstep : step s = .next ((s.turnUsed.select k).setBlock k (s.blockAt k).machineStep) :=
    (step_of_turnOf hturn).trans (seqTurn_fixed (s := s.turnUsed) hk hprog hrun)
  exact ⟨_, hstep, blockAt_setBlock_self _ k _, sameButBlock_setBlock (s.turnUsed.select k) _⟩

end Sys2Proof.Machine
end

section
/-! PROOFS. One period of the fixed program (R123, R176), said of the steps its sequencer makes, with whatever the host writes to the queue between
them: what holds at each state of it, how many steps are left of it, and where it ends. The length of the period may be 0 (R162). -/

namespace Sys2Proof.Machine

/-! ### The countdown -/

/-- How many inner iterations follow the one made at the counter `y`. The counter runs down to 1, and from 0 through `2^W - 1` (R117), so this
orders the values of `Y` as the countdown comes to them. -/
def iterationsAfter (y : Word) : Nat := (y - 1).toNat

theorem iterationsAfter_eq_iff {a b : Word} : iterationsAfter a = iterationsAfter b ↔ a = b := by
  unfold iterationsAfter
  bv_omega

theorem iterationsAfter_of_last {y : Word} (h : y - 1 = 0) : iterationsAfter y = 0 := by
  rw [iterationsAfter, h]
  rfl

theorem iterationsAfter_of_not_last {y : Word} (h : y - 1 ≠ 0) : iterationsAfter y = iterationsAfter (y - 1) + 1 := by
  unfold iterationsAfter
  bv_omega

theorem iterationsAfter_of_ne_zero {y : Word} (h : y ≠ 0) : iterationsAfter y + 1 = y.toNat := by
  unfold iterationsAfter
  bv_omega

/-- A countdown from `M` that does not begin at 0 comes to `T` exactly when `1 <= T <= M` (R177). -/
theorem iterationsAfter_le_iff {M T : Word} (hM : M ≠ 0) :
    iterationsAfter T ≤ iterationsAfter M ↔ 1 ≤ T.toNat ∧ T.toNat ≤ M.toNat := by
  unfold iterationsAfter
  bv_omega

/-! ### What holds at each state of a period -/

namespace Block

/-- The instance stands in a period of length `M` with the threshold `T`, after its `FETCH`; `FETCH` itself is where the period has ended. The
countdown has not passed `M`, and the pin is HIGH from the match on. -/
def InPeriod (M T : Word) (u : Block) : Prop :=
  u.period = M ∧ u.scr = T ∧
    match SeqState.ofPc u.pc with
    | .FETCH => u.x = T ∧ u.y = 0 ∧ (u.pin = true ↔ iterationsAfter T ≤ iterationsAfter M)
    | .LATCH => u.pin = false
    | .RELOAD => u.x = T ∧ u.pin = false
    | .COMPARE => u.x = T ∧ iterationsAfter u.y ≤ iterationsAfter M ∧
        (u.pin = true ↔ iterationsAfter u.y < iterationsAfter T ∧ iterationsAfter T ≤ iterationsAfter M)
    | .SET_HIGH => u.x = T ∧ u.y = T ∧ iterationsAfter T ≤ iterationsAfter M ∧ u.pin = false
    | .DECREMENT => u.x = T ∧ iterationsAfter u.y ≤ iterationsAfter M ∧
        (u.pin = true ↔ iterationsAfter u.y ≤ iterationsAfter T ∧ iterationsAfter T ≤ iterationsAfter M)

/-- How many steps its sequencer makes until the period has ended. -/
def stepsLeft (u : Block) : Nat :=
  match SeqState.ofPc u.pc with
  | .FETCH => 0
  | .LATCH => 2 * iterationsAfter u.period + 4 + if iterationsAfter u.scr ≤ iterationsAfter u.period then 1 else 0
  | .RELOAD => 2 * iterationsAfter u.period + 3 + if iterationsAfter u.scr ≤ iterationsAfter u.period then 1 else 0
  | .COMPARE => 2 * iterationsAfter u.y + 2 + if iterationsAfter u.scr ≤ iterationsAfter u.y then 1 else 0
  | .SET_HIGH => 2 * iterationsAfter u.y + 2
  | .DECREMENT => 2 * iterationsAfter u.y + 1 + if iterationsAfter u.scr < iterationsAfter u.y then 1 else 0

section States

variable {M T : Word} {u : Block}

theorem inPeriod_iff_of_fetch (h : u.pc = 0) : u.InPeriod M T ↔ u.period = M ∧ u.scr = T ∧ u.x = T ∧ u.y = 0 ∧
    (u.pin = true ↔ iterationsAfter T ≤ iterationsAfter M) := by
  simp [InPeriod, SeqState.ofPc, h]

theorem inPeriod_iff_of_latch (h : u.pc = 1) : u.InPeriod M T ↔ u.period = M ∧ u.scr = T ∧ u.pin = false := by
  simp [InPeriod, SeqState.ofPc, h]

theorem inPeriod_iff_of_reload (h : u.pc = 2) : u.InPeriod M T ↔ u.period = M ∧ u.scr = T ∧ u.x = T ∧ u.pin = false := by
  simp [InPeriod, SeqState.ofPc, h]

theorem inPeriod_iff_of_compare (h : u.pc = 3) : u.InPeriod M T ↔ u.period = M ∧ u.scr = T ∧ u.x = T ∧
    iterationsAfter u.y ≤ iterationsAfter M ∧
    (u.pin = true ↔ iterationsAfter u.y < iterationsAfter T ∧ iterationsAfter T ≤ iterationsAfter M) := by
  simp [InPeriod, SeqState.ofPc, h]

theorem inPeriod_iff_of_setHigh (h : u.pc = 4) : u.InPeriod M T ↔ u.period = M ∧ u.scr = T ∧ u.x = T ∧ u.y = T ∧
    iterationsAfter T ≤ iterationsAfter M ∧ u.pin = false := by
  simp [InPeriod, SeqState.ofPc, h]

theorem inPeriod_iff_of_decrement (h : u.pc = 5) : u.InPeriod M T ↔ u.period = M ∧ u.scr = T ∧ u.x = T ∧
    iterationsAfter u.y ≤ iterationsAfter M ∧
    (u.pin = true ↔ iterationsAfter u.y ≤ iterationsAfter T ∧ iterationsAfter T ≤ iterationsAfter M) := by
  simp [InPeriod, SeqState.ofPc, h]

theorem stepsLeft_of_fetch (h : u.pc = 0) : u.stepsLeft = 0 := by
  simp [stepsLeft, SeqState.ofPc, h]

theorem stepsLeft_of_latch (h : u.pc = 1) : u.stepsLeft =
    2 * iterationsAfter u.period + 4 + if iterationsAfter u.scr ≤ iterationsAfter u.period then 1 else 0 := by
  simp [stepsLeft, SeqState.ofPc, h]

theorem stepsLeft_of_reload (h : u.pc = 2) : u.stepsLeft =
    2 * iterationsAfter u.period + 3 + if iterationsAfter u.scr ≤ iterationsAfter u.period then 1 else 0 := by
  simp [stepsLeft, SeqState.ofPc, h]

theorem stepsLeft_of_compare (h : u.pc = 3) : u.stepsLeft =
    2 * iterationsAfter u.y + 2 + if iterationsAfter u.scr ≤ iterationsAfter u.y then 1 else 0 := by
  simp [stepsLeft, SeqState.ofPc, h]

theorem stepsLeft_of_setHigh (h : u.pc = 4) : u.stepsLeft = 2 * iterationsAfter u.y + 2 := by
  simp [stepsLeft, SeqState.ofPc, h]

theorem stepsLeft_of_decrement (h : u.pc = 5) : u.stepsLeft =
    2 * iterationsAfter u.y + 1 + if iterationsAfter u.scr < iterationsAfter u.y then 1 else 0 := by
  simp [stepsLeft, SeqState.ofPc, h]

/-- `FETCH` begins a period with the threshold it takes (R112). -/
theorem inPeriod_machineStep_of_fetch (h : u.pc = 0) : u.machineStep.InPeriod u.period u.nextThreshold := by
  rw [u.machineStep_fetch h, inPeriod_iff_of_latch rfl]
  exact ⟨rfl, rfl, rfl⟩

theorem stepsLeft_machineStep_of_fetch (h : u.pc = 0) : u.machineStep.stepsLeft =
    2 * iterationsAfter u.period + 4 + if iterationsAfter u.nextThreshold ≤ iterationsAfter u.period then 1 else 0 := by
  rw [u.machineStep_fetch h, stepsLeft_of_latch rfl]

/-- With the `FETCH`, the period has the length that R180 says. -/
theorem stepsLeft_machineStep_eq_periodLength (h : u.pc = 0) (hperiod : u.period ≠ 0) :
    u.machineStep.stepsLeft + 1 = periodLength u.period.toNat u.nextThreshold.toNat := by
  have hlength : iterationsAfter u.period + 1 = u.period.toNat := iterationsAfter_of_ne_zero hperiod
  rw [stepsLeft_machineStep_of_fetch h, periodLength]
  simp only [iterationsAfter_le_iff hperiod]
  split <;> omega

/-- The countdown comes to `T` by `COMPARE` finding it, raises the pin there, and goes on to 0. -/
theorem InPeriod.machineStep (h : u.InPeriod M T) (hpc : u.pc ≠ 0) :
    u.machineStep.InPeriod M T ∧ u.machineStep.stepsLeft + 1 = u.stepsLeft := by
  obtain hpc' | hpc' | hpc' | hpc' | hpc' | hpc' := u.pc_cases
  · exact absurd hpc' hpc
  · obtain ⟨rfl, rfl, hpin⟩ := (inPeriod_iff_of_latch hpc').1 h
    rw [u.machineStep_latch hpc', inPeriod_iff_of_reload rfl, stepsLeft_of_reload rfl, stepsLeft_of_latch hpc']
    exact ⟨⟨rfl, rfl, rfl, hpin⟩, by dsimp only; omega⟩
  · obtain ⟨rfl, rfl, hx, hpin⟩ := (inPeriod_iff_of_reload hpc').1 h
    rw [u.machineStep_reload hpc', inPeriod_iff_of_compare rfl, stepsLeft_of_compare rfl, stepsLeft_of_reload hpc']
    refine ⟨⟨rfl, rfl, hx, le_rfl, ?_⟩, by dsimp only; omega⟩
    rw [hpin]
    exact iff_of_false Bool.false_ne_true fun hlt => absurd hlt.1 (not_lt.mpr hlt.2)
  · obtain ⟨rfl, rfl, hx, hy, hpin⟩ := (inPeriod_iff_of_compare hpc').1 h
    rw [u.machineStep_compare hpc', stepsLeft_of_compare hpc']
    by_cases hxy : u.x = u.y
    · have hmatch : u.y = u.scr := hxy.symm.trans hx
      rw [hmatch] at hy hpin
      rw [if_pos hxy, inPeriod_iff_of_setHigh rfl, stepsLeft_of_setHigh rfl, hmatch, if_pos le_rfl]
      exact ⟨⟨rfl, rfl, hx, rfl, hy, by simpa using hpin⟩, rfl⟩
    · have hne : iterationsAfter u.y ≠ iterationsAfter u.scr := fun heq => hxy (hx.trans (iterationsAfter_eq_iff.mp heq).symm)
      rw [if_neg hxy, inPeriod_iff_of_decrement rfl, stepsLeft_of_decrement rfl]
      dsimp only
      refine ⟨⟨rfl, rfl, hx, hy, ?_⟩, ?_⟩
      · rw [hpin]
        omega
      · split_ifs <;> omega
  · obtain ⟨rfl, rfl, hx, hy, hle, -⟩ := (inPeriod_iff_of_setHigh hpc').1 h
    rw [u.machineStep_setHigh hpc', inPeriod_iff_of_decrement rfl, stepsLeft_of_decrement rfl, stepsLeft_of_setHigh hpc', hy,
      if_neg (lt_irrefl _)]
    exact ⟨⟨rfl, rfl, hx, hle, iff_of_true rfl ⟨le_rfl, hle⟩⟩, rfl⟩
  · obtain ⟨rfl, rfl, hx, hy, hpin⟩ := (inPeriod_iff_of_decrement hpc').1 h
    rw [u.machineStep_decrement hpc', stepsLeft_of_decrement hpc']
    by_cases hlast : u.y - 1 = 0
    · have hzero : iterationsAfter u.y = 0 := iterationsAfter_of_last hlast
      rw [if_pos hlast, inPeriod_iff_of_fetch rfl, stepsLeft_of_fetch rfl, hzero]
      refine ⟨⟨rfl, rfl, hx, hlast, ?_⟩, by simp⟩
      rw [hpin]
      omega
    · have hsucc : iterationsAfter u.y = iterationsAfter (u.y - 1) + 1 := iterationsAfter_of_not_last hlast
      rw [if_neg hlast, inPeriod_iff_of_compare rfl, stepsLeft_of_compare rfl]
      dsimp only
      refine ⟨⟨rfl, rfl, hx, by omega, ?_⟩, ?_⟩
      · rw [hpin]
        omega
      · split_ifs <;> omega

theorem stepsLeft_eq_zero_iff : u.stepsLeft = 0 ↔ u.pc = 0 := by
  refine ⟨fun h => ?_, stepsLeft_of_fetch⟩
  obtain hpc | hpc | hpc | hpc | hpc | hpc := u.pc_cases
  · exact hpc
  · rw [stepsLeft_of_latch hpc] at h; omega
  · rw [stepsLeft_of_reload hpc] at h; omega
  · rw [stepsLeft_of_compare hpc] at h; omega
  · rw [stepsLeft_of_setHigh hpc] at h; omega
  · rw [stepsLeft_of_decrement hpc] at h; omega

end States

/-! The queue plays no part between one `FETCH` and the next. -/

theorem InPeriod.of_forgetQueue_eq {M T : Word} {u v : Block} (h : u.InPeriod M T) (hsame : v.forgetQueue = u.forgetQueue) :
    v.InPeriod M T := by
  have hforget (w : Block) : w.forgetQueue.InPeriod M T ↔ w.InPeriod M T := Iff.rfl
  rwa [← hforget v, hsame, hforget u]

theorem stepsLeft_of_forgetQueue_eq {u v : Block} (hsame : v.forgetQueue = u.forgetQueue) : v.stepsLeft = u.stepsLeft := by
  have hforget (w : Block) : w.forgetQueue.stepsLeft = w.stepsLeft := rfl
  rw [← hforget v, hsame, hforget u]

theorem pc_of_forgetQueue_eq {u v : Block} (hsame : v.forgetQueue = u.forgetQueue) : v.pc = u.pc := by
  have hforget (w : Block) : w.forgetQueue.pc = w.pc := rfl
  rw [← hforget v, hsame, hforget u]

/-! ### The steps of a period one after the other -/

theorem eq_of_registers {u : Block} {x y scr : Word} {pc : Fin 6} {pin : Bool} (hx : u.x = x) (hy : u.y = y) (hscr : u.scr = scr)
    (hpc : u.pc = pc) (hpin : u.pin = pin) : u = { u with x := x, y := y, scr := scr, pc := pc, pin := pin } := by
  subst hx hy hscr hpc hpin
  rfl

/-- After its `FETCH` a period writes `X`, `Y`, `SCR`, `pc` and `pin` alone. -/
theorem machineStep_frame {u : Block} (h : u.pc ≠ 0) (x y scr : Word) (pc : Fin 6) (pin : Bool) :
    { u.machineStep with x := x, y := y, scr := scr, pc := pc, pin := pin } =
      { u with x := x, y := y, scr := scr, pc := pc, pin := pin } := by
  obtain hpc | hpc | hpc | hpc | hpc | hpc := u.pc_cases
  · exact absurd hpc h
  · rw [u.machineStep_latch hpc]
  · rw [u.machineStep_reload hpc]
  · rw [u.machineStep_compare hpc]
  · rw [u.machineStep_setHigh hpc]
  · rw [u.machineStep_decrement hpc]

/-- The instance at the end of its period, when its sequencer alone moves. -/
theorem InPeriod.iterate_machineStep {M T : Word} {u : Block} (h : u.InPeriod M T) : Block.machineStep^[u.stepsLeft] u =
    { u with x := T, y := 0, scr := T, pc := 0, pin := decide (iterationsAfter T ≤ iterationsAfter M) } := by
  induction hn : u.stepsLeft generalizing u with
  | zero =>
    have hpc : u.pc = 0 := stepsLeft_eq_zero_iff.mp hn
    obtain ⟨-, hscr, hx, hy, hpin⟩ := (inPeriod_iff_of_fetch hpc).1 h
    have hpin' : u.pin = decide (iterationsAfter T ≤ iterationsAfter M) := by simp [← hpin]
    exact eq_of_registers hx hy hscr hpc hpin'
  | succ n ih =>
    have hpc : u.pc ≠ 0 := fun hpc => absurd (stepsLeft_of_fetch hpc) (by omega)
    obtain ⟨hnext, hleft⟩ := h.machineStep hpc
    rw [Function.iterate_succ_apply, ih hnext (by omega), machineStep_frame hpc]

/-- From `FETCH` to `FETCH`, when the sequencer alone moves: the threshold is latched, the queue empty and the counter at 0. -/
theorem iterate_machineStep_of_fetch {u : Block} (h : u.pc = 0) : Block.machineStep^[u.machineStep.stepsLeft + 1] u =
    { u with x := u.nextThreshold, y := 0, scr := u.nextThreshold, tqValid := false, pin :=
        decide (iterationsAfter u.nextThreshold ≤ iterationsAfter u.period) } := by
  rw [Function.iterate_succ_apply, (inPeriod_machineStep_of_fetch h).iterate_machineStep, u.machineStep_fetch h, ← h]

end Block

/-! ### What is observed of a period -/

theorem periodEnds_cons {o : OwnStep} {own : List OwnStep} : PeriodEnds (o :: own) ↔ o.after.pc = 0 ∨ PeriodEnds own :=
  List.exists_mem_cons_iff _ _ _

theorem not_periodEnds_nil : ¬PeriodEnds [] := by
  simp [PeriodEnds]

theorem firstPeriod_cons_of_end {o : OwnStep} (own : List OwnStep) (h : o.after.pc = 0) : firstPeriod (o :: own) = [o] := by
  rw [firstPeriod, if_pos h]

theorem firstPeriod_cons_of_not_end {o : OwnStep} (own : List OwnStep) (h : o.after.pc ≠ 0) :
    firstPeriod (o :: own) = o :: firstPeriod own := by
  rw [firstPeriod, if_neg h]

/-- A period that has ended did so with its last step (R176). -/
theorem firstPeriod_of_periodEnds {own : List OwnStep} (h : PeriodEnds own) :
    ∃ before last, firstPeriod own = before ++ [last] ∧ last.after.pc = 0 := by
  induction own with
  | nil => exact absurd h not_periodEnds_nil
  | cons o own ih =>
    by_cases ho : o.after.pc = 0
    · exact ⟨[], o, firstPeriod_cons_of_end own ho, ho⟩
    · obtain ⟨before, last, heq, hlast⟩ := ih ((periodEnds_cons.mp h).resolve_left ho)
      exact ⟨o :: before, last, by rw [firstPeriod_cons_of_not_end own ho, heq, List.cons_append], hlast⟩

/-- The period that `own` begins with has `L` steps, of which `own` may hold only the first, and goes on as `Block.InPeriod` says. -/
structure ObservedPeriod (M T : Word) (L : Nat) (own : List OwnStep) : Prop where
  firstPeriod_eq : firstPeriod own = own.take L
  periodEnds_iff : PeriodEnds own ↔ L ≤ own.length
  inPeriod : ∀ o ∈ firstPeriod own, o.after.InPeriod M T

namespace ObservedPeriod

variable {M T : Word} {L : Nat} {o : OwnStep} {own : List OwnStep}

theorem nil (hL : L ≠ 0) : ObservedPeriod M T L [] where
  firstPeriod_eq := List.take_nil.symm
  periodEnds_iff := iff_of_false not_periodEnds_nil (by simpa using hL)
  inPeriod _ ho := absurd ho List.not_mem_nil

theorem last (ho : o.after.InPeriod M T) (hpc : o.after.pc = 0) : ObservedPeriod M T 1 (o :: own) where
  firstPeriod_eq := firstPeriod_cons_of_end own hpc
  periodEnds_iff := iff_of_true (periodEnds_cons.mpr (.inl hpc)) (Nat.succ_le_succ (Nat.zero_le _))
  inPeriod p hp := by
    rw [firstPeriod_cons_of_end own hpc, List.mem_singleton] at hp
    rwa [hp]

theorem cons (ho : o.after.InPeriod M T) (hpc : o.after.pc ≠ 0) (h : ObservedPeriod M T L own) :
    ObservedPeriod M T (L + 1) (o :: own) where
  firstPeriod_eq := by rw [firstPeriod_cons_of_not_end own hpc, h.firstPeriod_eq, List.take_succ_cons]
  periodEnds_iff := by rw [periodEnds_cons, or_iff_right hpc, h.periodEnds_iff, List.length_cons, Nat.succ_le_succ_iff]
  inPeriod p hp := by
    rw [firstPeriod_cons_of_not_end own hpc, List.mem_cons] at hp
    obtain rfl | hp := hp
    · exact ho
    · exact h.inPeriod p hp

end ObservedPeriod

/-- `own` are steps of one running instance from `u` on: each is one of the state machine of R124, and before each no more than the queue has
been written. -/
inductive OwnRun : Block → List OwnStep → Prop
  | nil (u : Block) : OwnRun u []
  | cons {u v : Block} {own : List OwnStep} (hqueue : v.forgetQueue = u.forgetQueue) (hown : OwnRun v.machineStep own) :
      OwnRun u (⟨v, v.machineStep⟩ :: own)

theorem OwnRun.of_forgetQueue_eq {u v : Block} {own : List OwnStep} (h : OwnRun v own) (hsame : v.forgetQueue = u.forgetQueue) :
    OwnRun u own := by
  cases h with
  | nil => exact .nil u
  | cons hqueue hown => exact .cons (hqueue.trans hsame) hown

/-- The steps that are left of a period are those that `stepsLeft` counts. -/
theorem OwnRun.observedPeriod {M T : Word} {u : Block} {own : List OwnStep} (h : OwnRun u own) (hu : u.InPeriod M T) (hpc : u.pc ≠ 0) :
    ObservedPeriod M T u.stepsLeft own := by
  induction h with
  | nil u => exact .nil fun hleft => hpc (Block.stepsLeft_eq_zero_iff.mp hleft)
  | @cons u v own hqueue _ ih =>
    have hpc' : v.pc ≠ 0 := by rwa [Block.pc_of_forgetQueue_eq hqueue]
    obtain ⟨hnext, hleft⟩ := (hu.of_forgetQueue_eq hqueue).machineStep hpc'
    rw [← Block.stepsLeft_of_forgetQueue_eq hqueue, ← hleft]
    by_cases hend : v.machineStep.pc = 0
    · rw [Block.stepsLeft_of_fetch hend]
      exact .last hnext hend
    · exact .cons hnext hend (ih hnext hend)

/-! ### The steps of one instance among those of the system -/

section OwnSteps

variable {k n : Nat} {s t : State}

theorem ownSteps_of_own (h : step s = .next t) (hturn : s.turnOf = .seq k) (hrun : (s.blockAt k).run = true) :
    ownSteps k (n + 1) s = ⟨s.blockAt k, t.blockAt k⟩ :: ownSteps k n t := by
  simp [ownSteps, h, hturn, hrun]

theorem ownSteps_of_other (h : step s = .next t) (hturn : s.turnOf ≠ .seq k) : ownSteps k (n + 1) s = ownSteps k n t := by
  simp [ownSteps, h, hturn]

theorem ownSteps_of_refused {r : Refusal} (h : step s = .refused r) : ownSteps k (n + 1) s = [] := by
  simp [ownSteps, h]

/-- With the fixed program the observed steps of a running instance are an `OwnRun`, whatever the other agents do. -/
theorem ownRun_ownSteps (hk : k < Config.nSeq) (hprog : s.prog = []) (hrun : (s.blockAt k).run = true) :
    OwnRun (s.blockAt k) (ownSteps k n s) := by
  induction n generalizing s with
  | zero => exact .nil _
  | succ n ih =>
    cases hstep : step s with
    | fault f => exact absurd hstep (noStepFaults s f)
    | refused r => rw [ownSteps_of_refused hstep]; exact .nil _
    | next t =>
      have hown : OwnRun (t.blockAt k) (ownSteps k n t) := ih ((step_prog hstep).trans hprog) (step_run hstep hrun)
      by_cases hturn : s.turnOf = .seq k
      · have hblock : t.blockAt k = (s.blockAt k).machineStep :=
          turn_blockAt_own (s := s.turnUsed) hprog hk hrun ((step_of_turnOf hturn).symm.trans hstep)
        rw [ownSteps_of_own hstep hturn hrun, hblock]
        exact .cons rfl (hblock ▸ hown)
      · rw [ownSteps_of_other hstep hturn]
        refine hown.of_forgetQueue_eq ?_
        obtain heq | hw := turn_blockAt_of_ne (s := s.turnUsed) hprog hstep hturn
        · exact congrArg Block.forgetQueue heq
        · obtain ⟨hqueue, -⟩ := hw.queue_only hrun
          exact hqueue

/-- What is observed of a period from where it begins: its `FETCH`, and the steps that are then left of it. -/
theorem PeriodBegins.observedPeriod (h : PeriodBegins k s) (n : Nat) : ObservedPeriod (s.blockAt k).period (s.blockAt k).nextThreshold
    ((s.blockAt k).machineStep.stepsLeft + 1) (ownSteps k n s) := by
  obtain ⟨hk, hprog, hrun, hpc, hturn⟩ := h
  cases n with
  | zero => exact .nil (Nat.succ_ne_zero _)
  | succ n =>
    obtain ⟨t, hstep, hblock, -⟩ := sequencerIsTheStateMachine s k hturn hk hprog hrun
    have hown : OwnRun (t.blockAt k) (ownSteps k n t) := ownRun_ownSteps hk ((step_prog hstep).trans hprog) (step_run hstep hrun)
    have hfetched : (s.blockAt k).machineStep.InPeriod _ _ := Block.inPeriod_machineStep_of_fetch hpc
    have hlatch : (s.blockAt k).machineStep.pc ≠ 0 := by rw [Block.machineStep_fetch _ hpc]; exact one_ne_zero
    rw [hblock] at hown
    rw [ownSteps_of_own hstep hturn hrun, hblock]
    exact .cons hfetched hlatch (hown.observedPeriod hfetched hlatch)

/-! ### The sequencer alone -/

theorem step_alone {rest : List Agent} (hk : k < Config.nSeq) (hprog : s.prog = []) (hrun : (s.blockAt k).run = true)
    (hschedule : s.schedule = .seq k :: rest) : ∃ t, step s = .next t ∧ t.blockAt k = (s.blockAt k).machineStep ∧
      SameButBlock { s with schedule := rest, sel := k } t := by
  have h := sequencerIsTheStateMachine s k (turnOf_cons s _ rest hschedule) hk hprog hrun
  rwa [turnUsed_of_schedule hschedule] at h

/-- One step more to the run, from the frame of the first step and of the others. -/
theorem SameButBlock.trans_alone {k : Nat} {s t r : State} {mid rest : List Agent}
    (h : SameButBlock { s with schedule := mid, sel := k } t) (h' : SameButBlock { t with schedule := rest, sel := k } r) :
    SameButBlock { s with schedule := rest, sel := k } r := by
  obtain ⟨-, hblocks, hprog, hpinBound, hcontrollers, hcontexts, -⟩ := h
  obtain ⟨hsel, hblocks', hprog', hpinBound', hcontrollers', hcontexts', hschedule⟩ := h'
  exact ⟨hsel, fun m hm => (hblocks' m hm).trans (hblocks m hm), hprog'.trans hprog, hpinBound'.trans hpinBound,
    hcontrollers'.trans hcontrollers, hcontexts'.trans hcontexts, hschedule⟩

/-- When the sequencer alone moves, each step is its own, and nothing but its instance changes. -/
theorem run_alone {rest : List Agent} (n : Nat) (hk : k < Config.nSeq) (hprog : s.prog = []) (hrun : (s.blockAt k).run = true)
    (hschedule : s.schedule = List.replicate (n + 1) (.seq k) ++ rest) : ∃ t, core.run (n + 1) s = .next t ∧
      t.blockAt k = Block.machineStep^[n + 1] (s.blockAt k) ∧ (ownSteps k (n + 1) s).length = n + 1 ∧
      SameButBlock { s with schedule := rest, sel := k } t := by
  induction n generalizing s with
  | zero =>
    obtain ⟨t, hstep, hblock, hframe⟩ := step_alone hk hprog hrun hschedule
    refine ⟨t, core_run_next 0 s t hstep, hblock, ?_, hframe⟩
    rw [ownSteps_of_own hstep (turnOf_cons s _ _ hschedule) hrun]
    rfl
  | succ n ih =>
    obtain ⟨t, hstep, hblock, hframe⟩ := step_alone hk hprog hrun hschedule
    obtain ⟨r, hrest, hblock', hlength, hframe'⟩ :=
      ih ((step_prog hstep).trans hprog) (step_run hstep hrun) (by rw [step_schedule hstep, hschedule]; rfl)
    refine ⟨r, (core_run_next (n + 1) s t hstep).trans hrest, ?_, ?_, hframe.trans_alone hframe'⟩
    · rw [hblock', hblock, ← Function.iterate_succ_apply]
    · rw [ownSteps_of_own hstep (turnOf_cons s _ _ hschedule) hrun, List.length_cons, hlength]

end OwnSteps

/-- Settles O35: the second of two steps of its own latches what the first put in `SCR`, and that is `X`. -/
theorem emptyFetchKeepsThreshold : Obligations.EmptyFetchKeepsThreshold := by
  rintro s k rest ⟨hk, hprog, hrun, hpc, -⟩ hempty hschedule
  obtain ⟨t, ht, hblock, -⟩ := run_alone (rest := rest) 1 hk hprog hrun hschedule
  have hthreshold : (s.blockAt k).nextThreshold = (s.blockAt k).x := by rw [Block.nextThreshold, hempty, if_neg Bool.false_ne_true]
  refine ⟨t, ht, ?_⟩
  rw [hblock, Function.iterate_succ_apply, Function.iterate_one, Block.machineStep_fetch _ hpc, Block.machineStep_latch _ rfl]
  exact ⟨hthreshold, rfl⟩

/-- The pin at the end of a period, for lengths that are not 0 (R179). -/
theorem decide_iterationsAfter_le {M T : Word} (hM : M ≠ 0) :
    decide (iterationsAfter T ≤ iterationsAfter M) = decide (1 ≤ T.toNat ∧ T.toNat ≤ M.toNat) :=
  decide_eq_decide.mpr (iterationsAfter_le_iff hM)

/-- Settles O39: `PeriodBegins.observedPeriod` for every interleaving, and `run_alone` with the block that `iterate_machineStep_of_fetch` gives when
the sequencer alone moves. -/
theorem periodReturnsToStart : Obligations.PeriodReturnsToStart := by
  intro k s hbegins hperiod M T L
  have hobserved (n : Nat) := hbegins.observedPeriod n
  obtain ⟨hk, hprog, hrun, hpc, -⟩ := hbegins
  have hlength : (s.blockAt k).machineStep.stepsLeft + 1 = L := Block.stepsLeft_machineStep_eq_periodLength hpc hperiod
  refine ⟨fun n o hends hlast => ?_, fun rest hschedule => ?_⟩
  · obtain ⟨before, last, heq, hpc'⟩ := firstPeriod_of_periodEnds hends
    obtain rfl : last = o := by rwa [heq, List.getLast?_concat, Option.some.injEq] at hlast
    have hdone : last.after.InPeriod _ _ := (hobserved n).inPeriod last (by rw [heq]; exact List.mem_concat_self)
    obtain ⟨hM, hscr, hx, hy, hpin⟩ := (Block.inPeriod_iff_of_fetch hpc').1 hdone
    refine ⟨hpc', hx, hscr, hy, hM, ?_⟩
    rw [← decide_iterationsAfter_le hperiod, Bool.eq_iff_iff, decide_eq_true_eq]
    exact hpin
  · rw [← hlength] at hschedule ⊢
    obtain ⟨t, ht, hblock, hown, hframe⟩ := run_alone _ hk hprog hrun hschedule
    refine ⟨t, ht, (hobserved _).periodEnds_iff.mpr hown.ge, ?_, ?_, hframe⟩
    · rw [(hobserved _).firstPeriod_eq]
      exact List.take_of_length_le hown.le
    · rw [hblock, Block.iterate_machineStep_of_fetch hpc, decide_iterationsAfter_le hperiod]

end Sys2Proof.Machine
end

section
/-! PROOFS. The host commands (spec/41_host_commands.md R140 to R146): which `EXEC` is admitted, what each of the three commands does to the instance
it reaches, and the three that prime `PERIOD` one after the other. -/

namespace Sys2Proof.Machine

/-! ### Which `EXEC` is admitted -/

theorem exists_exec_next_iff {i : Instr} {s : State} : (∃ t, exec i s = .next t) ↔ ∃ v, effect i s.block = .ok v := by
  constructor
  · rintro ⟨t, h⟩
    obtain ⟨v, hv, -⟩ := exec_next i s t h
    exact ⟨v, hv⟩
  · rintro ⟨v, hv⟩
    exact ⟨s.setBlock s.sel v, by rw [exec_eq_effect, hv]⟩

theorem exec_next_or_refused (i : Instr) (s : State) : (∃ t, exec i s = .next t) ∨ ∃ r, exec i s = .refused r := by
  cases h : exec i s with
  | next t => exact .inl ⟨t, rfl⟩
  | fault f => exact absurd h (exec_ne_fault i s f)
  | refused r => exact .inr ⟨r, rfl⟩

/-- The operations that have a one-shot form (R111, R144). -/
theorem exists_oneShot_iff {op : Instr} : (∃ act, oneShot op = some act) ↔ ∃ ss, op = .fetch ss ∨ op = .ldper ss := by
  constructor
  · rintro ⟨act, h⟩
    obtain ⟨ss, hop, -⟩ | ⟨ss, hop, -⟩ := oneShot_cases op act h
    · exact ⟨ss, .inl hop⟩
    · exact ⟨ss, .inr hop⟩
  · rintro ⟨ss, rfl | rfl⟩
    all_goals exact ⟨_, rfl⟩

/-- `EXEC` does to an instance what the one-shot form of the word's operation does, and that on an idle instance only (R142, R144). -/
theorem effect_exec_eq_ok_iff {i : Byte} {u v : Block} : effect (.exec i) u = .ok v ↔
    u.run = false ∧ ∃ op, decodeMicro i = .ok op ∧ ∃ act, oneShot op = some act ∧ act u = v := by
  simp only [effect]
  cases decodeMicro i with
  | error e => simp
  | ok op =>
    cases hact : oneShot op with
    | none => simp [hact]
    | some act => cases u.run <;> simp [hact]

/-- Settles O19: by `effect_exec_eq_ok_iff`, with the one-shot forms named by `exists_oneShot_iff`; and no instruction faults. -/
theorem execAdmittedIff : Obligations.ExecAdmittedIff := by
  refine fun i s => ⟨?_, exec_next_or_refused _ s⟩
  rw [exists_exec_next_iff]
  constructor
  · rintro ⟨v, hv⟩
    obtain ⟨hidle, op, hdecode, act, hact, -⟩ := effect_exec_eq_ok_iff.mp hv
    obtain ⟨ss, rfl | rfl⟩ := exists_oneShot_iff.mp ⟨act, hact⟩
    · exact ⟨hidle, ss, .inl hdecode⟩
    · exact ⟨hidle, ss, .inr hdecode⟩
  · rintro ⟨hidle, ss, hdecode | hdecode⟩
    all_goals exact ⟨_, effect_exec_eq_ok_iff.mpr ⟨hidle, _, hdecode, _, rfl, rfl⟩⟩

/-! ### `ENQUEUE` -/

/-- Settles O16: `effect` of an `ENQUEUE`; its command code is 0, so its word is its data. -/
theorem enqueueReplacesPending : Obligations.EnqueueReplacesPending := by
  refine ⟨fun v s => completesWith_of_effect rfl, fun v => ?_⟩
  calc (encode (.enqueue v)).toNat
    _ = (packCommand 0 v).toNat := rfl
    _ = (v.setWidth 34).toNat := by rw [packCommand_zero]
    _ = v.toNat := BitVec.toNat_setWidth_of_le (by decide)

/-! ### `EXEC` -/

/-- An `EXEC` that is admitted completes with the one-shot form of its word's operation. -/
theorem completesWith_exec {i : Byte} {op : Instr} {act : Block → Block} {s : State} (hdecode : decodeMicro i = .ok op)
    (hact : oneShot op = some act) (hidle : s.block.run = false) : CompletesWith (.exec i) s act :=
  completesWith_of_effect (effect_exec_eq_ok_iff.mpr ⟨hidle, op, hdecode, act, hact, rfl⟩)

/-- Settles O17: the one-shot form of `FETCH`. -/
theorem execFetchOnce : Obligations.ExecFetchOnce := by
  intro i ss s hdecode hidle
  have h := completesWith_exec hdecode rfl hidle
  simpa only [Block.sideSet_eq, Block.fetchQueue_eq] using h

/-- `EXEC LDPER` while idle (R145). -/
theorem completesWith_exec_ldper {i : Byte} {ss : SideSet} {s : State} (hdecode : decodeMicro i = .ok (.ldper ss))
    (hidle : s.block.run = false) : CompletesWith (.exec i) s fun u => { u with period := u.scr, pin := ss.getD u.pin } := by
  have h := completesWith_exec hdecode rfl hidle
  simpa only [Block.sideSet_eq, Block.loadPeriod_eq] using h

/-- The frame of two instructions one after the other, on the same instance. -/
theorem SameButBlock.trans {s t r : State} (h : SameButBlock s t) (h' : SameButBlock t r) : SameButBlock s r := by
  have hnext : SameButBlock { t with schedule := s.schedule, sel := s.sel } r := by
    obtain ⟨hsel, -, -, -, -, -, hschedule⟩ := h
    rwa [← hsel, ← hschedule]
  exact SameButBlock.trans_alone (k := s.sel) (mid := s.schedule) h hnext

/-- Settles O18: the one-shot form of `LDPER`; and the three commands in turn, each on the instance the one before it left. -/
theorem execLdperOnce : Obligations.ExecLdperOnce := by
  obtain ⟨-, -, -, -, -, -, hfetch, hldper, -, -, -, hcommand, -⟩ := specWordsDecode
  refine ⟨⟨hcommand, hldper⟩, fun i ss s => completesWith_exec_ldper, fun m s hidle => ?_⟩
  obtain ⟨t1, hexec1, hblock1, hframe1⟩ := enqueueReplacesPending.1 m s
  have hidle1 : t1.block.run = false := by rw [hblock1]; exact hidle
  obtain ⟨t2, hexec2, hblock2, hframe2⟩ := execFetchOnce _ _ t1 hfetch hidle1
  have hidle2 : t2.block.run = false := by rw [hblock2]; exact hidle1
  obtain ⟨t3, hexec3, hblock3, hframe3⟩ := completesWith_exec_ldper hldper hidle2
  refine ⟨t1, t2, t3, hexec1, hexec2, hexec3, ?_, (hframe1.trans hframe2).trans hframe3⟩
  rw [hblock3, hblock2, hblock1]
  rfl

/-! ### `ACTIVATE` -/

theorem Block.activated_of_run {u : Block} (h : u.run = true) : { u with run := true } = u := by
  rw [← h]

/-- Settles O20: `effect` of an `ACTIVATE`, which on a running instance is the instance itself. -/
theorem activateSetsRun : Obligations.ActivateSetsRun :=
  fun _ => ⟨completesWith_of_effect rfl, fun hrun => completesWith_of_effect (congrArg Except.ok (Block.activated_of_run hrun))⟩

end Sys2Proof.Machine
end

section
/-! PROOFS. What is observed of a period, step by step: its pin trace, its compares and its matches, each as a list that the instance foretells
from where it stands (`Block.Foretells`). The length of the period may be 0, and that case ends the section (R162, R117 (iii)). -/

namespace Sys2Proof.Machine

/-! ### The levels and the counter values that are left -/

/-- The levels after the last `n` steps of a period whose last `high` steps leave the pin HIGH (R180). -/
def lowThenHigh (high n : Nat) : List Bool := List.replicate (n - high) false ++ List.replicate (min n high) true

theorem lowThenHigh_zero (high : Nat) : lowThenHigh high 0 = [] := by
  simp [lowThenHigh]

theorem lowThenHigh_succ (high n : Nat) : lowThenHigh high (n + 1) = decide (n < high) :: lowThenHigh high n := by
  unfold lowThenHigh
  by_cases h : n < high
  · rw [Nat.sub_eq_zero_of_le h, Nat.sub_eq_zero_of_le h.le, Nat.min_eq_left h, Nat.min_eq_left h.le, decide_eq_true h]
    rfl
  · have hle : high ≤ n := not_lt.mp h
    rw [Nat.min_eq_right hle, Nat.min_eq_right (Nat.le_succ_of_le hle), Nat.succ_sub hle, List.replicate_succ, decide_eq_false h]
    rfl

theorem lowThenHigh_of_le {high n : Nat} (h : high ≤ n) :
    lowThenHigh high n = List.replicate (n - high) false ++ List.replicate high true := by
  rw [lowThenHigh, Nat.min_eq_right h]

/-- The values of the counter in its last `n` inner iterations (R177); a counter of 0 stands for `2^W` (R117 (iii)). -/
def counterValues (n : Nat) : List Nat := (countdown n).map (· % 2 ^ 32)

theorem counterValues_succ_iterationsAfter (y : Word) :
    counterValues (iterationsAfter y + 1) = y.toNat :: counterValues (iterationsAfter y) := by
  have hy : (iterationsAfter y + 1) % 2 ^ 32 = y.toNat := by
    unfold iterationsAfter
    bv_omega
  rw [counterValues, countdown, List.map_cons, hy, counterValues]

theorem le_of_mem_countdown {n a : Nat} (h : a ∈ countdown n) : a ≤ n := by
  induction n with
  | zero => cases h
  | succ n ih =>
    obtain rfl | h := List.mem_cons.mp h
    · exact le_rfl
    · exact Nat.le_succ_of_le (ih h)

theorem counterValues_of_lt {n : Nat} (h : n < 2 ^ 32) : counterValues n = countdown n := by
  have hmod (a : Nat) (ha : a ∈ countdown n) : a % 2 ^ 32 = a := Nat.mod_eq_of_lt ((le_of_mem_countdown ha).trans_lt h)
  rw [counterValues, List.map_congr_left hmod, List.map_id']

/-! ### What an instance foretells of its period -/

/-- With how few steps left of its period the pin is HIGH (R179). -/
def highLeft (M T : Word) : Nat := if iterationsAfter T ≤ iterationsAfter M then 2 * (iterationsAfter T + 1) else 0

namespace Block

/-- How many compares are left of the period. -/
def comparesLeft (u : Block) : Nat :=
  match SeqState.ofPc u.pc with
  | .FETCH => 0
  | .LATCH => iterationsAfter u.period + 1
  | .RELOAD => iterationsAfter u.period + 1
  | .COMPARE => iterationsAfter u.y + 1
  | .SET_HIGH => iterationsAfter u.y
  | .DECREMENT => iterationsAfter u.y

/-- How many matches are left of the period. -/
def matchesLeft (u : Block) : Nat :=
  match SeqState.ofPc u.pc with
  | .FETCH => 0
  | .LATCH => if iterationsAfter u.scr ≤ iterationsAfter u.period then 1 else 0
  | .RELOAD => if iterationsAfter u.scr ≤ iterationsAfter u.period then 1 else 0
  | .COMPARE => if iterationsAfter u.scr ≤ iterationsAfter u.y then 1 else 0
  | .SET_HIGH => 1
  | .DECREMENT => if iterationsAfter u.scr < iterationsAfter u.y then 1 else 0

/-- A view of the observed steps, taken step by step, that an instance in a period of length `M` with the threshold `T` foretells: `left` is what
the view will yet show of that period. -/
structure Foretells {α : Type} (M T : Word) (view : List OwnStep → List α) (left : Block → List α) : Prop where
  view_nil : view [] = []
  view_cons : ∀ o own, view (o :: own) = view [o] ++ view own
  left_forgetQueue : ∀ u : Block, left u.forgetQueue = left u
  left_of_fetch : ∀ u : Block, u.pc = 0 → left u = []
  left_machineStep : ∀ u : Block, u.InPeriod M T → u.pc ≠ 0 → left u = view [⟨u, u.machineStep⟩] ++ left u.machineStep

theorem Foretells.left_of_forgetQueue_eq {α : Type} {M T : Word} {view : List OwnStep → List α} {left : Block → List α}
    (h : Foretells M T view left) {u v : Block} (hsame : v.forgetQueue = u.forgetQueue) : left v = left u := by
  rw [← h.left_forgetQueue v, hsame, h.left_forgetQueue]

/-! ### The pin -/

/-- The match comes with `2 T` steps of the period left after it, and nothing lowers the pin after that (R179, R180). -/
theorem InPeriod.pin_eq_decide {M T : Word} {u : Block} (h : u.InPeriod M T) : u.pin = decide (u.stepsLeft < highLeft M T) := by
  rw [Bool.eq_iff_iff, decide_eq_true_eq, highLeft]
  obtain hpc | hpc | hpc | hpc | hpc | hpc := u.pc_cases
  · obtain ⟨-, -, -, -, hpin⟩ := (inPeriod_iff_of_fetch hpc).1 h
    rw [hpin, stepsLeft_of_fetch hpc]
    split_ifs <;> omega
  · obtain ⟨rfl, rfl, hpin⟩ := (inPeriod_iff_of_latch hpc).1 h
    rw [hpin, stepsLeft_of_latch hpc]
    simp only [Bool.false_eq_true, false_iff]
    split_ifs <;> omega
  · obtain ⟨rfl, rfl, -, hpin⟩ := (inPeriod_iff_of_reload hpc).1 h
    rw [hpin, stepsLeft_of_reload hpc]
    simp only [Bool.false_eq_true, false_iff]
    split_ifs <;> omega
  · obtain ⟨rfl, rfl, -, hy, hpin⟩ := (inPeriod_iff_of_compare hpc).1 h
    rw [hpin, stepsLeft_of_compare hpc]
    split_ifs <;> omega
  · obtain ⟨rfl, rfl, -, hy, hle, hpin⟩ := (inPeriod_iff_of_setHigh hpc).1 h
    rw [hpin, stepsLeft_of_setHigh hpc, hy, if_pos hle]
    simp only [Bool.false_eq_true, false_iff]
    omega
  · obtain ⟨rfl, rfl, -, hy, hpin⟩ := (inPeriod_iff_of_decrement hpc).1 h
    rw [hpin, stepsLeft_of_decrement hpc]
    split_ifs <;> omega

theorem foretells_pinTrace (M T : Word) : Foretells M T pinTrace fun u => lowThenHigh (highLeft M T) u.stepsLeft where
  view_nil := rfl
  view_cons _ _ := rfl
  left_forgetQueue _ := rfl
  left_of_fetch u hpc := by rw [stepsLeft_of_fetch hpc, lowThenHigh_zero]
  left_machineStep u hu hpc := by
    obtain ⟨hnext, hleft⟩ := hu.machineStep hpc
    rw [← hleft, lowThenHigh_succ, ← hnext.pin_eq_decide]
    rfl

/-! ### The compares and the matches -/

theorem comparesLeft_machineStep {u : Block} (h : u.pc ≠ 0) :
    u.comparesLeft = u.machineStep.comparesLeft + if u.pc = 3 then 1 else 0 := by
  obtain hpc | hpc | hpc | hpc | hpc | hpc := u.pc_cases
  · exact absurd hpc h
  · simp [u.machineStep_latch hpc, comparesLeft, SeqState.ofPc, hpc]
  · simp [u.machineStep_reload hpc, comparesLeft, SeqState.ofPc, hpc]
  · by_cases hxy : u.x = u.y <;> simp [u.machineStep_compare hpc, comparesLeft, SeqState.ofPc, hpc, hxy]
  · simp [u.machineStep_setHigh hpc, comparesLeft, SeqState.ofPc, hpc]
  · rw [u.machineStep_decrement hpc]
    by_cases hlast : u.y - 1 = 0
    · rw [if_pos hlast]
      simp [comparesLeft, SeqState.ofPc, hpc, iterationsAfter_of_last hlast]
    · rw [if_neg hlast]
      simp [comparesLeft, SeqState.ofPc, hpc, iterationsAfter_of_not_last hlast]

theorem InPeriod.matchesLeft_machineStep {M T : Word} {u : Block} (h : u.InPeriod M T) (h0 : u.pc ≠ 0) :
    u.matchesLeft = u.machineStep.matchesLeft + if u.pc = 4 then 1 else 0 := by
  obtain hpc | hpc | hpc | hpc | hpc | hpc := u.pc_cases
  · exact absurd hpc h0
  · simp [u.machineStep_latch hpc, matchesLeft, SeqState.ofPc, hpc]
  · simp [u.machineStep_reload hpc, matchesLeft, SeqState.ofPc, hpc]
  · obtain ⟨rfl, rfl, hx, -⟩ := (inPeriod_iff_of_compare hpc).1 h
    rw [u.machineStep_compare hpc, hx]
    by_cases hxy : u.scr = u.y
    · rw [if_pos hxy]
      simp [matchesLeft, SeqState.ofPc, hpc, hxy]
    · have hne : iterationsAfter u.scr ≠ iterationsAfter u.y := fun heq => hxy (iterationsAfter_eq_iff.mp heq)
      rw [if_neg hxy]
      simp [matchesLeft, SeqState.ofPc, hpc, hne.le_iff_lt]
  · obtain ⟨rfl, rfl, -, hy, -⟩ := (inPeriod_iff_of_setHigh hpc).1 h
    simp [u.machineStep_setHigh hpc, matchesLeft, SeqState.ofPc, hpc, hy]
  · rw [u.machineStep_decrement hpc]
    by_cases hlast : u.y - 1 = 0
    · rw [if_pos hlast]
      simp [matchesLeft, SeqState.ofPc, hpc, iterationsAfter_of_last hlast]
    · rw [if_neg hlast]
      simp [matchesLeft, SeqState.ofPc, hpc, iterationsAfter_of_not_last hlast]

theorem comparedAt_cons (o : OwnStep) (own : List OwnStep) :
    comparedAt (o :: own) = (if o.before.pc = 3 then [o.before.y.toNat] else []) ++ comparedAt own := by
  by_cases h : o.before.pc = 3 <;> simp [comparedAt, h]

theorem matchCount_cons (o : OwnStep) (own : List OwnStep) :
    matchCount (o :: own) = (if o.before.pc = 4 then 1 else 0) + matchCount own := by
  by_cases h : o.before.pc = 4 <;> simp [matchCount, h, Nat.add_comm]

theorem foretells_comparedAt (M T : Word) : Foretells M T comparedAt fun u => counterValues u.comparesLeft where
  view_nil := rfl
  view_cons o own := by rw [comparedAt_cons, comparedAt_cons o []]; simp [comparedAt]
  left_forgetQueue _ := rfl
  left_of_fetch u hpc := by simp [comparesLeft, SeqState.ofPc, hpc, counterValues, countdown]
  left_machineStep u _ hpc := by
    rw [comparesLeft_machineStep hpc, comparedAt_cons]
    by_cases h3 : u.pc = 3
    · have hleft : u.machineStep.comparesLeft = iterationsAfter u.y := by
        have hnow : u.comparesLeft = iterationsAfter u.y + 1 := by simp [comparesLeft, SeqState.ofPc, h3]
        rw [comparesLeft_machineStep hpc, if_pos h3] at hnow
        exact Nat.succ_injective hnow
      rw [if_pos h3, if_pos h3, hleft, counterValues_succ_iterationsAfter]
      rfl
    · rw [if_neg h3, if_neg h3]
      rfl

/-- The number of matches, as a view. -/
theorem foretells_matchCount (M T : Word) :
    Foretells M T (fun own => List.replicate (matchCount own) ()) fun u => List.replicate u.matchesLeft () where
  view_nil := rfl
  view_cons o own := by rw [matchCount_cons, matchCount_cons o []]; simp [matchCount]
  left_forgetQueue _ := rfl
  left_of_fetch u hpc := by simp [matchesLeft, SeqState.ofPc, hpc]
  left_machineStep u hu hpc := by
    rw [hu.matchesLeft_machineStep hpc, matchCount_cons]
    simp [matchCount, Nat.add_comm]
end Block

/-! ### What is foretold is observed -/

/-- What has been seen is the beginning of the whole, and all of it at the end. -/
def Unfolds {α : Type} (ended : Prop) (seen whole : List α) : Prop := seen <+: whole ∧ (ended → seen = whole)

theorem Unfolds.of_not_ended {α : Type} {ended : Prop} (h : ¬ended) (whole : List α) : Unfolds ended [] whole :=
  ⟨List.nil_prefix, fun hended => absurd hended h⟩

theorem Unfolds.append_left {α : Type} {ended ended' : Prop} {seen whole : List α} (h : Unfolds ended seen whole)
    (hended : ended' → ended) (first : List α) : Unfolds ended' (first ++ seen) (first ++ whole) :=
  ⟨(List.prefix_append_right_inj first).mpr h.1, fun h' => congrArg (first ++ ·) (h.2 (hended h'))⟩

/-- The steps observed after the `FETCH` show what the instance foretells, all of it when the period has ended. -/
theorem OwnRun.foretold {α : Type} {M T : Word} {view : List OwnStep → List α} {left : Block → List α}
    (hview : Block.Foretells M T view left) {u : Block} {own : List OwnStep} (h : OwnRun u own) (hu : u.InPeriod M T) (hpc : u.pc ≠ 0) :
    Unfolds (PeriodEnds own) (view (firstPeriod own)) (left u) := by
  induction h with
  | nil u =>
    rw [firstPeriod, hview.view_nil]
    exact .of_not_ended not_periodEnds_nil _
  | @cons u v own hqueue _ ih =>
    have hpc' : v.pc ≠ 0 := by rwa [Block.pc_of_forgetQueue_eq hqueue]
    have hv : v.InPeriod M T := hu.of_forgetQueue_eq hqueue
    obtain ⟨hnext, -⟩ := hv.machineStep hpc'
    rw [← hview.left_of_forgetQueue_eq hqueue, hview.left_machineStep v hv hpc']
    by_cases hend : v.machineStep.pc = 0
    · rw [firstPeriod_cons_of_end own hend, hview.left_of_fetch _ hend, List.append_nil]
      exact ⟨List.prefix_rfl, fun _ => rfl⟩
    · rw [firstPeriod_cons_of_not_end own hend, hview.view_cons]
      exact (ih hnext hend).append_left (fun h => (periodEnds_cons.mp h).resolve_left hend) _

section Period

variable {k n : Nat} {s : State}

/-- From where a period begins, the observed steps are its `FETCH` and then those of the running instance. -/
theorem PeriodBegins.ownSteps_cases (h : PeriodBegins k s) (n : Nat) : ownSteps k n s = [] ∨
    ∃ own, ownSteps k n s = ⟨s.blockAt k, (s.blockAt k).machineStep⟩ :: own ∧ OwnRun (s.blockAt k).machineStep own := by
  obtain ⟨hk, hprog, hrun, hpc, hturn⟩ := h
  cases n with
  | zero => exact .inl rfl
  | succ n =>
    obtain ⟨t, hstep, hblock, -⟩ := sequencerIsTheStateMachine s k hturn hk hprog hrun
    refine .inr ⟨ownSteps k n t, by rw [ownSteps_of_own hstep hturn hrun, hblock], ?_⟩
    rw [← hblock]
    exact ownRun_ownSteps hk ((step_prog hstep).trans hprog) (step_run hstep hrun)

/-- A period shows what its `FETCH` shows and then what the instance foretells after it. -/
theorem PeriodBegins.foretold (h : PeriodBegins k s) {α : Type} {view : List OwnStep → List α} {left : Block → List α}
    (hview : Block.Foretells (s.blockAt k).period (s.blockAt k).nextThreshold view left) (n : Nat) :
    Unfolds (PeriodEnds (ownSteps k n s)) (view (firstPeriod (ownSteps k n s)))
      (view [⟨s.blockAt k, (s.blockAt k).machineStep⟩] ++ left (s.blockAt k).machineStep) := by
  have hcases := h.ownSteps_cases n
  obtain ⟨-, -, -, hpc, -⟩ := h
  have hfetched : (s.blockAt k).machineStep.InPeriod _ _ := Block.inPeriod_machineStep_of_fetch hpc
  have hlatch : (s.blockAt k).machineStep.pc ≠ 0 := by rw [Block.machineStep_fetch _ hpc]; exact one_ne_zero
  obtain hnil | ⟨own, hown, hrun⟩ := hcases
  · rw [hnil, firstPeriod, hview.view_nil]
    exact .of_not_ended not_periodEnds_nil _
  · rw [hown, firstPeriod_cons_of_not_end own hlatch, hview.view_cons]
    exact (hrun.foretold hview hfetched hlatch).append_left (fun h => (periodEnds_cons.mp h).resolve_left hlatch) _

/-- The pin trace of a period of any length (R179, R180). -/
theorem PeriodBegins.pinTrace_firstPeriod (h : PeriodBegins k s) (n : Nat) :
    Unfolds (PeriodEnds (ownSteps k n s)) (pinTrace (firstPeriod (ownSteps k n s)))
      (lowThenHigh (highLeft (s.blockAt k).period (s.blockAt k).nextThreshold) ((s.blockAt k).machineStep.stepsLeft + 1)) := by
  have hforetold := h.foretold (Block.foretells_pinTrace _ _) n
  obtain ⟨-, -, -, hpc, -⟩ := h
  rwa [lowThenHigh_succ, ← (Block.inPeriod_machineStep_of_fetch hpc).pin_eq_decide]

/-- The values of the counter that a period of any length compares (R177). -/
theorem PeriodBegins.comparedAt_firstPeriod (h : PeriodBegins k s) (n : Nat) :
    Unfolds (PeriodEnds (ownSteps k n s)) (comparedAt (firstPeriod (ownSteps k n s)))
      (counterValues (iterationsAfter (s.blockAt k).period + 1)) := by
  have hforetold := h.foretold (Block.foretells_comparedAt _ _) n
  obtain ⟨-, -, -, hpc, -⟩ := h
  simpa [comparedAt, hpc, Block.machineStep_fetch, Block.comparesLeft, SeqState.ofPc] using hforetold

/-- The matches of a period of any length that has ended (R177). -/
theorem PeriodBegins.matchCount_firstPeriod (h : PeriodBegins k s) (hends : PeriodEnds (ownSteps k n s)) :
    matchCount (firstPeriod (ownSteps k n s)) =
      if iterationsAfter (s.blockAt k).nextThreshold ≤ iterationsAfter (s.blockAt k).period then 1 else 0 := by
  have hmatches := congrArg List.length ((h.foretold (Block.foretells_matchCount _ _) n).2 hends)
  obtain ⟨-, -, -, hpc, -⟩ := h
  simpa [matchCount, hpc, Block.machineStep_fetch, Block.matchesLeft, SeqState.ofPc] using hmatches

end Period

/-! ### A period of length 0 -/

theorem iterationsAfter_zero : iterationsAfter 0 = 2 ^ 32 - 1 := rfl

/-- The countdown from 0 comes to every value of the counter (R162). -/
theorem iterationsAfter_le_iterationsAfter_zero (T : Word) : iterationsAfter T ≤ iterationsAfter 0 := by
  unfold iterationsAfter
  bv_omega

theorem iterationsAfter_add_one (T : Word) : iterationsAfter T + 1 = if T = 0 then 2 ^ 32 else T.toNat := by
  split
  · next h => rw [h, iterationsAfter_zero, Nat.sub_add_cancel Nat.one_le_two_pow]
  · next h => exact iterationsAfter_of_ne_zero h

theorem counterValues_of_zero_period : counterValues (iterationsAfter 0 + 1) = 0 :: countdown (2 ^ 32 - 1) := by
  have hzero : (0 : Word).toNat = 0 := rfl
  rw [counterValues_succ_iterationsAfter, iterationsAfter_zero, counterValues_of_lt (by decide), hzero]

theorem Block.stepsLeft_machineStep_of_zero_period {u : Block} (h : u.pc = 0) (hperiod : u.period = 0) :
    u.machineStep.stepsLeft + 1 = 2 * 2 ^ 32 + 4 := by
  have hall : iterationsAfter u.nextThreshold ≤ iterationsAfter 0 := iterationsAfter_le_iterationsAfter_zero _
  rw [stepsLeft_machineStep_of_fetch h, hperiod, if_pos hall, iterationsAfter_zero]
  omega

/-- The waveform of a period of length 0, with `2^W` for a threshold of 0. -/
theorem lowThenHigh_of_zero_period (next : Word) : lowThenHigh (highLeft 0 next) (2 * 2 ^ 32 + 4) =
    List.replicate (2 * 2 ^ 32 + 4 - 2 * if next = 0 then 2 ^ 32 else next.toNat) false ++
      List.replicate (2 * if next = 0 then 2 ^ 32 else next.toNat) true := by
  have hall : iterationsAfter next ≤ iterationsAfter 0 := iterationsAfter_le_iterationsAfter_zero next
  have hle : 2 * (iterationsAfter next + 1) ≤ 2 * 2 ^ 32 + 4 := by
    rw [iterationsAfter_zero] at hall
    omega
  rw [highLeft, if_pos hall, lowThenHigh_of_le hle, iterationsAfter_add_one]

/-- Settles O44: a period of length 0 shows what every period shows, with a countdown that comes to every value of the counter; and
`run_alone` with the block at its end when the sequencer alone moves. -/
theorem zeroPeriodWaveform : Obligations.ZeroPeriodWaveform := by
  intro k s hbegins hperiod next T L wave
  have hobserved (n : Nat) := hbegins.observedPeriod n
  have hpins (n : Nat) := hbegins.pinTrace_firstPeriod n
  have hcompares (n : Nat) := hbegins.comparedAt_firstPeriod n
  have hmatches (n : Nat) := hbegins.matchCount_firstPeriod (n := n)
  obtain ⟨hk, hprog, hrun, hpc, -⟩ := hbegins
  have hlength : (s.blockAt k).machineStep.stepsLeft + 1 = L := Block.stepsLeft_machineStep_of_zero_period hpc hperiod
  have hall : iterationsAfter next ≤ iterationsAfter (s.blockAt k).period := by
    rw [hperiod]
    exact iterationsAfter_le_iterationsAfter_zero next
  refine ⟨fun n => ?_, fun rest hschedule => ?_⟩
  · obtain ⟨hpin, hpinEnds⟩ := hpins n
    obtain ⟨hcompared, hcomparedEnds⟩ := hcompares n
    rw [hlength, hperiod, lowThenHigh_of_zero_period] at hpin hpinEnds
    rw [hperiod, counterValues_of_zero_period] at hcompared hcomparedEnds
    exact ⟨hpin, hcompared, fun hends => ⟨hpinEnds hends, hcomparedEnds hends, by rw [hmatches n hends, if_pos hall]⟩⟩
  · rw [← hlength] at hschedule ⊢
    obtain ⟨t, ht, hblock, hown, hframe⟩ := run_alone _ hk hprog hrun hschedule
    refine ⟨t, ht, (hobserved _).periodEnds_iff.mpr hown.ge, ?_, ?_, hframe⟩
    · rw [(hobserved _).firstPeriod_eq]
      exact List.take_of_length_le hown.le
    · rw [hblock, Block.iterate_machineStep_of_fetch hpc, decide_eq_true hall]

end Sys2Proof.Machine
end

section
/-! PROOFS. The controller's operations (spec/42_controller_operations.md): the clamp and its encoding (R155 to R157), `set_duty` (R159), and
where `initialize` is refused (R165). -/

namespace Sys2Proof.Machine

/-! ### The clamp and the encoding of a clamped request -/

section Clamp

variable {v w M : Int}

theorem clamp_of_lt (hM : 0 ≤ M) (h : v < -1) : clamp v M = -1 := by
  unfold clamp
  omega

theorem clamp_of_mem (hlow : -1 ≤ v) (hhigh : v ≤ M) : clamp v M = v := by
  rw [clamp, min_eq_left hhigh, max_eq_right hlow]

theorem clamp_of_gt (hM : 0 ≤ M) (h : M < v) : clamp v M = M := by
  rw [clamp, min_eq_right h.le, max_eq_right (by omega)]

theorem neg_one_le_clamp (v M : Int) : -1 ≤ clamp v M := le_max_left _ _

theorem clamp_le (v : Int) (hM : 0 ≤ M) : clamp v M ≤ M := max_le (by omega) (min_le_right _ _)

theorem clamp_mono (M : Int) (h : v ≤ w) : clamp v M ≤ clamp w M := max_le_max le_rfl (min_le_min h le_rfl)

end Clamp

/-- Settles O46: the three ranges, and the two bounds in either order because `-1` is below `M`. -/
theorem clampIsBothBounds : Obligations.ClampIsBothBounds := by
  intro v M hM
  have horder : clamp v M = min (max (-1) v) M := by
    have hbounds : (-1 : Int) ≤ M := by omega
    rw [clamp, max_min_distrib_left, max_eq_right hbounds]
  exact ⟨rfl, horder, clamp_of_lt hM, clamp_of_mem, clamp_of_gt hM⟩

/-- Settles O47: a clamped request lies in the range whose members the clamp leaves alone; the last two laws go by the three ranges. -/
theorem clampLaws : Obligations.ClampLaws := by
  intro v w M hM
  have hlow : -1 ≤ clamp v M := neg_one_le_clamp v M
  have hhigh : clamp v M ≤ M := clamp_le v hM
  refine ⟨clamp_of_mem hlow hhigh, hlow, hhigh, clamp_mono M, ⟨fun h => h ▸ ⟨hlow, hhigh⟩, fun h => clamp_of_mem h.1 h.2⟩, ?_⟩
  obtain hv | hv | hv : v < -1 ∨ (-1 ≤ v ∧ v ≤ M) ∨ M < v := by omega
  · rw [clamp_of_lt hM hv]
    omega
  · rw [clamp_of_mem hv.1 hv.2]
    omega
  · rw [clamp_of_gt hM hv]
    omega

theorem toNat_encW (c : Int) : (encW c).toNat = (c % 2 ^ 32).toNat := BitVec.toNat_ofInt ..

theorem encW_eq_iff (a b : Int) : encW a = encW b ↔ a % 2 ^ 32 = b % 2 ^ 32 := by
  rw [← BitVec.toNat_inj, toNat_encW, toNat_encW]
  omega

/-- Settles O48: two requests in `[-1, M]` with one encoding are `2^32` apart, and the range holds two such from `M = 2^32 - 1` on. -/
theorem encodingOfRequestsIsInjectiveIff : Obligations.EncodingOfRequestsIsInjectiveIff := by
  refine ⟨rfl, fun c hc => ?_, fun M => ⟨fun hinj => ?_, fun hM a b ha haM hb hbM hab => ?_⟩⟩
  · rw [toNat_encW]
    omega
  · by_contra hM
    have hsame : encW (-1) = encW (2 ^ 32 - 1) := rfl
    have hcollide := hinj (-1) (2 ^ 32 - 1) (by omega) (by omega) (by omega) (by omega) hsame
    omega
  · rw [encW_eq_iff] at hab
    omega

/-! ### The turn of a context that begins an operation -/

/-- The state in which context `j` has had the turn at the head of the schedule and taken its next operation: `rest` and `ops` are left. -/
def State.opTaken (s : State) (j : Nat) (ops : List HostOp) (rest : List Agent) : State :=
  ({ s with schedule := rest } : State).onContext j fun h => { h with ops := ops }

theorem hostTurn_of_op {s : State} {j : Nat} {op : HostOp} {ops : List HostOp} (hcall : (s.contextAt j).call = none)
    (hops : (s.contextAt j).ops = op :: ops) : hostTurn j s = hostOp j op (s.onContext j fun h => { h with ops := ops }) := by
  simp [hostTurn, hcall, hops]

theorem step_of_op {s : State} {j : Nat} {op : HostOp} {ops : List HostOp} {rest : List Agent} (hschedule : s.schedule = .host j :: rest)
    (hcall : (s.contextAt j).call = none) (hops : (s.contextAt j).ops = op :: ops) :
    step s = hostOp j op (s.opTaken j ops rest) :=
  (step_of_schedule hschedule).trans (hostTurn_of_op (s := { s with schedule := rest }) hcall hops)

/-! ### `set_duty` -/

theorem setDutyTurn_of_controller {s : State} {k : Nat} {c : Controller} (value : Int) (hc : s.controllerAt k = some c) :
    setDutyTurn k value s = exec (.enqueue (encW (clamp value c.maxCount))) (s.addressed c.sequencerHandle) := by
  simp [setDutyTurn, hc]

/-- Settles O49: the host's turn is an enqueue on the instance it is addressed to. -/
theorem setDutyEnqueuesClampedRequest : Obligations.SetDutyEnqueuesClampedRequest := by
  intro s j k value c ops rest hschedule hcall hops hc
  have hstep : step s = exec _ ((s.opTaken j ops rest).addressed c.sequencerHandle) :=
    (step_of_op hschedule hcall hops).trans (setDutyTurn_of_controller value hc)
  obtain ⟨t, hexec, hblock, hframe⟩ :=
    enqueueReplacesPending.1 (encW (clamp value c.maxCount)) ((s.opTaken j ops rest).addressed c.sequencerHandle)
  refine ⟨t, hstep.trans hexec, ?_, ?_⟩
  · rw [hblock, block_addressed]
    rfl
  · exact (sameButBlock_setBlock ((s.opTaken j ops rest).select c.sequencerHandle) _).trans hframe

/-! ### Where `initialize` is refused -/

/-- Settles O52: each refusal is the first check of its kind in R160, with the checks before it passed. -/
theorem initializeRefusals : Obligations.InitializeRefusals := by
  intro N P j a s
  refine ⟨fun hpin => ?_, fun hlow hpin hf => ?_, fun k hlow hpin hf hid hk hused => ?_⟩
  · rw [initBegin, if_pos (by omega)]
  · rw [initBegin, if_neg (by omega), if_pos (by omega)]
  · have hfresh : ¬(s.blockAt a.sequencerId.toNat).fresh = true := by
      rw [hid, Int.toNat_natCast]
      obtain hrun | htouched := hused
      · simp [Block.fresh, hrun]
      · simp [Block.fresh, htouched]
    rw [initBegin, if_neg (by omega), if_neg (by omega), if_neg (by omega), if_pos hfresh]

end Sys2Proof.Machine
end

section
/-! PROOFS. A call of `initialize` whose checks pass (R160, R161): its six turns (log 10) one after the other, and the state they leave. -/

namespace Sys2Proof.Machine

/-! ### The turns of the call -/

theorem hostTurn_of_call {s : State} {j : Nat} {c : InitCall} (hcall : (s.contextAt j).call = some c) :
    hostTurn j s = initContinue j c s := by
  simp [hostTurn, hcall]

theorem step_of_call {s : State} {j : Nat} {c : InitCall} {rest : List Agent} (hschedule : s.schedule = .host j :: rest)
    (hcall : (s.contextAt j).call = some c) : step s = initContinue j c { s with schedule := rest } :=
  (step_of_schedule hschedule).trans (hostTurn_of_call (s := { s with schedule := rest }) hcall)

theorem exec_addressed_of_effect {i : Instr} {s : State} {k : Nat} {v : Block}
    (h : effect i { s.blockAt k with touched := true } = .ok v) : exec i (s.addressed k) = .next ((s.addressed k).setBlock k v) := by
  rw [exec_eq_effect, block_addressed, h, addressed_sel]

theorem initContinue_of_stageInstr {j : Nat} {c : InitCall} {i : Instr} {st : InitStage} (s : State)
    (h : stageInstr c = some (i, st)) : initContinue j c s = exec i ((s.reachStage j c st).addressed c.sequencerId) := by
  obtain ⟨i', st', h', hexec⟩ | ⟨hfinish, -⟩ := initContinue_eq j c s
  · obtain ⟨rfl, rfl⟩ : i = i' ∧ st = st' := by simpa [h] using h'
    exact hexec
  · simp [stageInstr, hfinish] at h

theorem initContinue_of_finish {j : Nat} {c : InitCall} (s : State) (h : c.stage = .finish) :
    initContinue j c s = .next (finished s j c) := by
  simp [initContinue, h, finished]

/-- The checks of `initialize` pass (R160, steps 1 to 3). -/
theorem exists_bound {N P j k p m f : Nat} {s : State} (hk : k < N) (hp : p < P) (hm : m ≤ 2 ^ 32 - 1) (hf : 0 < f)
    (hreset : (s.blockAt k).AtReset) (hfree : s.pinBoundAt p = false) :
    ∃ t, initBegin N P j ⟨k, p, m, f⟩ s = .next t ∧ Bound N P j ⟨k, p, m, f⟩ s t := by
  obtain ⟨hidle, -, -, -, huntouched⟩ := hreset
  refine ⟨_, ?_, by simp, by simpa using hp, by simpa using hf, by simp, by simpa using hk, hidle, huntouched, hfree,
    ⟨by simp, hm⟩, rfl⟩
  simp [initBegin, hp, hf, hk, Block.fresh, hidle, huntouched, hfree, hm, State.onBlock]

theorem Bound.pinBoundAt_eq {N P j : Nat} {a : InitArgs} {s t : State} (h : Bound N P j a s t) (q : Nat) :
    t.pinBoundAt q = if q = a.pin.toNat then true else s.pinBoundAt q := by
  obtain ⟨-, -, -, -, -, -, -, -, -, rfl⟩ := h
  simp [pinBoundAt_bindPin]

theorem Bound.contextAt_ne {N P j : Nat} {a : InitArgs} {s t : State} (h : Bound N P j a s t) {i : Nat} (hi : i ≠ j) :
    t.contextAt i = s.contextAt i := by
  obtain ⟨-, -, -, -, -, -, -, -, -, rfl⟩ := h
  simp [contextAt_onContext, hi]

/-! ### What the priming makes of the instance -/

/-- The one-shot `FETCH` of the priming (R143), on an idle instance. -/
theorem effect_exec_fetch {u : Block} (hidle : u.run = false) :
    effect (.exec 0x00) u = .ok { u with scr := u.nextThreshold, tqValid := false } := by
  obtain ⟨-, -, -, -, -, -, hfetch, -⟩ := specWordsDecode
  refine effect_exec_eq_ok_iff.mpr ⟨hidle, _, hfetch, _, rfl, ?_⟩
  rw [Block.sideSet_none, Block.fetchQueue_eq, Block.nextThreshold]

/-- The one-shot `LDPER` of the priming (R145), on an idle instance. -/
theorem effect_exec_ldper {u : Block} (hidle : u.run = false) : effect (.exec 0xC0) u = .ok { u with period := u.scr } := by
  obtain ⟨-, -, -, -, -, -, -, hldper, -⟩ := specWordsDecode
  exact effect_exec_eq_ok_iff.mpr ⟨hidle, _, hldper, _, rfl, rfl⟩

/-- What step 4 of R160 sets of an instance. -/
def Block.configured (u : Block) (p clk : Nat) : Block := { u with cfgPin := p, cfgClk := clk }

/-- What a call of `initialize` has made of a configured instance when its priming with the value `m` has come to a stage (R160, steps 5 to 9). -/
def Block.primed (u : Block) (m : Word) : InitStage → Block
  | .enqueue => { u with touched := true }
  | .fetch => { u with touched := true, tqData := m, tqValid := true }
  | .ldper => { u with touched := true, tqData := m, tqValid := false, scr := m }
  | .activate => { u with touched := true, tqData := m, tqValid := false, scr := m, period := m }
  | .finish => { u with touched := true, tqData := m, tqValid := false, scr := m, period := m, run := true }

/-- The instruction of a stage primes the instance for the next. -/
theorem effect_stageInstr {k p m : Nat} {stage st : InitStage} {i : Instr} {u : Block} (hidle : u.run = false)
    (hstage : stageInstr ⟨k, p, m, stage⟩ = some (i, st)) :
    effect i { u.primed (encW m) stage with touched := true } = .ok (u.primed (encW m) st) := by
  cases stage <;> cases hstage
  case enqueue => rfl
  case fetch => exact effect_exec_fetch hidle
  case ldper => exact effect_exec_ldper hidle
  case activate => rfl

/-! ### What holds from one turn to the next -/

/-- From `s`, context `j` has begun the call `c` of `initialize`, and is to go on with `ops` after it: the instance is now `u`, the pin is bound,
and nothing else has changed but that `rest` is left of the schedule. -/
structure Initialising (s : State) (j : Nat) (c : InitCall) (ops : List HostOp) (rest : List Agent) (u : Block) (t : State) : Prop where
  schedule_eq : t.schedule = rest
  prog_eq : t.prog = s.prog
  blockAt_self : t.blockAt c.sequencerId = u
  blockAt_ne : ∀ i, i ≠ c.sequencerId → t.blockAt i = s.blockAt i
  pinBoundAt_eq : ∀ q, t.pinBoundAt q = if q = c.pin then true else s.pinBoundAt q
  controllerAt_eq : ∀ i, t.controllerAt i = s.controllerAt i
  contextAt_self : t.contextAt j = { ops := ops, call := some c, result := (s.contextAt j).result }
  contextAt_ne : ∀ i, i ≠ j → t.contextAt i = s.contextAt i

namespace Initialising

variable {s t : State} {j : Nat} {c : InitCall} {ops : List HostOp} {rest : List Agent} {u v : Block}

/-- Steps 1 to 4 of R160, in one turn. -/
theorem begins {k p m f : Nat} (hk : k < Config.nSeq) (hp : p < Config.nPin) (hm : m ≤ 2 ^ 32 - 1) (hf : 0 < f)
    (hreset : (s.blockAt k).AtReset) (hfree : s.pinBoundAt p = false) (hcall : (s.contextAt j).call = none)
    (hops : (s.contextAt j).ops = .initChannel ⟨k, p, m, f⟩ :: ops) (hschedule : s.schedule = .host j :: rest) :
    ∃ t, step s = .next t ∧ Initialising s j ⟨k, p, m, .enqueue⟩ ops rest
      (((s.blockAt k).configured p (2 * f)).primed (encW m) .enqueue) t := by
  obtain ⟨t, hbegin, hbound⟩ := exists_bound (j := j) (s := s.opTaken j ops rest) hk hp hm hf hreset hfree
  have hstep : step s = .next t := (step_of_op hschedule hcall hops).trans hbegin
  have hcontroller (i : Nat) : t.controllerAt i = s.controllerAt i := by
    rw [State.controllerAt, hbound.controllers_eq]
    rfl
  refine ⟨t, hstep, ?_, step_prog hstep, ?_, fun i hi => ?_, ?_, hcontroller, ?_, fun i hi => ?_⟩
  · rw [step_schedule hstep, hschedule, List.tail_cons]
  · exact (hbound.blockAt_eq k).trans (if_pos rfl)
  · exact (hbound.blockAt_eq i).trans (if_neg hi)
  · exact hbound.pinBoundAt_eq
  · rw [hbound.contextAt_self, State.opTaken, contextAt_onContext, if_pos rfl]
    rfl
  · rw [hbound.contextAt_ne hi, State.opTaken, contextAt_onContext, if_neg hi]
    rfl

/-- Steps 5 to 8 of R160: each turn executes the instruction of its stage on the instance. -/
theorem next {k p m : Nat} {stage st : InitStage} {i : Instr} (h : Initialising s j ⟨k, p, m, stage⟩ ops (.host j :: rest) u t)
    (hstage : stageInstr ⟨k, p, m, stage⟩ = some (i, st)) (heffect : effect i { u with touched := true } = .ok v) :
    ∃ r, step t = .next r ∧ Initialising s j ⟨k, p, m, st⟩ ops rest v r := by
  have hcall : (t.contextAt j).call = some ⟨k, p, m, stage⟩ := by rw [h.contextAt_self]
  have hblock : t.blockAt k = u := h.blockAt_self
  rw [← hblock] at heffect
  refine ⟨_, (step_of_call h.schedule_eq hcall).trans ((initContinue_of_stageInstr _ hstage).trans (exec_addressed_of_effect heffect)),
    rfl, h.prog_eq, blockAt_setBlock_self _ _ _, fun i hi => ?_, h.pinBoundAt_eq, h.controllerAt_eq, ?_, fun i hi => ?_⟩
  · rw [blockAt_setBlock, if_neg hi, blockAt_addressed, if_neg hi]
    exact h.blockAt_ne i hi
  · rw [setBlock_contextAt, addressed_contextAt, contextAt_reachStage, if_pos rfl]
    exact congrArg (fun g : HostContext => { g with call := some ⟨k, p, m, st⟩ }) h.contextAt_self
  · rw [setBlock_contextAt, addressed_contextAt, contextAt_reachStage, if_neg hi]
    exact h.contextAt_ne i hi

/-- Step 9 of R160. -/
theorem finish (h : Initialising s j c ops (.host j :: rest) u t) (hstage : c.stage = .finish) :
    step t = .next (finished { t with schedule := rest } j c) := by
  have hcall : (t.contextAt j).call = some c := by rw [h.contextAt_self]
  exact (step_of_call h.schedule_eq hcall).trans (initContinue_of_finish _ hstage)

end Initialising

/-- Steps 5 to 8 of R160, on an instance that is idle until the last of them. -/
theorem Initialising.primes {s t : State} {j k p m : Nat} {stage st : InitStage} {i : Instr} {ops : List HostOp} {rest : List Agent}
    {u : Block} (hidle : u.run = false) (h : Initialising s j ⟨k, p, m, stage⟩ ops (.host j :: rest) (u.primed (encW m) stage) t)
    (hstage : stageInstr ⟨k, p, m, stage⟩ = some (i, st)) :
    ∃ r, step t = .next r ∧ Initialising s j ⟨k, p, m, st⟩ ops rest (u.primed (encW m) st) r :=
  h.next hstage (effect_stageInstr hidle hstage)

theorem contextAt_finished_of_ne (s : State) (c : InitCall) {i j : Nat} (hi : i ≠ j) :
    (finished s j c).contextAt i = s.contextAt i := by
  simp [finished, contextAt_onContext, hi]

/-- Settles O53: the six turns one after the other, each on the instance the one before it left. -/
theorem initializePrimesAndActivates : Obligations.InitializePrimesAndActivates := by
  intro s j k p m f ops rest hk hp hm hf hreset hfree hcall hops hschedule
  have hidle : ((s.blockAt k).configured p (2 * f)).run = false := hreset.1
  obtain ⟨t₁, hstep₁, h₁⟩ := Initialising.begins hk hp hm hf hreset hfree hcall hops hschedule
  obtain ⟨t₂, hstep₂, h₂⟩ := h₁.primes hidle rfl
  obtain ⟨t₃, hstep₃, h₃⟩ := h₂.primes hidle rfl
  obtain ⟨t₄, hstep₄, h₄⟩ := h₃.primes hidle rfl
  obtain ⟨t₅, hstep₅, h₅⟩ := h₄.primes hidle rfl
  have hstep₆ : step t₅ = .next (finished { t₅ with schedule := rest } j ⟨k, p, m, .finish⟩) := h₅.finish rfl
  refine ⟨finished { t₅ with schedule := rest } j ⟨k, p, m, .finish⟩, ?_, ?_, h₅.blockAt_ne, h₅.pinBoundAt_eq, fun i => ?_, ?_,
    fun i hi => ?_, h₅.prog_eq, rfl⟩
  · rw [core_run_next 5 s t₁ hstep₁, core_run_next 4 t₁ t₂ hstep₂, core_run_next 3 t₂ t₃ hstep₃, core_run_next 2 t₃ t₄ hstep₄,
      core_run_next 1 t₄ t₅ hstep₅, core_run_next 0 t₅ _ hstep₆, core_run_zero]
  · have hm' : encW m = BitVec.ofNat 32 m := encW_natCast m
    rw [← hm']
    exact h₅.blockAt_self
  · rw [controllerAt_finished]
    exact congrArg (fun d => if i = k then some ⟨k, m, p⟩ else d) (h₅.controllerAt_eq i)
  · rw [contextAt_finished]
    exact congrArg (fun g : HostContext => { g with call := none, result := some .success }) h₅.contextAt_self
  · rw [contextAt_finished_of_ne _ _ hi]
    exact h₅.contextAt_ne i hi

/-- Settles O60: by what a successful call leaves (`initializePrimesAndActivates`); the queue is empty, `SCR` holds `max_count`, and no context
has more to do on the instance than it had. -/
theorem initializedHasThresholdInv : Obligations.InitializedHasThresholdInv := by
  intro s j k p m f ops rest hk hp hm hf hreset hfree hcall hops hschedule hprog hcommands hothers hhandles
  obtain ⟨t, ht, hblock, -, -, hcontroller, hself, hcontext, hprog', -⟩ :=
    initializePrimesAndActivates s j k p m f ops rest hk hp hm hf hreset hfree hcall hops hschedule
  have hthrough : ThroughController k t := by
    intro i
    by_cases hi : i = j
    · rw [hi, hself]
      exact ⟨fun ⟨w, hw⟩ => hcommands w hw, fun c hc => by cases hc⟩
    · rw [hcontext i hi]
      exact hothers i hi
  have hhandle (i : Nat) (c : Controller) (hc : t.controllerAt i = some c) : c.sequencerHandle = i := by
    rw [hcontroller] at hc
    split at hc
    · next hi => cases hc; exact hi.symm
    · exact hhandles i c hc
  have hmax (c : Controller) (hc : t.controllerAt k = some c) : c.maxCount = m := by
    rw [hcontroller, if_pos rfl] at hc
    cases hc
    rfl
  have hlegal : LegalThreshold m (BitVec.ofNat 32 m) := .inr (by rw [BitVec.toNat_ofNat]; exact Nat.mod_le _ _)
  refine ⟨t, ht, hprog'.trans hprog, ?_, hthrough, hhandle, hmax, ?_⟩
  · rw [hblock]
  · rw [hblock]
    exact ⟨.inr rfl, .inl hlegal, fun hvalid => absurd hvalid Bool.false_ne_true⟩

end Sys2Proof.Machine
end

section
/-! PROOFS. An instance that the host reaches through its controller alone (R187): what a step can do to it, and what its registers can then hold. -/

namespace Sys2Proof.Machine

/-! ### What `set_duty` delivers -/

/-- Every request is delivered as the off sentinel or as a value up to `max_count` (R155, R157). -/
theorem legalThreshold_encW_clamp (v : Int) (M : Nat) : LegalThreshold M (encW (clamp v M)) := by
  have hlow : -1 ≤ clamp v M := neg_one_le_clamp v M
  have hhigh : clamp v M ≤ M := clamp_le v (Int.natCast_nonneg M)
  unfold LegalThreshold
  rw [toNat_encW]
  omega

/-! ### A turn of `set_duty` -/

/-- The turn of context `j` was the call `set_duty(v)` on the controller `c` of instance `k`, after which the context has `ops` left to do. -/
structure SetDutyTurn (j k : Nat) (v : Int) (c : Controller) (ops : List HostOp) (s t : State) : Prop where
  ops_eq : (s.contextAt j).ops = .setDuty k v :: ops
  controllerAt_eq : s.controllerAt k = some c
  blockAt_eq : t.blockAt k = { s.blockAt k with tqData := encW (clamp v c.maxCount), tqValid := true, touched := true }
  contextAt_eq : t.contextAt j = { s.contextAt j with ops := ops }

theorem SetDutyTurn.of_commanded {j k : Nat} {v : Int} {c : Controller} {ops : List HostOp} {s t : State}
    (hops : (s.contextAt j).ops = .setDuty k v :: ops) (hc : s.controllerAt k = some c)
    (h : Commanded (.enqueue (encW (clamp v c.maxCount))) k (s.onContext j fun h => { h with ops := ops }) t) :
    SetDutyTurn j k v c ops s t where
  ops_eq := hops
  controllerAt_eq := hc
  blockAt_eq := (Except.ok.inj h.effect_eq).symm
  contextAt_eq := by rw [h.contextAt_eq, contextAt_onContext, if_pos rfl]

/-! ### The host's turn through the controller -/

/-- Each controller is listed under the instance it owns (R158). -/
def HandlesOk (s : State) : Prop := ∀ i c, s.controllerAt i = some c → c.sequencerHandle = i

/-- The sequencer of instance `k` runs the fixed program, and the host reaches the instance through its controller alone. -/
structure ReachedThroughController (k : Nat) (s : State) : Prop where
  prog_eq : s.prog = []
  running : (s.blockAt k).run = true
  throughController : ThroughController k s
  handlesOk : HandlesOk s

/-- Such an instance is reached by no command, by no call in progress and, as it runs, by no new call: `set_duty` is left. -/
theorem hostTurn_throughController {j k : Nat} {s t : State} (hs : ReachedThroughController k s) (h : hostTurn j s = .next t) :
    t.blockAt k = s.blockAt k ∨ ∃ v c ops, SetDutyTurn j k v c ops s t := by
  obtain ⟨hcommands, hcalls⟩ := hs.throughController j
  obtain ⟨-, -, rfl⟩ | ⟨c, i, st, hc, -, hcom⟩ | ⟨c, -, -, rfl⟩ | ⟨op, ops, s', -, hops, rfl, hop⟩ := hostTurn_cases j s t h
  · exact .inl rfl
  · exact .inl (hcom.blockAt_ne (hcalls c hc).symm)
  · exact .inl rfl
  · obtain ⟨m, w, i, rfl, -, -, hcom⟩ | ⟨m, v, c, rfl, hc, hcom⟩ | ⟨a, -, ⟨r, rfl⟩ | hbound⟩ := hop
    · refine .inl (hcom.blockAt_ne fun hk => hcommands ⟨w, ?_⟩)
      rw [hops, hk]
      exact List.mem_cons_self
    · have hm : c.sequencerHandle = m := hs.handlesOk m c hc
      rw [hm] at hcom
      by_cases hk : k = m
      · subst hk
        exact .inr ⟨v, c, ops, .of_commanded hops hc hcom⟩
      · exact .inl (hcom.blockAt_ne hk)
    · exact .inl rfl
    · rw [hbound.blockAt_eq, if_neg, onContext_blockAt]
      · exact .inl rfl
      · rintro rfl
        obtain ⟨-, -, -, -, -, hidle, -⟩ := hbound
        rw [onContext_blockAt, hs.running] at hidle
        cases hidle

/-- A context's turn adds no command to what it was about to do, and a call it begins is on an idle instance (R165). -/
theorem hostTurn_keeps_throughController {j k : Nat} {s t : State} (hs : ReachedThroughController k s)
    (h : hostTurn j s = .next t) : ThroughController k t := by
  intro i
  by_cases hi : i = j
  · subst hi
    obtain ⟨hcommands, hcalls⟩ := hs.throughController i
    refine ⟨fun ⟨w, hw⟩ => hcommands ⟨w, hostTurn_ops_subset h hw⟩, fun c hc => ?_⟩
    obtain ⟨d, ins, st, hd, -, -, rfl⟩ | ⟨a, ops, -, rfl, hbound⟩ := hostTurn_call_cases h hc
    · exact hcalls d hd
    · rintro rfl
      obtain ⟨-, -, -, -, -, hidle, -⟩ := hbound
      exact absurd (hidle.symm.trans hs.running) Bool.false_ne_true
  · rw [(Updates.of_hostTurn h).contextAt_ne hi]
    exact hs.throughController i

/-! ### A step, with the host going through the controller -/

theorem seqTurn_contextAt {k : Nat} {s t : State} (h : seqTurn k s = .next t) (j : Nat) : t.contextAt j = s.contextAt j := by
  obtain ⟨-, -, hcontexts, -⟩ := seqTurn_frame h
  rw [State.contextAt, hcontexts, State.contextAt]

/-- A controller that comes into existence is listed under its instance. -/
theorem step_handlesOk {s t : State} (hs : HandlesOk s) (h : step s = .next t) : HandlesOk t := by
  obtain hsame | ⟨j, d, -, -, rfl⟩ := step_controllers h
  · intro i c hc
    rw [State.controllerAt, hsame] at hc
    exact hs i c hc
  · intro i c hc
    rw [controllerAt_finished] at hc
    split at hc
    · next hi => cases hc; exact hi.symm
    · exact hs i c hc

namespace ReachedThroughController

variable {k : Nat} {s t : State}

theorem turnUsed (hs : ReachedThroughController k s) : ReachedThroughController k s.turnUsed :=
  ⟨hs.prog_eq, hs.running, hs.throughController, hs.handlesOk⟩

theorem next (hs : ReachedThroughController k s) (h : step s = .next t) : ReachedThroughController k t where
  prog_eq := (step_prog h).trans hs.prog_eq
  running := step_run h hs.running
  throughController := by
    obtain ⟨m, -, hturn⟩ | ⟨j, -, hturn⟩ := step_cases s t h
    · intro j
      rw [seqTurn_contextAt hturn]
      exact hs.throughController j
    · exact hostTurn_keeps_throughController hs.turnUsed hturn
  handlesOk := step_handlesOk hs.handlesOk h

/-- No call in progress is about to make another controller for the instance. -/
theorem step_controllerAt (hs : ReachedThroughController k s) (h : step s = .next t) : t.controllerAt k = s.controllerAt k := by
  obtain hsame | ⟨j, c, hc, -, rfl⟩ := step_controllers h
  · rw [State.controllerAt, hsame, State.controllerAt]
  · have hother : c.sequencerId ≠ k := (hs.throughController j).2 c hc
    rw [controllerAt_finished, if_neg hother.symm, turnUsed_controllerAt]

/-- What a step can do to the instance: nothing, one transition of its own state machine, or a `set_duty`. -/
theorem step_blockAt_cases (hs : ReachedThroughController k s) (h : step s = .next t) :
    t.blockAt k = s.blockAt k ∨ t.blockAt k = (s.blockAt k).machineStep ∨
      ∃ j v c ops, SetDutyTurn j k v c ops s.turnUsed t := by
  obtain ⟨m, hm, hturn⟩ | ⟨j, -, hturn⟩ := step_cases s t h
  · by_cases hk : k = m
    · subst hk
      exact .inr (.inl (turn_blockAt_own (s := s.turnUsed) hs.prog_eq (seqTurn_cases _ _ _ hturn).1 hs.running hturn))
    · obtain ⟨-, -, -, hne⟩ := seqTurn_frame hturn
      exact .inl (hne k hk)
  · exact (hostTurn_throughController hs.turnUsed hturn).imp id fun hduty => .inr ⟨j, hduty⟩

end ReachedThroughController

/-! ### The values in `X`, `SCR` and the queue -/

/-- What R187 says of the registers of one instance. -/
def Block.ThresholdsOk (M : Nat) (x0 : Word) (u : Block) : Prop :=
  (LegalThreshold M u.x ∨ u.x = x0) ∧ (LegalThreshold M u.scr ∨ u.scr = x0) ∧ (u.tqValid = true → LegalThreshold M u.tqData)

theorem thresholdInv_iff {k M : Nat} {x0 : Word} {s : State} : ThresholdInv k M x0 s ↔
    ReachedThroughController k s ∧ (∀ c, s.controllerAt k = some c → c.maxCount = M) ∧ (s.blockAt k).ThresholdsOk M x0 :=
  ⟨fun ⟨hprog, hrun, hthrough, hhandles, hmax, hvalues⟩ => ⟨⟨hprog, hrun, hthrough, hhandles⟩, hmax, hvalues⟩,
    fun ⟨⟨hprog, hrun, hthrough, hhandles⟩, hmax, hvalues⟩ => ⟨hprog, hrun, hthrough, hhandles, hmax, hvalues⟩⟩

theorem Block.machineStep_tqData (u : Block) : u.machineStep.tqData = u.tqData := by
  unfold machineStep; split <;> rfl

/-- `LATCH` fills `X` from `SCR`, and `FETCH` fills `SCR` from the queue or from `X` (R112, R113). -/
theorem Block.ThresholdsOk.machineStep {M : Nat} {x0 : Word} {u : Block} (h : u.ThresholdsOk M x0) :
    u.machineStep.ThresholdsOk M x0 := by
  obtain ⟨hx, hscr, hqueue⟩ := h
  refine ⟨?_, ?_, ?_⟩
  · rw [u.machineStep_x]
    split
    · exact hscr
    · exact hx
  · rw [u.machineStep_scr, Block.nextThreshold]
    split_ifs with hpc hvalid
    · exact .inl (hqueue hvalid)
    · exact hx
    · exact hscr
  · rw [u.machineStep_tqData]
    by_cases hpc : u.pc = 0
    · rw [u.machineStep_fetch hpc]
      exact fun hvalid => absurd hvalid Bool.false_ne_true
    · rw [Block.machineStep_tqValid hpc]
      exact hqueue

/-- Settles O59: the state machine moves values between the queue, `SCR` and `X`, and `set_duty` puts only clamped requests in the queue. -/
theorem stepKeepsThresholdInv : Obligations.StepKeepsThresholdInv := by
  intro s t k M x0 hs h
  obtain ⟨hreached, hmax, hvalues⟩ := thresholdInv_iff.mp hs
  refine thresholdInv_iff.mpr ⟨hreached.next h, by rwa [hreached.step_controllerAt h], ?_⟩
  obtain heq | heq | ⟨j, v, c, ops, hduty⟩ := hreached.step_blockAt_cases h
  · rw [heq]
    exact hvalues
  · rw [heq]
    exact hvalues.machineStep
  · obtain ⟨hx, hscr, -⟩ := hvalues
    rw [hduty.blockAt_eq, hmax c hduty.controllerAt_eq]
    exact ⟨hx, hscr, fun _ => legalThreshold_encW_clamp v M⟩

end Sys2Proof.Machine
end

section
/-! PROOFS. The waveform of one period (spec/43_output_waveform.md R175 to R180, R184, R185): its edges, its pin trace, its compares and matches,
and its count steps. The length of the period is not 0. -/

namespace Sys2Proof.Machine

/-! ### The edges -/

/-- Who writes the pin: `FETCH` and SET_HIGH, through their side-sets (R175). -/
theorem Block.machineStep_pin (u : Block) : u.machineStep.pin = if u.pc = 0 then false else if u.pc = 4 then true else u.pin := by
  obtain h | h | h | h | h | h := u.pc_cases <;>
    simp [h, machineStep_fetch, machineStep_latch, machineStep_reload, machineStep_compare, machineStep_setHigh,
      machineStep_decrement]

/-- Settles O30: the pin of a running instance changes in a step of the state machine alone, where `Block.machineStep_pin` names the states. -/
theorem edgesOnlyAtTheirStates : Obligations.EdgesOnlyAtTheirStates := by
  intro s t k hprog h hrun
  unfold RisingEdge FallingEdge
  have hpin : (t.blockAt k).pin = (s.blockAt k).pin ∨ (t.blockAt k).pin = (s.blockAt k).machineStep.pin := by
    obtain heq | ⟨-, -, heq⟩ | hw := step_blockAt_fixed hprog h k
    · exact .inl (congrArg Block.pin heq)
    · exact .inr (congrArg Block.pin heq)
    · obtain ⟨d, b, hv⟩ := hw.eq_of_run hrun
      exact .inl (by rw [hv])
  obtain hpin | hpin := hpin <;> rw [hpin]
  · cases (s.blockAt k).pin <;> simp
  · rw [Block.machineStep_pin]
    split_ifs with hfetch hset
    · simp [hfetch]
    · simp [hset]
    · cases (s.blockAt k).pin <;> simp

/-! ### An enqueue in the middle of a period -/

/-- Outside `FETCH` the sequencer does not see the queue. -/
theorem Block.machineStep_of_enqueued {u : Block} (h : u.pc ≠ 0) (v : Word) :
    ({ u with tqData := v, tqValid := true, touched := true } : Block).machineStep =
      { u.machineStep with tqData := v, tqValid := true, touched := true } := by
  obtain hpc | hpc | hpc | hpc | hpc | hpc := u.pc_cases
  · exact absurd hpc h
  · rw [u.machineStep_latch hpc]
    exact machineStep_latch _ hpc
  · rw [u.machineStep_reload hpc]
    exact machineStep_reload _ hpc
  · rw [u.machineStep_compare hpc]
    exact machineStep_compare _ hpc
  · rw [u.machineStep_setHigh hpc]
    exact machineStep_setHigh _ hpc
  · rw [u.machineStep_decrement hpc]
    exact machineStep_decrement _ hpc

/-- Settles O34: both orders are run, and `Block.machineStep_of_enqueued` says that they leave the same instance. -/
theorem enqueueCommutesOutsideFetch : Obligations.EnqueueCommutesOutsideFetch := by
  rintro s₁ s₂ t₁ j k v ops rest hk hprog hcall hrun hpc hops hschedule rfl ht₁
  obtain ⟨a, hstepA, hscheduleA, hprogA, hblockA, -⟩ := step_enqueue hk hcall hops hschedule
  obtain ⟨b, hstepB, -, hblockB, -⟩ := step_fixed hk (hprogA.trans hprog) (by rw [hblockA]; exact hrun) hscheduleA
  have hsecond : t₁ = b := by
    rw [core_run_next 1 s₁ a hstepA, core_run_next 0 a b hstepB, core_run_zero] at ht₁
    exact (Host.Outcome.next.inj ht₁).symm
  obtain ⟨c, hstepC, hscheduleC, hblockC, hcontextsC⟩ :=
    step_fixed (s := { s₁ with schedule := .seq k :: .host j :: rest }) hk hprog hrun rfl
  have hcontext : c.contextAt j = s₁.contextAt j := by rw [State.contextAt, hcontextsC, State.contextAt]
  obtain ⟨d, hstepD, -, -, hblockD, -⟩ :=
    step_enqueue hk (by rw [hcontext]; exact hcall) (by rw [hcontext]; exact hops) hscheduleC
  refine ⟨d, by rw [core_run_next 1 _ c hstepC, core_run_next 0 c d hstepD, core_run_zero], ?_⟩
  rw [hsecond, hblockB, hblockA, Block.machineStep_of_enqueued hpc, hblockD, hblockC]
  rfl

/-! ### The pin trace, the compares and the matches -/

theorem highLeft_eq_highSteps {M T : Word} (hM : M ≠ 0) : highLeft M T = highSteps M.toNat T.toNat := by
  unfold highLeft highSteps hi
  simp only [iterationsAfter_le_iff hM]
  split
  · next h =>
    have hT : T ≠ 0 := by rintro rfl; exact absurd h.1 (by decide)
    rw [iterationsAfter_of_ne_zero hT]
  · rfl

theorem hi_le (M T : Nat) : hi M T ≤ M := by
  unfold hi
  split <;> omega

theorem highSteps_le_periodLength (M T : Nat) : highSteps M T ≤ periodLength M T := by
  unfold highSteps periodLength hi
  split <;> omega

theorem lowThenHigh_periodLength {M T : Word} (hM : M ≠ 0) :
    lowThenHigh (highLeft M T) (periodLength M.toNat T.toNat) = periodWave M.toNat T.toNat := by
  rw [highLeft_eq_highSteps hM, lowThenHigh_of_le (highSteps_le_periodLength _ _), periodWave]

/-- Settles O38: what `PeriodBegins.pinTrace_firstPeriod` says of every length, for a length that is not 0. -/
theorem periodWaveform : Obligations.PeriodWaveform := by
  intro k n s hbegins hperiod
  have hpins := hbegins.pinTrace_firstPeriod n
  obtain ⟨-, -, -, hpc, -⟩ := hbegins
  rwa [Block.stepsLeft_machineStep_eq_periodLength hpc hperiod, lowThenHigh_periodLength hperiod] at hpins

/-- Settles O40: what `PeriodBegins.comparedAt_firstPeriod` and `PeriodBegins.matchCount_firstPeriod` say of every length, for a length that is
not 0. -/
theorem counterIsComparedDownToOne : Obligations.CounterIsComparedDownToOne := by
  intro k n s hbegins hperiod hends M T
  have hcompared := (hbegins.comparedAt_firstPeriod n).2 hends
  have hmatches := hbegins.matchCount_firstPeriod hends
  rw [iterationsAfter_of_ne_zero hperiod, counterValues_of_lt (BitVec.isLt _)] at hcompared
  simp only [iterationsAfter_le_iff hperiod] at hmatches
  exact ⟨hcompared, hmatches⟩

theorem count_true_periodWave (M T : Nat) : (periodWave M T).count true = highSteps M T := by
  simp [periodWave, List.count_replicate]

/-- The number of HIGH steps of a period that has ended (R180). -/
theorem PeriodBegins.count_pinTrace {k n : Nat} {s : State} (h : PeriodBegins k s) (hperiod : (s.blockAt k).period ≠ 0)
    (hends : PeriodEnds (ownSteps k n s)) : (pinTrace (firstPeriod (ownSteps k n s))).count true =
      highSteps (s.blockAt k).period.toNat (s.blockAt k).nextThreshold.toNat := by
  rw [(periodWaveform k n s h hperiod).2 hends, count_true_periodWave]

/-- `hi(M, T) = T` up to `M` (R179, R185). -/
theorem hi_of_le {M T : Nat} (h : T ≤ M) : hi M T = T := by
  unfold hi
  split <;> omega

/-- Settles O42: the number of HIGH steps is twice the threshold, for thresholds up to the length. -/
theorem dutyIsStrictlyMonotone : Obligations.DutyIsStrictlyMonotone := by
  intro k₁ k₂ n₁ n₂ s₁ s₂ hbegins₁ hbegins₂ hperiod hsame hends₁ hends₂ hlt hle
  rw [hbegins₁.count_pinTrace hperiod hends₁, hbegins₂.count_pinTrace (by rwa [hsame]) hends₂, hsame, highSteps, highSteps,
    hi_of_le hle, hi_of_le (hlt.le.trans hle)]
  omega

/-! ### The count steps -/

/-- With how few count steps left of its period the pin is HIGH (R179). -/
def highCountsLeft (M T : Word) : Nat := if iterationsAfter T ≤ iterationsAfter M then iterationsAfter T + 1 else 0

theorem highCountsLeft_eq_hi {M T : Word} (hM : M ≠ 0) : highCountsLeft M T = hi M.toNat T.toNat := by
  have htwice : 2 * highCountsLeft M T = highLeft M T := by
    unfold highCountsLeft highLeft
    split <;> rfl
  rw [highLeft_eq_highSteps hM, highSteps] at htwice
  omega

theorem countLevels_cons (o : OwnStep) (own : List OwnStep) :
    countLevels (o :: own) = (if o.before.pc = 2 ∨ o.before.pc = 5 then [o.after.pin] else []) ++ countLevels own := by
  by_cases h : o.before.pc = 2 ∨ o.before.pc = 5 <;> simp [countLevels, h]

namespace Block

/-- How many count steps are left of the period. -/
def countStepsLeft (u : Block) : Nat :=
  match SeqState.ofPc u.pc with
  | .FETCH => 0
  | .LATCH => iterationsAfter u.period + 2
  | .RELOAD => iterationsAfter u.period + 2
  | .COMPARE => iterationsAfter u.y + 1
  | .SET_HIGH => iterationsAfter u.y + 1
  | .DECREMENT => iterationsAfter u.y + 1

theorem countStepsLeft_machineStep {u : Block} (h : u.pc ≠ 0) :
    u.countStepsLeft = u.machineStep.countStepsLeft + if u.pc = 2 ∨ u.pc = 5 then 1 else 0 := by
  obtain hpc | hpc | hpc | hpc | hpc | hpc := u.pc_cases
  · exact absurd hpc h
  · simp [u.machineStep_latch hpc, countStepsLeft, SeqState.ofPc, hpc]
  · simp [u.machineStep_reload hpc, countStepsLeft, SeqState.ofPc, hpc]
  · by_cases hxy : u.x = u.y <;> simp [u.machineStep_compare hpc, countStepsLeft, SeqState.ofPc, hpc, hxy]
  · simp [u.machineStep_setHigh hpc, countStepsLeft, SeqState.ofPc, hpc]
  · rw [u.machineStep_decrement hpc]
    by_cases hlast : u.y - 1 = 0
    · rw [if_pos hlast]
      simp [countStepsLeft, SeqState.ofPc, hpc, iterationsAfter_of_last hlast]
    · rw [if_neg hlast]
      simp [countStepsLeft, SeqState.ofPc, hpc, iterationsAfter_of_not_last hlast]

/-- The count step that ends at `RELOAD` leaves the pin LOW, and one that ends at `DECREMENT` leaves it HIGH from the match on (R178, R179). -/
theorem InPeriod.pin_machineStep_eq_decide {M T : Word} {u : Block} (h : u.InPeriod M T) (hends : u.pc = 2 ∨ u.pc = 5) :
    u.machineStep.pin = decide (u.machineStep.countStepsLeft < highCountsLeft M T) := by
  have hcount : u.countStepsLeft = u.machineStep.countStepsLeft + 1 := by
    rw [countStepsLeft_machineStep (by obtain hpc | hpc := hends <;> rw [hpc] <;> decide), if_pos hends]
  rw [Bool.eq_iff_iff, decide_eq_true_eq, highCountsLeft, u.machineStep_pin]
  obtain hpc | hpc := hends
  · obtain ⟨rfl, rfl, -, hpin⟩ := (inPeriod_iff_of_reload hpc).1 h
    have hnow : u.countStepsLeft = iterationsAfter u.period + 2 := by simp [countStepsLeft, SeqState.ofPc, hpc]
    simp only [hpc, Fin.reduceEq, if_false, hpin, Bool.false_eq_true, false_iff]
    split_ifs <;> omega
  · obtain ⟨rfl, rfl, -, hy, hpin⟩ := (inPeriod_iff_of_decrement hpc).1 h
    have hnow : u.countStepsLeft = iterationsAfter u.y + 1 := by simp [countStepsLeft, SeqState.ofPc, hpc]
    simp only [hpc, Fin.reduceEq, if_false, hpin]
    split_ifs <;> omega

theorem foretells_countLevels (M T : Word) :
    Foretells M T countLevels fun u => lowThenHigh (highCountsLeft M T) u.countStepsLeft where
  view_nil := rfl
  view_cons o own := by rw [countLevels_cons, countLevels_cons o []]; simp [countLevels]
  left_forgetQueue _ := rfl
  left_of_fetch u hpc := by simp [countStepsLeft, SeqState.ofPc, hpc, lowThenHigh_zero]
  left_machineStep u hu hpc := by
    rw [countStepsLeft_machineStep hpc, countLevels_cons]
    by_cases hends : u.pc = 2 ∨ u.pc = 5
    · rw [if_pos hends, if_pos hends, lowThenHigh_succ, hu.pin_machineStep_eq_decide hends]
      rfl
    · rw [if_neg hends, if_neg hends]
      rfl

end Block

/-- Settles O41: the count steps are foretold as the pin trace is, and the `FETCH` ends none. -/
theorem countStepLevels : Obligations.CountStepLevels := by
  intro k n s hbegins hperiod hends M T
  have hlevels := (hbegins.foretold (Block.foretells_countLevels _ _) n).2 hends
  obtain ⟨-, -, -, hpc, -⟩ := hbegins
  have hsteps : (s.blockAt k).machineStep.countStepsLeft = M + 1 := by
    rw [Block.machineStep_fetch _ hpc]
    exact congrArg (· + 1) (iterationsAfter_of_ne_zero hperiod)
  have hfetch : countLevels [⟨s.blockAt k, (s.blockAt k).machineStep⟩] = [] := by simp [countLevels, hpc]
  rw [hlevels, hfetch, List.nil_append, hsteps, highCountsLeft_eq_hi hperiod,
    lowThenHigh_of_le ((hi_le M T).trans (Nat.le_succ M))]

end Sys2Proof.Machine
end

section
/-! PROOFS. The waveform across periods (spec/43_output_waveform.md R181, R186, R188): the pin trace is the waves of the thresholds one after
the other, and the thresholds are drawn in order from what the host requests. -/

namespace Sys2Proof.Machine

/-! ### The waves one after the other -/

/-- The waves of the thresholds that `own` shows, one after the other, and the LOW of the `FETCH` that begins the period after the last (R188). -/
def wavesOf (M : Word) (own : List OwnStep) : List Bool :=
  (thresholds own).flatMap (fun T => periodWave M.toNat T.toNat) ++ [false]

theorem thresholds_cons_of_latch {o : OwnStep} (own : List OwnStep) (h : o.before.pc = 1) :
    thresholds (o :: own) = o.after.x :: thresholds own := by
  simp [thresholds, h]

theorem thresholds_cons_of_not_latch {o : OwnStep} (own : List OwnStep) (h : o.before.pc ≠ 1) :
    thresholds (o :: own) = thresholds own := by
  simp [thresholds, h]

theorem wavesOf_cons_of_latch {o : OwnStep} (M : Word) (own : List OwnStep) (h : o.before.pc = 1) :
    wavesOf M (o :: own) = periodWave M.toNat o.after.x.toNat ++ wavesOf M own := by
  rw [wavesOf, thresholds_cons_of_latch own h, List.flatMap_cons, List.append_assoc, wavesOf]

theorem wavesOf_cons_of_not_latch {o : OwnStep} (M : Word) (own : List OwnStep) (h : o.before.pc ≠ 1) :
    wavesOf M (o :: own) = wavesOf M own := by
  rw [wavesOf, thresholds_cons_of_not_latch own h, wavesOf]

namespace Block

variable {M T : Word} {u : Block}

/-- The instance has the period length `M` and, between one `FETCH` and the next, is in a period with the threshold `T`. -/
def InWave (M T : Word) (u : Block) : Prop := u.period = M ∧ (u.pc ≠ 0 → u.InPeriod M T)

/-- What the pin has shown of a period whose threshold has not been latched yet. -/
def shownBeforeLatch (u : Block) : List Bool := if u.pc = 1 then [false] else []

/-- What the pin has yet to show of a period whose threshold has been latched. -/
def waveLeft (M T : Word) (u : Block) : List Bool := if u.pc = 1 then [] else lowThenHigh (highLeft M T) u.stepsLeft

theorem InWave.of_forgetQueue_eq {v : Block} (h : u.InWave M T) (hsame : v.forgetQueue = u.forgetQueue) : v.InWave M T := by
  have hforget (w : Block) : w.forgetQueue.InWave M T ↔ w.InWave M T := Iff.rfl
  rwa [← hforget v, hsame, hforget u]

theorem shownBeforeLatch_of_forgetQueue_eq {v : Block} (hsame : v.forgetQueue = u.forgetQueue) :
    v.shownBeforeLatch = u.shownBeforeLatch := by
  rw [shownBeforeLatch, pc_of_forgetQueue_eq hsame, shownBeforeLatch]

theorem waveLeft_of_forgetQueue_eq {v : Block} (hsame : v.forgetQueue = u.forgetQueue) : v.waveLeft M T = u.waveLeft M T := by
  rw [waveLeft, pc_of_forgetQueue_eq hsame, stepsLeft_of_forgetQueue_eq hsame, waveLeft]

theorem waveLeft_of_fetch (h : u.pc = 0) : u.waveLeft M T = [] := by
  rw [waveLeft, if_neg (by rw [h]; decide), stepsLeft_of_fetch h, lowThenHigh_zero]

/-- Only `FETCH` leads to `LATCH` (R124). -/
theorem machineStep_pc_ne_one (h : u.pc ≠ 0) : u.machineStep.pc ≠ 1 := by
  obtain hpc | hpc | hpc | hpc | hpc | hpc := u.pc_cases
  · exact absurd hpc h
  · simp [u.machineStep_latch hpc]
  · simp [u.machineStep_reload hpc]
  · rw [u.machineStep_compare hpc]
    dsimp only
    split <;> decide
  · simp [u.machineStep_setHigh hpc]
  · rw [u.machineStep_decrement hpc]
    dsimp only
    split <;> decide

/-- After the `FETCH` the level of each step is the next one of the wave. -/
theorem InPeriod.lowThenHigh_stepsLeft (h : u.InPeriod M T) (hpc : u.pc ≠ 0) : lowThenHigh (highLeft M T) u.stepsLeft =
    u.machineStep.pin :: lowThenHigh (highLeft M T) u.machineStep.stepsLeft :=
  (foretells_pinTrace M T).left_machineStep u h hpc

/-- The wave of a period is the LOW of its `FETCH` and what is left of it at its `LATCH`. -/
theorem InPeriod.periodWave_eq_of_latch (h : u.InPeriod M T) (hM : M ≠ 0) (hpc : u.pc = 1) :
    periodWave M.toNat T.toNat = false :: lowThenHigh (highLeft M T) u.stepsLeft := by
  obtain ⟨rfl, rfl, hpin⟩ := (inPeriod_iff_of_latch hpc).1 h
  have hlength : u.stepsLeft + 1 = periodLength u.period.toNat u.scr.toNat := by
    have hM' : iterationsAfter u.period + 1 = u.period.toNat := iterationsAfter_of_ne_zero hM
    rw [stepsLeft_of_latch hpc, periodLength]
    simp only [iterationsAfter_le_iff hM]
    split <;> omega
  rw [← lowThenHigh_periodLength hM, ← hlength, lowThenHigh_succ, ← h.pin_eq_decide, hpin]

/-- The steps of a period keep its threshold, and a `FETCH` begins the next period with its own. -/
theorem InWave.machineStep (h : u.InWave M T) : u.machineStep.InWave M (if u.pc = 0 then u.nextThreshold else T) := by
  obtain ⟨rfl, hperiod⟩ := h
  refine ⟨u.machineStep_period, fun _ => ?_⟩
  split
  · next hpc => exact inPeriod_machineStep_of_fetch hpc
  · next hpc => exact ((hperiod hpc).machineStep hpc).1

/-- A step adds its level to what the pin has shown and takes it from the waves that it has to show. -/
theorem InWave.shown_cons {own : List OwnStep} {shown : List Bool} (h : u.InWave M T) (hM : M ≠ 0)
    (hrest : u.machineStep.shownBeforeLatch ++ shown <+:
      u.machineStep.waveLeft M (if u.pc = 0 then u.nextThreshold else T) ++ wavesOf M own) :
    u.shownBeforeLatch ++ u.machineStep.pin :: shown <+: u.waveLeft M T ++ wavesOf M (⟨u, u.machineStep⟩ :: own) := by
  obtain ⟨-, hperiod⟩ := h
  by_cases hfetch : u.pc = 0
  · have hlatch : u.machineStep.pc = 1 := by rw [u.machineStep_fetch hfetch]
    have hnot : u.pc ≠ 1 := by rw [hfetch]; decide
    rw [wavesOf_cons_of_not_latch M own hnot, waveLeft_of_fetch hfetch, shownBeforeLatch, if_neg hnot, u.machineStep_pin, if_pos hfetch]
    rwa [shownBeforeLatch, if_pos hlatch, waveLeft, if_pos hlatch] at hrest
  · have hin : u.InPeriod M T := hperiod hfetch
    have hnext : u.machineStep.pc ≠ 1 := machineStep_pc_ne_one hfetch
    rw [shownBeforeLatch, if_neg hnext, List.nil_append, waveLeft, if_neg hnext, if_neg hfetch] at hrest
    by_cases hlatch : u.pc = 1
    · have hx : u.machineStep.x = T := by
        obtain ⟨-, hscr, -⟩ := hin
        rw [u.machineStep_x, if_pos hlatch, hscr]
      rw [wavesOf_cons_of_latch M own hlatch, hx, hin.periodWave_eq_of_latch hM hlatch, hin.lowThenHigh_stepsLeft hfetch,
        shownBeforeLatch, if_pos hlatch, waveLeft, if_pos hlatch]
      simpa using hrest
    · rw [wavesOf_cons_of_not_latch M own hlatch, shownBeforeLatch, if_neg hlatch, waveLeft, if_neg hlatch,
        hin.lowThenHigh_stepsLeft hfetch]
      simpa using hrest

end Block

/-- What the pin has shown, before `own` and in it, is the beginning of the waves that it has to show. -/
theorem OwnRun.pinTrace_prefix {M T : Word} {u : Block} {own : List OwnStep} (h : OwnRun u own) (hM : M ≠ 0) (hu : u.InWave M T) :
    u.shownBeforeLatch ++ pinTrace own <+: u.waveLeft M T ++ wavesOf M own := by
  induction h generalizing T with
  | nil u =>
    by_cases hlatch : u.pc = 1
    · simp [Block.shownBeforeLatch, Block.waveLeft, hlatch, pinTrace, wavesOf, thresholds]
    · simp [Block.shownBeforeLatch, hlatch, pinTrace]
  | @cons u v own hqueue _ ih =>
    have hv : v.InWave M T := hu.of_forgetQueue_eq hqueue
    rw [← Block.shownBeforeLatch_of_forgetQueue_eq hqueue, ← Block.waveLeft_of_forgetQueue_eq hqueue]
    exact hv.shown_cons hM (ih hv.machineStep)

/-- From the beginning of a period on, the pin shows the waves of the thresholds one after the other (R188). -/
theorem PeriodBegins.pinTrace_prefix {k : Nat} {s : State} (h : PeriodBegins k s) (n : Nat) (hperiod : (s.blockAt k).period ≠ 0) :
    pinTrace (ownSteps k n s) <+: wavesOf (s.blockAt k).period (ownSteps k n s) := by
  obtain ⟨hk, hprog, hrun, hpc, -⟩ := h
  have hwave : (s.blockAt k).InWave (s.blockAt k).period 0 := ⟨rfl, fun hne => absurd hpc hne⟩
  have hprefix := (ownRun_ownSteps (n := n) hk hprog hrun).pinTrace_prefix hperiod hwave
  rwa [Block.waveLeft_of_fetch hpc, Block.shownBeforeLatch, if_neg (by rw [hpc]; decide)] at hprefix

/-! ### The off sentinel -/

theorem hi_of_lt {M T : Nat} (h : M < T) : hi M T = 0 := by
  unfold hi
  split <;> omega

/-- The wave of a threshold above the length is LOW (R179). -/
theorem eq_false_of_mem_periodWave {M T : Nat} (h : M < T) {level : Bool} (hlevel : level ∈ periodWave M T) : level = false := by
  obtain hlow | hhigh := List.mem_append.mp hlevel
  · exact List.eq_of_mem_replicate hlow
  · simp [highSteps, hi_of_lt h] at hhigh

theorem OwnRun.after_eq {u : Block} {own : List OwnStep} (h : OwnRun u own) {o : OwnStep} (ho : o ∈ own) :
    o.after = o.before.machineStep := by
  induction h with
  | nil u => cases ho
  | cons hqueue _ ih =>
    obtain rfl | ho := List.mem_cons.mp ho
    · rfl
    · exact ih ho

/-- A match drives the pin HIGH in the step that follows the compare, so a pin that stays LOW has seen none. -/
theorem OwnRun.matchCount_eq_zero {u : Block} {own : List OwnStep} (h : OwnRun u own) (hlow : ∀ level ∈ pinTrace own, level = false) :
    matchCount own = 0 := by
  rw [matchCount, List.countP_eq_zero]
  intro o ho hset
  have hset' : o.before.pc = 4 := of_decide_eq_true hset
  have hhigh : o.after.pin = true := by rw [h.after_eq ho, Block.machineStep_pin, hset']; rfl
  exact absurd (hlow _ (List.mem_map_of_mem ho)) (by rw [hhigh]; decide)

/-- Settles O43: the pin trace is in the waves of the thresholds, all of which are the off sentinel, above the length of the period. -/
theorem offSentinelStaysLow : Obligations.OffSentinelStaysLow := by
  intro k n s hbegins hone hmax hoff
  have hperiod : (s.blockAt k).period ≠ 0 := by
    intro hzero
    rw [hzero] at hone
    exact absurd hone (by decide)
  have hprefix := hbegins.pinTrace_prefix n hperiod
  have hlow (level : Bool) (hlevel : level ∈ pinTrace (ownSteps k n s)) : level = false := by
    obtain hwave | hfetch := List.mem_append.mp (hprefix.subset hlevel)
    · obtain ⟨T, hT, hin⟩ := List.mem_flatMap.mp hwave
      rw [hoff T hT, BitVec.toNat_ofNat] at hin
      exact eq_false_of_mem_periodWave (by omega) hin
    · exact List.mem_singleton.mp hfetch
  obtain ⟨hk, hprog, hrun, -⟩ := hbegins
  exact ⟨hlow, (ownRun_ownSteps hk hprog hrun).matchCount_eq_zero hlow⟩

/-! ### Values drawn in order -/

/-- `seen` holds some of the values of the first list, in their order, each possibly repeated (R188). -/
inductive DrawnInOrder : List Word → List Word → Prop
  | nil (values : List Word) : DrawnInOrder values []
  | again {a : Word} {values seen : List Word} : DrawnInOrder (a :: values) seen → DrawnInOrder (a :: values) (a :: seen)
  | skip {a : Word} {values seen : List Word} : DrawnInOrder values seen → DrawnInOrder (a :: values) seen

namespace DrawnInOrder

variable {values values' seen : List Word}

theorem exists_indices (h : DrawnInOrder values seen) :
    ∃ idx : List Nat, idx.Pairwise (· ≤ ·) ∧ seen.map some = idx.map fun i => values[i]? := by
  induction h with
  | nil values => exact ⟨[], .nil, rfl⟩
  | again _ ih =>
    obtain ⟨idx, hsorted, hidx⟩ := ih
    exact ⟨0 :: idx, .cons (fun _ _ => Nat.zero_le _) hsorted, by rw [List.map_cons, hidx]; rfl⟩
  | skip _ ih =>
    obtain ⟨idx, hsorted, hidx⟩ := ih
    refine ⟨idx.map (· + 1), hsorted.map _ fun a b hab => Nat.succ_le_succ hab, ?_⟩
    rw [hidx, List.map_map]
    rfl

theorem of_sublist (h : DrawnInOrder values seen) (hsub : values.Sublist values') : DrawnInOrder values' seen := by
  induction hsub generalizing seen with
  | slnil => exact h
  | cons a _ ih => exact (ih h).skip
  | @cons_cons _ _ a _ ih =>
    generalize hvalues : a :: _ = values at h
    induction h with
    | nil values => exact .nil _
    | again _ ih' => cases hvalues; exact (ih' rfl).again
    | skip hrest _ => cases hvalues; exact (ih hrest).skip

end DrawnInOrder

/-! ### The thresholds that an instance foresees -/

namespace Block

variable {u : Block}

/-- From its `RELOAD` on a period has its threshold in `X` and in `SCR`. -/
def Latched (u : Block) : Prop := u.pc ≠ 0 → u.pc ≠ 1 → u.x = u.scr

/-- The thresholds that an instance is about to use: the one it has fetched, then the one pending, if there is one; at `FETCH` the one it takes. -/
def foreseen (u : Block) : List Word := if u.pc = 0 then [u.nextThreshold] else u.scr :: u.pending.toList

theorem foreseen_of_fetch (h : u.pc = 0) : u.foreseen = [u.nextThreshold] := if_pos h

theorem foreseen_of_ne (h : u.pc ≠ 0) : u.foreseen = u.scr :: u.pending.toList := if_neg h

theorem Latched.machineStep (h : u.Latched) : u.machineStep.Latched := by
  intro _ hlatch
  have hfetch : u.pc ≠ 0 := fun hfetch => hlatch (by rw [u.machineStep_fetch hfetch])
  rw [u.machineStep_x, u.machineStep_scr, if_neg hfetch]
  split
  · rfl
  · next hpc => exact h hfetch hpc

/-- A step of the sequencer foresees no new threshold; when the period ends, a pending value takes the place of its threshold. -/
theorem Latched.foreseen_machineStep (h : u.Latched) : u.machineStep.foreseen.Sublist u.foreseen := by
  by_cases hfetch : u.pc = 0
  · rw [u.machineStep_fetch hfetch, foreseen_of_fetch hfetch, foreseen_of_ne (by exact one_ne_zero)]
    exact .refl _
  · have hpending : u.machineStep.pending = u.pending := by
      rw [pending, machineStep_tqValid hfetch, machineStep_tqData, pending]
    have hscr : u.machineStep.scr = u.scr := by rw [u.machineStep_scr, if_neg hfetch]
    rw [foreseen_of_ne hfetch]
    by_cases hend : u.machineStep.pc = 0
    · have hx : u.machineStep.x = u.scr := by
        rw [u.machineStep_x]
        split
        · rfl
        · next hlatch => exact h hfetch hlatch
      rw [foreseen_of_fetch hend, nextThreshold, hx, machineStep_tqValid hfetch, machineStep_tqData, pending]
      split <;> simp
    · rw [foreseen_of_ne hend, hpending, hscr]

theorem foreseen_enqueued (u : Block) (v : Word) :
    ({ u with tqData := v, tqValid := true, touched := true } : Block).foreseen.Sublist (u.foreseen ++ [v]) := by
  by_cases hfetch : u.pc = 0
  · rw [foreseen_of_fetch hfetch, foreseen_of_fetch (u := { u with tqData := v, tqValid := true, touched := true }) hfetch]
    exact .cons _ (.refl _)
  · rw [foreseen_of_ne hfetch, foreseen_of_ne (u := { u with tqData := v, tqValid := true, touched := true }) hfetch]
    exact .cons_cons _ (List.sublist_append_right _ _)

end Block

/-! ### One context that calls `set_duty` -/

theorem step_ops_subset {s t : State} (h : step s = .next t) (i : Nat) : (t.contextAt i).ops ⊆ (s.contextAt i).ops := by
  obtain ⟨m, -, hturn⟩ | ⟨j, -, hturn⟩ := step_cases s t h
  · rw [seqTurn_contextAt hturn, turnUsed_contextAt]
    exact List.Subset.refl _
  · by_cases hi : i = j
    · subst hi
      exact hostTurn_ops_subset (s := s.turnUsed) hturn
    · rw [(Updates.of_hostTurn hturn).contextAt_ne hi, turnUsed_contextAt]
      exact List.Subset.refl _

/-- Context `j` goes on to call `set_duty` on the controller `c` of instance `k` with `requests`, and nothing else reaches the instance. -/
structure Requested (k j : Nat) (c : Controller) (requests : List Int) (s : State) : Prop where
  reached : ReachedThroughController k s
  controllerAt_eq : s.controllerAt k = some c
  call_eq : (s.contextAt j).call = none
  ops_eq : (s.contextAt j).ops = requests.map (HostOp.setDuty k)
  others : ∀ i, i ≠ j → ∀ v, HostOp.setDuty k v ∉ (s.contextAt i).ops

namespace Requested

variable {k j : Nat} {c : Controller} {requests rest : List Int} {s t : State}

theorem next (h : Requested k j c requests s) (hstep : step s = .next t) (hcall : (t.contextAt j).call = none)
    (hops : (t.contextAt j).ops = rest.map (HostOp.setDuty k)) : Requested k j c rest t where
  reached := h.reached.next hstep
  controllerAt_eq := (h.reached.step_controllerAt hstep).trans h.controllerAt_eq
  call_eq := hcall
  ops_eq := hops
  others i hi v hv := h.others i hi v (step_ops_subset hstep i hv)

theorem next_of_contextAt_eq (h : Requested k j c requests s) (hstep : step s = .next t) (hcontext : t.contextAt j = s.contextAt j) :
    Requested k j c requests t :=
  h.next hstep (by rw [hcontext, h.call_eq]) (by rw [hcontext, h.ops_eq])

/-- The turn of the context that calls `set_duty`. -/
theorem setDutyTurn_of_hostTurn {v : Int} (h : Requested k j c (v :: rest) s) (hturn : hostTurn j s = .next t) :
    SetDutyTurn j k v c (rest.map (HostOp.setDuty k)) s t := by
  have hhandle : c.sequencerHandle = k := h.reached.handlesOk k c h.controllerAt_eq
  have hexec := (hostTurn_of_op h.call_eq h.ops_eq).symm.trans hturn
  rw [hostOp, setDutyTurn_of_controller v ((onContext_controllerAt s j _ k).trans h.controllerAt_eq), hhandle] at hexec
  exact .of_commanded h.ops_eq h.controllerAt_eq (exec_addressed _ _ _ _ hexec)

theorem turnUsed (h : Requested k j c requests s) : Requested k j c requests s.turnUsed :=
  ⟨h.reached.turnUsed, h.controllerAt_eq, h.call_eq, h.ops_eq, h.others⟩

/-- What a step does to the instance and to the requests: its sequencer takes a step, or nothing happens to them, or the next request is enqueued. -/
theorem step_cases (h : Requested k j c requests s) (hstep : step s = .next t) :
    (s.turnOf = .seq k ∧ Requested k j c requests t ∧ t.blockAt k = (s.blockAt k).machineStep) ∨
    s.turnOf ≠ .seq k ∧ (Requested k j c requests t ∧ t.blockAt k = s.blockAt k ∨
      ∃ v rest, requests = v :: rest ∧ Requested k j c rest t ∧ t.blockAt k =
        { s.blockAt k with tqData := encW (clamp v c.maxCount), tqValid := true, touched := true }) := by
  obtain ⟨m, hm, hturn⟩ | ⟨i, hi, hturn⟩ := Machine.step_cases s t hstep
  · have hnext : Requested k j c requests t := h.next_of_contextAt_eq hstep (seqTurn_contextAt hturn j)
    by_cases hk : k = m
    · subst hk
      exact .inl ⟨hm, hnext, turn_blockAt_own (s := s.turnUsed) h.reached.prog_eq (seqTurn_cases _ _ _ hturn).1 h.reached.running hturn⟩
    · obtain ⟨-, -, -, hne⟩ := seqTurn_frame hturn
      exact .inr ⟨by rw [hm]; exact fun heq => hk (Agent.seq.inj heq).symm, .inl ⟨hnext, hne k hk⟩⟩
  · refine .inr ⟨by rw [hi]; exact Agent.noConfusion, ?_⟩
    by_cases hij : i = j
    · subst hij
      cases requests with
      | nil =>
        rw [hostTurn_of_idle h.turnUsed.call_eq h.turnUsed.ops_eq] at hturn
        obtain rfl : s.turnUsed = t := Host.Outcome.next.inj hturn
        exact .inl ⟨h.turnUsed, rfl⟩
      | cons v rest =>
        have hduty := h.turnUsed.setDutyTurn_of_hostTurn hturn
        have hcontext := hduty.contextAt_eq
        exact .inr ⟨v, rest, rfl, h.next hstep (by rw [hcontext]; exact h.call_eq) (by rw [hcontext]), hduty.blockAt_eq⟩
    · refine .inl ⟨h.next_of_contextAt_eq hstep ((Updates.of_hostTurn hturn).contextAt_ne (Ne.symm hij)), ?_⟩
      obtain heq | ⟨v, d, ops, hduty⟩ := hostTurn_throughController h.reached.turnUsed hturn
      · exact heq
      · exact absurd (by rw [hduty.ops_eq]; exact List.mem_cons_self) (h.turnUsed.others i hij v)

/-- The thresholds are drawn in order from what the instance foresees and the requests that are left, clamped and encoded (R186, R188). -/
theorem drawnInOrder (h : Requested k j c requests s) (hlatched : (s.blockAt k).Latched) (n : Nat) :
    DrawnInOrder ((s.blockAt k).foreseen ++ requests.map fun v => encW (clamp v c.maxCount)) (thresholds (ownSteps k n s)) := by
  induction n generalizing s requests with
  | zero => exact .nil _
  | succ n ih =>
    cases hstep : step s with
    | fault f => exact absurd hstep (noStepFaults s f)
    | refused r => rw [ownSteps_of_refused hstep]; exact .nil _
    | next t =>
      obtain ⟨hturn, hnext, hblock⟩ | ⟨hturn, ⟨hnext, hblock⟩ | ⟨v, rest, rfl, hnext, hblock⟩⟩ := h.step_cases hstep
      · have hdrawn := (ih hnext (by rw [hblock]; exact hlatched.machineStep)).of_sublist
          ((hblock ▸ hlatched.foreseen_machineStep).append_right _)
        rw [ownSteps_of_own hstep hturn h.reached.running]
        by_cases hlatch : (s.blockAt k).pc = 1
        · have hx : (t.blockAt k).x = (s.blockAt k).scr := by rw [hblock, Block.machineStep_x, if_pos hlatch]
          rw [thresholds_cons_of_latch _ hlatch, hx]
          rw [Block.foreseen_of_ne (by rw [hlatch]; decide), List.cons_append] at hdrawn ⊢
          exact hdrawn.again
        · rwa [thresholds_cons_of_not_latch _ hlatch]
      · rw [ownSteps_of_other hstep hturn, ← hblock]
        exact ih hnext (by rwa [hblock])
      · rw [ownSteps_of_other hstep hturn, List.map_cons, List.append_cons]
        refine (ih hnext (by rw [hblock]; exact hlatched)).of_sublist (.append_right ?_ _)
        rw [hblock]
        exact Block.foreseen_enqueued _ _

end Requested

/-- Settles O45: the waves by `PeriodBegins.pinTrace_prefix`; and at the beginning of a period the instance foresees its next threshold alone. -/
theorem thresholdSequence : Obligations.ThresholdSequence := by
  intro k n s hbegins hperiod
  refine ⟨hbegins.pinTrace_prefix n hperiod, fun j c requests hc hhandles hthrough hcall hops hothers => ?_⟩
  obtain ⟨-, hprog, hrun, hpc, -⟩ := hbegins
  have hrequested : Requested k j c requests s := ⟨⟨hprog, hrun, hthrough, hhandles⟩, hc, hcall, hops, hothers⟩
  have hdrawn := hrequested.drawnInOrder (fun hne => absurd hpc hne) n
  rw [Block.foreseen_of_fetch hpc, List.singleton_append] at hdrawn
  exact hdrawn.exists_indices

end Sys2Proof.Machine
end

section
/-! PROOFS. What a `set_duty` shows in the next period (R183): the duty figures of a period, each read off what the period shows. -/

namespace Sys2Proof.Machine

/-! ### The duty figures of a period -/

namespace PeriodBegins

variable {k n : Nat} {s : State} (h : PeriodBegins k s) (hperiod : (s.blockAt k).period ≠ 0) (hends : PeriodEnds (ownSteps k n s))
include h hperiod hends

theorem length_pinTrace : (pinTrace (firstPeriod (ownSteps k n s))).length =
    periodLength (s.blockAt k).period.toNat (s.blockAt k).nextThreshold.toNat := by
  rw [(periodWaveform k n s h hperiod).2 hends, periodWave, List.length_append, List.length_replicate, List.length_replicate,
    Nat.sub_add_cancel (highSteps_le_periodLength _ _)]

theorem count_countLevels : (countLevels (firstPeriod (ownSteps k n s))).count true =
    hi (s.blockAt k).period.toNat (s.blockAt k).nextThreshold.toNat := by
  rw [countStepLevels k n s h hperiod hends, List.count_append, List.count_replicate_self, List.count_replicate]
  exact Nat.zero_add _

theorem length_countLevels : (countLevels (firstPeriod (ownSteps k n s))).length = (s.blockAt k).period.toNat + 1 := by
  have hle := hi_le (s.blockAt k).period.toNat (s.blockAt k).nextThreshold.toNat
  rw [countStepLevels k n s h hperiod hends, List.length_append, List.length_replicate, List.length_replicate]
  omega

/-- The duty counted in count steps is what the period shows. -/
theorem countStepDuty_eq : ((countLevels (firstPeriod (ownSteps k n s))).count true : Rat) /
      (countLevels (firstPeriod (ownSteps k n s))).length =
    countStepDuty (s.blockAt k).period.toNat (s.blockAt k).nextThreshold.toNat := by
  rw [h.count_countLevels hperiod hends, h.length_countLevels hperiod hends, Nat.cast_succ, countStepDuty]

/-- The duty counted in instruction steps is what the pin shows. -/
theorem stepDuty_eq : ((pinTrace (firstPeriod (ownSteps k n s))).count true : Rat) /
      (pinTrace (firstPeriod (ownSteps k n s))).length =
    stepDuty (s.blockAt k).period.toNat (s.blockAt k).nextThreshold.toNat := by
  rw [h.count_pinTrace hperiod hends, h.length_pinTrace hperiod hends, stepDuty]

end PeriodBegins

/-- Up to the length of the period the threshold is the number of HIGH count steps; a threshold of 0 has none, whatever the length (R183). -/
theorem stepDuty_of_le {M T : Nat} (h : T ≤ M) : stepDuty M T = 2 * T / (2 * M + 4) := by
  rw [stepDuty, highSteps, hi_of_le h, periodLength]
  split
  · push_cast
    rfl
  · obtain rfl : T = 0 := by omega
    simp

/-! ### A request just before a period -/

/-- A request of 0 or more is delivered as it is clamped (R183). -/
theorem toNat_encW_clamp {v : Int} {M : Nat} (hM : M ≤ 2 ^ 32 - 2) (h : 0 ≤ clamp v M) : (encW (clamp v M)).toNat = (clamp v M).toNat := by
  have hle : clamp v M ≤ M := clamp_le v (Int.natCast_nonneg M)
  rw [toNat_encW]
  omega

/-- Every request has as many HIGH count steps as it is clamped to; the off sentinel has none (R181, R183). -/
theorem hi_encW_clamp (v : Int) {M : Nat} (hM : M ≤ 2 ^ 32 - 2) : hi M (encW (clamp v M)).toNat = (clamp v M).toNat := by
  have hlow : -1 ≤ clamp v M := neg_one_le_clamp v M
  have hhigh : clamp v M ≤ M := clamp_le v (Int.natCast_nonneg M)
  by_cases hoff : clamp v M = -1
  · have hsentinel : (encW (-1)).toNat = 2 ^ 32 - 1 := rfl
    rw [hoff, hsentinel, hi_of_lt (by omega)]
    rfl
  · rw [toNat_encW_clamp hM (by omega), hi_of_le (by omega)]

/-- `set_duty` for an instance that stands at `FETCH`, before its turn: the period that begins then has the clamped request for its threshold. -/
theorem step_setDuty_periodBegins {s : State} {j k : Nat} {v : Int} {c : Controller} {ops : List HostOp} {rest : List Agent}
    (hschedule : s.schedule = .host j :: .seq k :: rest) (hcall : (s.contextAt j).call = none)
    (hops : (s.contextAt j).ops = .setDuty k v :: ops) (hk : k < Config.nSeq) (hprog : s.prog = [])
    (hrun : (s.blockAt k).run = true) (hpc : (s.blockAt k).pc = 0) (hc : s.controllerAt k = some c) (hhandle : c.sequencerHandle = k) :
    ∃ t, step s = .next t ∧ PeriodBegins k t ∧ (t.blockAt k).period = (s.blockAt k).period ∧
      (t.blockAt k).nextThreshold = encW (clamp v c.maxCount) := by
  obtain ⟨t, hstep, hblock, hsel, -, -, -, -, -, hrest⟩ := setDutyEnqueuesClampedRequest s j k v c ops _ hschedule hcall hops hc
  have hsel' : t.sel = k := hsel.trans hhandle
  rw [State.block, hsel', hhandle] at hblock
  refine ⟨t, hstep, ⟨hk, (step_prog hstep).trans hprog, step_run hstep hrun, ?_, turnOf_cons t _ rest hrest⟩, ?_, ?_⟩
  · rw [hblock]
    exact hpc
  · rw [hblock]
  · rw [hblock]
    rfl

/-- Settles O50: the wave of the period whose threshold is the clamped request, and the three figures of R183. -/
theorem setDutyShowsInNextPeriod : Obligations.SetDutyShowsInNextPeriod := by
  intro s j k v c ops rest hschedule hcall hops hk hprog hrun hpc hc hhandle hone hmax hperiod
  obtain ⟨t, hstep, hbegins, hperiod', hthreshold⟩ :=
    step_setDuty_periodBegins hschedule hcall hops hk hprog hrun hpc hc hhandle
  have hM : (t.blockAt k).period.toNat = c.maxCount := by
    rw [hperiod', hperiod, BitVec.toNat_ofNat]
    exact Nat.mod_eq_of_lt (by omega)
  have hne : (t.blockAt k).period ≠ 0 := by
    intro hzero
    rw [hzero] at hM
    exact absurd hone (by rw [← hM]; decide)
  refine ⟨t, hstep, hbegins, ?_⟩
  intro n hends M T period
  refine ⟨?_, fun hlow hhigh => ?_⟩
  · rw [hbegins.count_pinTrace hne hends, hM, highSteps, hthreshold, hi_encW_clamp v hmax]
  · have hclamp : clamp v M = v := clamp_of_mem (by omega) hhigh
    have hT : T = v.toNat := by
      have hdelivered := toNat_encW_clamp (v := v) hmax (by rw [hclamp]; exact hlow)
      rwa [← hthreshold, hclamp] at hdelivered
    have hv : (T : Int) = v := by omega
    have hle : T ≤ M := by omega
    have hvRat : (v : Rat) = T := by rw [← hv, Int.cast_natCast]
    have hcountSteps := hbegins.countStepDuty_eq hne hends
    have hsteps := hbegins.stepDuty_eq hne hends
    rw [hM] at hcountSteps hsteps
    rw [hvRat, duty, hi_of_le hle]
    exact ⟨hv, hv, rfl, by rw [countStepDuty, hi_of_le hle], hcountSteps, stepDuty_of_le hle, hsteps⟩

end Sys2Proof.Machine
end

section
/-! PROOFS. Noninterference between instances (spec/60_exceptions.md R216), and the three configuration errors of `initialize` in the order of
their checks (R201 to R208). -/

namespace Sys2Proof.Machine

/-! ### The instance a step acts on -/

theorem Commanded.sel_eq {i : Instr} {k : Nat} {s t : State} (h : Commanded i k s t) : t.sel = k := by
  obtain ⟨v, -, rfl⟩ := h
  rw [setBlock_sel, addressed_sel]

theorem Bound.sel_eq {N P j : Nat} {a : InitArgs} {s t : State} (h : Bound N P j a s t) : t.sel = a.sequencerId.toNat := by
  obtain ⟨-, -, -, -, -, -, -, -, -, rfl⟩ := h
  rw [setBlock_sel, addressed_sel]

theorem Commanded.blockAt_of_ne_sel {i : Instr} {k m : Nat} {s t : State} (h : Commanded i k s t) (hm : m ≠ t.sel) :
    t.blockAt m = s.blockAt m :=
  h.blockAt_ne (h.sel_eq ▸ hm)

theorem seqTurn_blockAt_of_ne_sel {k m : Nat} {s t : State} (h : seqTurn k s = .next t) (hm : m ≠ t.sel) :
    t.blockAt m = s.blockAt m := by
  obtain ⟨-, -, -, hne⟩ := seqTurn_frame h
  exact hne m (seqTurn_sel h ▸ hm)

/-- The host writes to an instance through a command or through the binding of `initialize`; both select it. -/
theorem hostTurn_blockAt_of_ne_sel {j m : Nat} {s t : State} (h : hostTurn j s = .next t) (hm : m ≠ t.sel) :
    t.blockAt m = s.blockAt m := by
  obtain ⟨-, -, rfl⟩ | ⟨c, i, st, -, -, hcom⟩ | ⟨c, -, -, rfl⟩ | ⟨op, ops, s', -, -, rfl, hop⟩ := hostTurn_cases j s t h
  · rfl
  · exact hcom.blockAt_of_ne_sel hm
  · rfl
  · obtain ⟨k, w, i, -, -, -, hcom⟩ | ⟨k, v, c, -, -, hcom⟩ | ⟨a, -, ⟨r, rfl⟩ | hbound⟩ := hop
    · exact hcom.blockAt_of_ne_sel hm
    · exact hcom.blockAt_of_ne_sel hm
    · rfl
    · exact (hbound.blockAt_eq m).trans (if_neg (hbound.sel_eq ▸ hm))

/-- Settles O26: whichever agent has the turn, the instance it writes to is the one selected. -/
theorem stepTouchesOneInstance : Obligations.StepTouchesOneInstance := by
  intro s t k h hk
  obtain ⟨m, -, hturn⟩ | ⟨j, -, hturn⟩ := step_cases s t h
  · exact seqTurn_blockAt_of_ne_sel (s := s.turnUsed) hturn hk
  · exact hostTurn_blockAt_of_ne_sel (s := s.turnUsed) hturn hk

/-! ### What a sequencer reads -/

theorem romRead_congr {s₁ s₂ : State} (h : s₁.prog = s₂.prog) (a : Nat) : s₁.romRead a = s₂.romRead a := by
  rw [State.romRead, State.romRead, h]

/-- The turn of a running sequencer whose instruction is not refused. -/
theorem seqTurn_of_effect {s : State} {k : Nat} {w : Byte} {i : Instr} {v : Block} (hk : k < Config.nSeq)
    (hrun : (s.blockAt k).run = true) (hread : s.romRead (s.blockAt k).pc.val = .ok w) (hi : decodeMicro w = .ok i)
    (heffect : effect i (s.blockAt k) = .ok v) : seqTurn k s = .next ((s.select k).setBlock k v) := by
  rw [seqTurn_of_decode_ok hk hrun hread hi, exec_eq_effect, select_block, heffect, select_sel]

/-- Settles O27: the read, the decoding and the effect of a sequencer's turn are the same in both states. -/
theorem sequencerReadsOnlyItsInstance : Obligations.SequencerReadsOnlyItsInstance := by
  intro s₁ s₂ t₁ k hprog hblock h
  obtain ⟨hk, ⟨hidle, rfl⟩ | ⟨hrun, w, i, hread, hi, v, heffect, rfl⟩⟩ := seqTurn_cases k s₁ t₁ h
  · rw [hblock] at hidle
    exact ⟨_, seqTurn_of_idle hk hidle, hblock.symm⟩
  · rw [hblock] at hrun heffect
    rw [romRead_congr hprog, hblock] at hread
    refine ⟨_, seqTurn_of_effect hk hrun hread hi heffect, ?_⟩
    rw [blockAt_setBlock_self, blockAt_setBlock_self]

/-! ### The configuration errors -/

section InitBegin

variable {N P j : Nat} {a : InitArgs} {s : State} (hlow : 0 ≤ a.pin) (hpin : a.pin < P) (hf : 0 < a.countFrequency)
include hlow hpin hf

theorem initBegin_of_invalid_sequencerId (hid : a.sequencerId < 0 ∨ N ≤ a.sequencerId) :
    initBegin N P j a s = .next (s.raiseConfigError j .errSeqId) := by
  rw [initBegin, if_neg (by omega), if_neg (by omega), if_pos (by omega)]

variable (hid : 0 ≤ a.sequencerId ∧ a.sequencerId < N) (hfresh : (s.blockAt a.sequencerId.toNat).fresh = true)
include hid hfresh

theorem initBegin_of_pinBound (hbound : s.pinBoundAt a.pin.toNat = true) :
    initBegin N P j a s = .next (s.raiseConfigError j .errPinBound) := by
  rw [initBegin, if_neg (by omega), if_neg (by omega), if_neg (by omega), if_neg (not_not_intro hfresh), if_pos hbound]

theorem initBegin_of_invalid_maxCount (hfree : s.pinBoundAt a.pin.toNat = false)
    (hmax : a.maxCount < 0 ∨ 2 ^ 32 - 1 < a.maxCount) : initBegin N P j a s = .next (s.raiseConfigError j .errMaxCount) := by
  have hlimit : ¬(0 ≤ a.maxCount ∧ a.maxCount.toNat ≤ 2 ^ 32 - 1) := by omega
  rw [initBegin, if_neg (by omega), if_neg (by omega), if_neg (by omega), if_neg (not_not_intro hfresh),
    if_neg (Bool.eq_false_iff.mp hfree), if_pos hlimit]

end InitBegin

theorem Block.fresh_iff (u : Block) : u.fresh = true ↔ u.run = false ∧ u.touched = false := by
  simp [Block.fresh]

/-- Settles O51: each error is the first check of R207 that fails, and raising it writes the caller's code alone. -/
theorem configErrorsInOrderChangeNothing : Obligations.ConfigErrorsInOrderChangeNothing := by
  refine ⟨⟨rfl, rfl, rfl, rfl⟩, fun N P j a s hlow hpin hf => ⟨initBegin_of_invalid_sequencerId hlow hpin hf, ?_⟩⟩
  intro k hid hk hidle huntouched
  have hfresh : (s.blockAt a.sequencerId.toNat).fresh = true := by
    rw [hid, Int.toNat_natCast]
    exact (Block.fresh_iff _).mpr ⟨hidle, huntouched⟩
  have hvalid : 0 ≤ a.sequencerId ∧ a.sequencerId < N := by omega
  exact ⟨initBegin_of_pinBound hlow hpin hf hvalid hfresh, initBegin_of_invalid_maxCount hlow hpin hf hvalid hfresh⟩

end Sys2Proof.Machine
end

section
/-! PROOFS. The priming sequence of `initialize` among the steps of other contexts (R160, R242): what an `ENQUEUE` sent into it leaves, and what a
call that nothing disturbs leaves under every interleaving. -/

namespace Sys2Proof.Machine

/-! ### An enqueue sent into the priming sequence -/

/-- After its `ENQUEUE` the priming takes the queue as it finds it and no longer reads the `max_count` of its call: an instance primed so far with
`v` goes on to be primed with `v`. -/
theorem effect_stageInstr_of_ne_enqueue {k p m : Nat} {stage st : InitStage} {i : Instr} {u : Block} (v : Word) (hidle : u.run = false)
    (hqueued : stage ≠ .enqueue) (hstage : stageInstr ⟨k, p, m, stage⟩ = some (i, st)) :
    effect i { u.primed v stage with touched := true } = .ok (u.primed v st) := by
  have hinstr : stageInstr ⟨k, p, v.toNat, stage⟩ = stageInstr ⟨k, p, m, stage⟩ := by
    cases stage with
    | enqueue => exact absurd rfl hqueued
    | fetch | ldper | activate | finish => rfl
  have hv : encW v.toNat = v := by rw [encW_natCast, BitVec.ofNat_toNat, BitVec.setWidth_eq]
  have heffect := effect_stageInstr (u := u) hidle (hinstr.trans hstage)
  rwa [hv] at heffect

namespace Initialising

variable {s t : State} {i j : Nat} {c : InitCall} {ops : List HostOp} {rest : List Agent} {u : Block}

/-- An `ENQUEUE` of another context falls into the call: as if that context had sent it before, but for what the queue holds now. -/
theorem enqueued {v : Word} {opsI : List HostOp} (h : Initialising s j c ops (.host i :: rest) u t) (hij : i ≠ j)
    (hk : c.sequencerId < Config.nSeq) (hcall : (s.contextAt i).call = none)
    (hops : (s.contextAt i).ops = .command c.sequencerId (packCommand 0 v) :: opsI) :
    ∃ r, step t = .next r ∧
      Initialising (s.onContext i fun g => { g with ops := opsI }) j c ops rest
        { u with tqData := v, tqValid := true, touched := true } r := by
  have hother : t.contextAt i = s.contextAt i := h.contextAt_ne i hij
  have heffect : effect (.enqueue v) { t.blockAt c.sequencerId with touched := true } =
      .ok { u with tqData := v, tqValid := true, touched := true } := by
    rw [h.blockAt_self]
    rfl
  rw [← hother] at hcall hops
  refine ⟨_, (step_of_command h.schedule_eq hcall hops).trans
      ((commandTurn_of_ok _ hk (decodeCommand_enqueue v)).trans (exec_addressed_of_effect heffect)),
    rfl, h.prog_eq, blockAt_setBlock_self _ _ _, fun q hq => ?_, h.pinBoundAt_eq, h.controllerAt_eq, ?_, fun q hq => ?_⟩
  · rw [blockAt_setBlock, if_neg hq, blockAt_addressed, if_neg hq]
    exact h.blockAt_ne q hq
  · rw [setBlock_contextAt, addressed_contextAt, contextAt_onContext, if_neg hij.symm, contextAt_onContext, if_neg hij.symm]
    exact h.contextAt_self
  · rw [setBlock_contextAt, addressed_contextAt, contextAt_onContext, contextAt_onContext]
    split
    · exact congrArg (fun g : HostContext => { g with ops := opsI }) hother
    · exact h.contextAt_ne q hq

end Initialising

/-- Once something is queued the priming goes on with it (R160, steps 6 to 8). -/
theorem Initialising.primes_queued {s t : State} {j k p m : Nat} {stage st : InitStage} {i : Instr} {ops : List HostOp}
    {rest : List Agent} {u : Block} {v : Word} (hidle : u.run = false)
    (h : Initialising s j ⟨k, p, m, stage⟩ ops (.host j :: rest) (u.primed v stage) t) (hqueued : stage ≠ .enqueue)
    (hstage : stageInstr ⟨k, p, m, stage⟩ = some (i, st)) :
    ∃ r, step t = .next r ∧ Initialising s j ⟨k, p, m, st⟩ ops rest (u.primed v st) r :=
  h.next hstage (effect_stageInstr_of_ne_enqueue v hidle hqueued hstage)

/-! ### A context that calls `initialize` and nothing else -/

/-- How far context `j` has come with its one operation, a call of `initialize`: it has yet to begin it, is in the middle of it, has been answered
an error code, or has made the controller. -/
inductive OneCall (j k p m f : Nat) (s : State) : Prop
  | pending : s.contextAt j = { ops := [.initChannel ⟨k, p, m, f⟩], call := none, result := none } → OneCall j k p m f s
  | primes (stage : InitStage) : s.contextAt j = { ops := [], call := some ⟨k, p, m, stage⟩, result := none } → OneCall j k p m f s
  | fails (r : InitResult) : r ≠ .success → s.contextAt j = { ops := [], call := none, result := some r } → OneCall j k p m f s
  | succeeds : s.contextAt j = { ops := [], call := none, result := some .success } → s.controllerAt k = some ⟨k, m, p⟩ →
      OneCall j k p m f s

/-- Success is the code of a call that has made its controller (R204), and of no other. -/
theorem OneCall.controllerAt_of_success {j k p m f : Nat} {s : State} (h : OneCall j k p m f s)
    (hresult : (s.contextAt j).result = some .success) : s.controllerAt k = some ⟨k, m, p⟩ := by
  cases h with
  | pending hj | primes stage hj => rw [hj] at hresult; cases hresult
  | fails r hr hj => rw [hj] at hresult; exact absurd (Option.some.inj hresult) hr
  | succeeds hj hc => exact hc

/-- How far the context has come depends on nothing but the context and, once there is one, the controller. -/
theorem OneCall.of_frame {j k p m f : Nat} {s t : State} (h : OneCall j k p m f s) (hcontext : t.contextAt j = s.contextAt j)
    (hcontroller : ∀ c, s.controllerAt k = some c → t.controllerAt k = some c) : OneCall j k p m f t := by
  cases h with
  | pending hj => exact .pending (hcontext.trans hj)
  | primes stage hj => exact .primes stage (hcontext.trans hj)
  | fails r hr hj => exact .fails r hr (hcontext.trans hj)
  | succeeds hj hc => exact .succeeds (hcontext.trans hj) (hcontroller _ hc)

/-- The turn with the checks returns no success: it raises an error (R204) or leaves the call under way (R160, step 4). -/
theorem initBegin_result_ne_success {N P j : Nat} {a : InitArgs} {s t : State} (h : initBegin N P j a s = .next t)
    (hnone : (s.contextAt j).result = none) : (t.contextAt j).result ≠ some .success := by
  unfold initBegin at h
  split_ifs at h with hpin hf hid hfresh hbound hmax
  · cases h; simp [contextAt_raiseConfigError]
  · cases h; simp [contextAt_onContext, hnone]
  · cases h; simp [contextAt_raiseConfigError]
  · cases h; simp [contextAt_raiseConfigError]

section Step

variable {j k p m f : Nat} {s t : State}

/-- The turn of the context itself brings its call one step further. -/
theorem OneCall.of_hostTurn (hcall : OneCall j k p m f s) (h : hostTurn j s = .next t) : OneCall j k p m f t := by
  cases hcall with
  | pending hj =>
    have hbegin : initBegin Config.nSeq Config.nPin j ⟨k, p, m, f⟩ (s.onContext j fun g => { g with ops := [] }) = .next t :=
      (hostTurn_of_op (op := .initChannel ⟨k, p, m, f⟩) (ops := []) (by rw [hj]) (by rw [hj])).symm.trans h
    have hne : (t.contextAt j).result ≠ some .success :=
      initBegin_result_ne_success hbegin (by rw [contextAt_onContext, if_pos rfl, hj])
    obtain ⟨r, rfl⟩ | hbound := initBegin_cases _ _ _ _ _ _ hbegin
    · have hr : r ≠ .success := by
        rintro rfl
        exact hne (by rw [contextAt_raiseConfigError, if_pos rfl])
      exact .fails r hr (by rw [contextAt_raiseConfigError, if_pos rfl, contextAt_onContext, if_pos rfl, hj])
    · exact .primes .enqueue (by rw [hbound.contextAt_self, contextAt_onContext, if_pos rfl, hj]; rfl)
  | primes stage hj =>
    rw [hostTurn_of_call (by rw [hj])] at h
    obtain ⟨i, st, -, hcom⟩ | ⟨-, rfl⟩ := initContinue_cases j _ s t h
    · exact .primes st (by rw [hcom.contextAt_eq, contextAt_reachStage, if_pos rfl, hj])
    · exact .succeeds (by rw [contextAt_finished, hj]) (by rw [controllerAt_finished, if_pos rfl])
  | fails r hr hj =>
    obtain rfl : s = t := by simpa [hostTurn_of_idle, hj] using h
    exact .fails r hr hj
  | succeeds hj hc =>
    obtain rfl : s = t := by simpa [hostTurn_of_idle, hj] using h
    exact .succeeds hj hc

/-- A controller once made stays as it is: no call is under way on an instance that has one. -/
theorem step_controllerAt (hs : ChannelInv s) (h : step s = .next t) {c : Controller} (hc : s.controllerAt k = some c) :
    t.controllerAt k = some c := by
  obtain ⟨-, -, ⟨hcalls, -⟩, -⟩ := hs
  obtain hsame | ⟨i, d, hd, -, rfl⟩ := step_controllers h
  · rwa [State.controllerAt, hsame]
  · obtain ⟨hnone, -⟩ := hcalls i d hd
    rw [controllerAt_finished, if_neg]
    · exact hc
    · rintro rfl
      rw [hc] at hnone
      cases hnone

/-- A step that is not the context's own leaves it alone. -/
theorem step_contextAt_of_turnOf_ne (h : step s = .next t) (hturn : s.turnOf ≠ .host j) : t.contextAt j = s.contextAt j := by
  obtain ⟨i, -, hi⟩ | ⟨i, hi, hhost⟩ := step_cases s t h
  · obtain ⟨-, -, hcontexts, -⟩ := seqTurn_frame hi
    rw [State.contextAt, hcontexts]
    rfl
  · have hji : j ≠ i := fun hji => hturn (hji ▸ hi)
    exact (Updates.of_hostTurn hhost).contextAt_ne hji

/-- Every step of either agent keeps `OneCall`, for a host that keeps to R160. -/
theorem OneCall.of_step (hcall : OneCall j k p m f s) (hs : ChannelInv s) (h : step s = .next t) : OneCall j k p m f t := by
  by_cases hturn : s.turnOf = .host j
  · have hused : OneCall j k p m f s.turnUsed := hcall.of_frame rfl fun _ hc => hc
    exact hused.of_hostTurn ((step_of_turnOf hturn).symm.trans h)
  · exact hcall.of_frame (step_contextAt_of_turnOf_ne h hturn) fun _ hc => step_controllerAt hs h hc

end Step

/-! ### Runs -/

/-- A run that ends in a state begins with a step to a state. -/
theorem exists_step_of_core_run {n : Nat} {s t : State} (h : core.run (n + 1) s = .next t) :
    ∃ r, step s = .next r ∧ core.run n r = .next t := by
  cases hstep : step s with
  | next r => exact ⟨r, rfl, (core_run_next n s r hstep).symm.trans h⟩
  | fault e =>
    have hfault : core.step s = .fault e := hstep
    simp [Host.Core.run, hfault] at h
  | refused e =>
    have hrefused : core.step s = .refused e := hstep
    simp [Host.Core.run, hrefused] at h

/-- What every step keeps, a run keeps. -/
theorem core_run_keeps {motive : State → Prop} (hkeeps : ∀ s t, motive s → step s = .next t → motive t) {n : Nat} {s t : State}
    (hs : motive s) (h : core.run n s = .next t) : motive t := by
  induction n generalizing s with
  | zero =>
    rw [core_run_zero] at h
    cases h
    exact hs
  | succ n ih =>
    obtain ⟨r, hstep, hrun⟩ := exists_step_of_core_run h
    exact ih (hkeeps s r hs hstep) hrun

/-! ### The two halves -/

/-- R242, its first half: seven turns one after the other, of which the third puts `v` where the call's own `max_count` was. -/
theorem interference_ends_in_period {s : State} {i j k p m f : Nat} {v : Word} {opsI opsJ : List HostOp} {rest : List Agent} (hij : i ≠ j)
    (hk : k < Config.nSeq) (hp : p < Config.nPin) (hm : m ≤ 2 ^ 32 - 1) (hf : 0 < f) (hreset : (s.blockAt k).AtReset)
    (hfree : s.pinBoundAt p = false) (hcallI : (s.contextAt i).call = none)
    (hopsI : (s.contextAt i).ops = .command k (packCommand 0 v) :: opsI) (hcallJ : (s.contextAt j).call = none)
    (hopsJ : (s.contextAt j).ops = .initChannel ⟨k, p, m, f⟩ :: opsJ)
    (hschedule : s.schedule = [.host j, .host j, .host i, .host j, .host j, .host j, .host j] ++ rest) :
    ∃ t, core.run 7 s = .next t ∧ (t.blockAt k).period = v ∧ (t.blockAt k).run = true ∧ t.controllerAt k = some ⟨k, m, p⟩ ∧
      (t.contextAt j).result = some .success := by
  have hidle : ((s.blockAt k).configured p (2 * f)).run = false := hreset.1
  obtain ⟨t₁, hstep₁, h₁⟩ := Initialising.begins hk hp hm hf hreset hfree hcallJ hopsJ hschedule
  obtain ⟨t₂, hstep₂, h₂⟩ := h₁.primes hidle rfl
  obtain ⟨t₃, hstep₃, h₃⟩ := h₂.enqueued hij hk hcallI hopsI
  have h₃' : Initialising _ j _ opsJ _ (((s.blockAt k).configured p (2 * f)).primed v .fetch) t₃ := h₃
  obtain ⟨t₄, hstep₄, h₄⟩ := h₃'.primes_queued hidle (by simp) rfl
  obtain ⟨t₅, hstep₅, h₅⟩ := h₄.primes_queued hidle (by simp) rfl
  obtain ⟨t₆, hstep₆, h₆⟩ := h₅.primes_queued hidle (by simp) rfl
  have hstep₇ : step t₆ = .next (finished { t₆ with schedule := rest } j ⟨k, p, m, .finish⟩) := h₆.finish rfl
  have hblock : (finished { t₆ with schedule := rest } j ⟨k, p, m, .finish⟩).blockAt k =
      ((s.blockAt k).configured p (2 * f)).primed v .finish := h₆.blockAt_self
  refine ⟨finished { t₆ with schedule := rest } j ⟨k, p, m, .finish⟩, ?_, ?_, ?_, ?_, ?_⟩
  · rw [core_run_next 6 s t₁ hstep₁, core_run_next 5 t₁ t₂ hstep₂, core_run_next 4 t₂ t₃ hstep₃, core_run_next 3 t₃ t₄ hstep₄,
      core_run_next 2 t₄ t₅ hstep₅, core_run_next 1 t₅ t₆ hstep₆, core_run_next 0 t₆ _ hstep₇, core_run_zero]
  · rw [hblock]; rfl
  · rw [hblock]; rfl
  · rw [controllerAt_finished, if_pos rfl]
  · rw [contextAt_finished]

/-- Settles O54: the disturbed call turn by turn; the undisturbed one by the channel invariant and `OneCall`, which every step keeps, so that the
controller is there when the call has returned, and the channel invariant says the rest. -/
theorem interferenceWithPriming : Obligations.InterferenceWithPriming := by
  refine ⟨fun _ _ _ _ _ _ _ _ _ _ _ => interference_ends_in_period, fun n s t j k p m f hs hj hrun hresult => ?_⟩
  have hkeeps (s t : State) (hboth : ChannelInv s ∧ OneCall j k p m f s) (h : step s = .next t) :
      ChannelInv t ∧ OneCall j k p m f t := by
    obtain ⟨hinv, hcall⟩ := hboth
    exact ⟨stepKeepsChannelInv s t hinv h, hcall.of_step hinv h⟩
  obtain ⟨⟨-, ⟨hcontrollers, -⟩, -, -⟩, hcall⟩ := core_run_keeps hkeeps ⟨hs, .pending hj⟩ hrun
  have hc : t.controllerAt k = some ⟨k, m, p⟩ := hcall.controllerAt_of_success hresult
  obtain ⟨-, -, hrun', -, hperiod, -, -⟩ := hcontrollers k _ hc
  exact ⟨hc, hrun', hperiod⟩

end Sys2Proof.Machine
end
